-- ==== Sys2Proof/Word.lean ====
section
/-! DEFINITION. The word types of the 1-Wire slave engine (00_scope.md R12). Every value is unsigned; a one-bit value
is a `Bool` with `true` = 1. -/

namespace Sys2Proof

/-- One bit: a line level (1 = high, 0 = low), a flag or a data bit (R12, R14). -/
abbrev Bit := Bool

/-- One byte, bit 0 least significant (R12). -/
abbrev Byte := BitVec 8

end Sys2Proof
end

