-- ==== Sys2Proof/Config.lean ====
section
/-! DEFINITION. The configuration record of 00_scope.md R9 and R11, the configuration C0 of 95_test_vectors.md, and the
free values: what the spec leaves to the environment and to the application. -/

namespace Sys2Proof

/-- The implementation parameters of R9, one field each. The rules read only the `ticks…`, `n…`, `d…`, width and
`callbackIo` fields (R9, R10); the others are kept because R11 makes the whole set one record.
The identifier `ID[0..7]` is not here: each engine has its own store. -/
structure Config where
  tResetMinUs : Nat
  tResetMaxUs : Nat
  tPresenceDelayUs : Nat
  tPresenceUs : Nat
  tSampleUs : Nat
  tSlotMinUs : Nat
  tSlotMaxUs : Nat
  tJitterUs : Nat
  tNextSlotMaxUs : Nat
  tTxHoldUs : Nat
  timerUs : Nat
  fCpu : Nat
  iterCost : Nat
  ticksResetMin : Nat
  ticksResetWindow : Nat
  ticksPresence : Nat
  ticksFsRetry : Nat
  nFirstSignal : Nat
  nPresenceRelease : Nat
  nRdStart : Nat
  nRdRelease : Nat
  nWrStart : Nat
  nWrRelease : Nat
  dPresenceDelay : Nat
  dSample : Nat
  dTxHold : Nat
  timerCountBits : Nat
  fsCountBits : Nat
  callbackIo : Bool
  numInstances : Nat
deriving DecidableEq, Repr

/-- Configuration C0 of 95_test_vectors.md section 0. DESIGN CHOICE (log 1): C0 names only the rule-level values; the
microsecond values, the clock and the three delays, which no rule of the untimed model reads, are chosen here inside
the constraints of R9. -/
def Config.c0 : Config where
  tResetMinUs := 480
  tResetMaxUs := 960
  tPresenceDelayUs := 30
  tPresenceUs := 240
  tSampleUs := 30
  tSlotMinUs := 60
  tSlotMaxUs := 120
  tJitterUs := 5
  tNextSlotMaxUs := 120
  tTxHoldUs := 30
  timerUs := 60
  fCpu := 8000000
  iterCost := 320
  ticksResetMin := 8
  ticksResetWindow := 8
  ticksPresence := 4
  ticksFsRetry := 2
  nFirstSignal := 3
  nPresenceRelease := 4
  nRdStart := 3
  nRdRelease := 3
  nWrStart := 3
  nWrRelease := 3
  dPresenceDelay := 30
  dSample := 30
  dTxHold := 30
  timerCountBits := 8
  fsCountBits := 8
  callbackIo := true
  numInstances := 1

/-- One action of the application callback (44_host_interface.md R290, R291): a flag operation of R281 to R285, or a
framing operation. The callback can do nothing else to the engine: `init()` (R343), enabling interrupts (R350) and
writing `stage`, the timer or the line (R290) have no constructor (log 5). -/
inductive CallbackOp where
  | setAlarmOn
  | setAlarmOff
  | isError
  | setErrorOn
  | setErrorOff
  | readBit
  | writeBit (b : Bit)
  | readByte
  | writeByte (v : Byte)
  | writeByteWithCrc8 (v : Byte) (crc : Byte)
deriving DecidableEq, Repr

/-- Free value (R42, I13, log 4): the level of the `n`-th `Pin()` draw on bus `bus` that no script names. -/
opaque Config.freeLevel : (bus : Nat) → (n : Nat) → Bit

/-- Free value (R290, I16, log 5): what the application of bus `bus` does at the `n`-th callback that no script names.
A finite list: a callback that returns performs finitely many actions. -/
opaque Config.freeCallback : (bus : Nat) → (n : Nat) → List CallbackOp

end Sys2Proof
end

