-- ==== Sys2Proof/Syntax.lean ====
section
/-! DEFINITION. The instruction syntax: one constructor of `Instr` per row of spec/opcode_table.json. -/

namespace Sys2Proof

/-- The three busy delays `Delay(D)` may take (41_bit_byte_io.md R191). -/
inductive DelayName where
  /-- `D_PRESENCE_DELAY` (R150) -/
  | presenceDelay
  /-- `D_SAMPLE` (R195) -/
  | sample
  /-- `D_TX_HOLD` (R198) -/
  | txHold
deriving DecidableEq, Repr

/-- A decoded command byte: the six rows of 30_encoding.md R106. -/
inductive RomCommand where
  | search
  | alarmSearch
  | readRom
  | matchRom
  | skip
  | ignored (c : Byte)
deriving DecidableEq, Repr

/-- One constructor per row of spec/opcode_table.json. The ROM commands have a command byte; the events, the internal
operations, the host operations and the callback have no bit pattern. -/
inductive Instr where
  /-- SEARCH, 0xF0 (R231) -/
  | search
  /-- ALARM_SEARCH, 0xEC (R232) -/
  | alarmSearch
  /-- READ, 0x33 (R233) -/
  | readRom
  /-- MATCH, 0x55 (R234) -/
  | matchRom
  /-- SKIP, 0xCC (R235) -/
  | skip
  /-- IGNORED: any of the 251 other command bytes (R236) -/
  | ignored (c : Byte)
  /-- TICK: one soft-timer tick (R143) -/
  | tick
  /-- PIN@IDLE (R146) -/
  | pinIdle
  /-- PIN@WAITING_RESET_MIN (R147) -/
  | pinResetMin
  /-- PIN@WAITING_RESET_MAX (R150) -/
  | pinResetMax
  /-- PIN@PRESENCE_PULSE_ON (R151) -/
  | pinPresence
  /-- PIN@WAITING_FIRST_SIGNAL/ignore=1 (R155) -/
  | pinFirstSignalIgnored
  /-- PIN@WAITING_FIRST_SIGNAL/ignore=0 (R156) -/
  | pinFirstSignalFrame
  /-- EXPIRY@IDLE (R145) -/
  | expiryIdle
  /-- EXPIRY@WAITING_RESET_MIN (R148) -/
  | expiryResetMin
  /-- EXPIRY@WAITING_RESET_MAX (R149) -/
  | expiryResetMax
  /-- EXPIRY@PRESENCE_PULSE_ON (R153) -/
  | expiryPresence
  /-- EXPIRY@WAITING_FIRST_SIGNAL (R158) -/
  | expiryFirstSignal
  /-- EVENT@stage_5_6_7 (R159) -/
  | eventBadStage
  /-- FRAME: the frame handler (R160) -/
  | frame
  /-- `Poll(level, n)` (R190) -/
  | poll (level : Bit) (n : Nat)
  /-- `Delay(d)` (R191) -/
  | delay (d : DelayName)
  /-- `read_bit()` (R195) -/
  | readBit
  /-- `write_bit(b)` (R198) -/
  | writeBit (b : Bit)
  /-- `read_byte()` (R200) -/
  | readByte
  /-- `write_byte(v)` (R202) -/
  | writeByte (v : Byte)
  /-- `write_byte_with_crc8(v, crc)` (R204) -/
  | writeByteWithCrc8 (v : Byte) (crc : Byte)
  /-- `crc8_update(crc, v)` (R261) -/
  | crc8Update (crc : Byte) (v : Byte)
  /-- `init()` (R340) -/
  | init
  /-- `set_alarm_on()` (R281) -/
  | setAlarmOn
  /-- `set_alarm_off()` (R282) -/
  | setAlarmOff
  /-- `is_error()` (R283) -/
  | isError
  /-- `set_error_on()` (R284) -/
  | setErrorOn
  /-- `set_error_off()` (R285) -/
  | setErrorOff
  /-- CALLBACK: the application callback (R290) -/
  | callback
deriving DecidableEq, Repr

/-- The `Instr` row a decoded command byte stands for. -/
def RomCommand.toInstr : RomCommand → Instr
  | .search => .search
  | .alarmSearch => .alarmSearch
  | .readRom => .readRom
  | .matchRom => .matchRom
  | .skip => .skip
  | .ignored c => .ignored c

end Sys2Proof
end

