-- ==== Sys2Proof/WellFormed.lean ====
section
/-! DEFINITION. Which instruction terms the spec gives a form to. -/

namespace Sys2Proof

/-- The five command bytes with a meaning of their own (30_encoding.md R106, in its order). -/
def namedCommandBytes : List Byte := [0xF0#8, 0xEC#8, 0x33#8, 0x55#8, 0xCC#8]

/-- Well-formed terms: IGNORED carries one of the 251 bytes outside the five (R106, R236), and a poll bound is at
least 1 (R190). Every other term has only operands that are all allowed. -/
def WellFormed : Instr → Bool
  | .ignored c => !(namedCommandBytes.contains c)
  | .poll _ n => decide (1 ≤ n)
  | .search | .alarmSearch | .readRom | .matchRom | .skip => true
  | .tick | .pinIdle | .pinResetMin | .pinResetMax | .pinPresence | .pinFirstSignalIgnored
  | .pinFirstSignalFrame | .expiryIdle | .expiryResetMin | .expiryResetMax | .expiryPresence
  | .expiryFirstSignal | .eventBadStage => true
  | .frame | .delay _ | .readBit | .writeBit _ | .readByte | .writeByte _ | .writeByteWithCrc8 _ _
  | .crc8Update _ _ => true
  | .init | .setAlarmOn | .setAlarmOff | .isError | .setErrorOn | .setErrorOff | .callback => true

end Sys2Proof
end

