-- ==== Sys2Proof/Decode.lean ====
section
/-! DEFINITION. Decoding a command byte (30_encoding.md R106, 42_rom_commands.md R230), its encoder, and the byte's
slots on the wire (R104). -/

namespace Sys2Proof

/-- The decode table of R106: an exact match of all eight bits, every other byte is IGNORED (R107, R236). -/
def decodeCommand (cmd : Byte) : RomCommand :=
  if cmd = 0xF0#8 then .search
  else if cmd = 0xEC#8 then .alarmSearch
  else if cmd = 0x33#8 then .readRom
  else if cmd = 0x55#8 then .matchRom
  else if cmd = 0xCC#8 then .skip
  else .ignored cmd

/-- The instruction a command byte stands for. -/
def decodeByte (cmd : Byte) : Instr := (decodeCommand cmd).toInstr

/-- Why a list of received bytes gives no command. -/
inductive DecodeRefusal where
  /-- No byte has been received (R160: the command byte is the first byte of the frame). -/
  | noCommandByte
deriving DecidableEq, Repr

/-- Decode the first byte of a frame and leave the rest: the whole byte is the opcode, and no byte is illegal
(R106, R107, R111). -/
def decode : List Byte → Except DecodeRefusal (Instr × List Byte)
  | [] => .error .noCommandByte
  | cmd :: rest => .ok (decodeByte cmd, rest)

/-- The command byte of an instruction, from the table of R106; the rows with no bit pattern have none. -/
def encode : Instr → Option Byte
  | .search => some 0xF0#8
  | .alarmSearch => some 0xEC#8
  | .readRom => some 0x33#8
  | .matchRom => some 0x55#8
  | .skip => some 0xCC#8
  | .ignored c => some c
  | .tick | .pinIdle | .pinResetMin | .pinResetMax | .pinPresence | .pinFirstSignalIgnored
  | .pinFirstSignalFrame | .expiryIdle | .expiryResetMin | .expiryResetMax | .expiryPresence
  | .expiryFirstSignal | .eventBadStage => none
  | .frame | .poll _ _ | .delay _ | .readBit | .writeBit _ | .readByte | .writeByte _
  | .writeByteWithCrc8 _ _ | .crc8Update _ _ => none
  | .init | .setAlarmOn | .setAlarmOff | .isError | .setErrorOn | .setErrorOff | .callback => none

/-- The slots that carry a byte, in time order: slot `i` carries bit `i` (R104). -/
def byteSlots (v : Byte) : List Bit :=
  [v.getLsbD 0, v.getLsbD 1, v.getLsbD 2, v.getLsbD 3, v.getLsbD 4, v.getLsbD 5, v.getLsbD 6, v.getLsbD 7]

/-- The instruction read from a table row's bits: a command byte is one word of eight bits, and a row's missing bits
are 0. More than one byte is no row of the table. -/
def decodeTableWord (nbits w : Nat) : Option Instr :=
  if nbits ≤ 8 then
    match decode [BitVec.ofNat 8 (w % 2 ^ nbits)] with
    | .ok (i, _) => some i
    | .error _ => none
  else none

end Sys2Proof
end

