-- ==== Sys2Proof/Machine/State.lean ====
section
/-! DEFINITION. The architectural state (10_state.md R30), what surrounds one engine in the model, and reset. Plain
data throughout. -/

namespace Sys2Proof.Machine

/-- The `stage` register, 3 bits: the five named values of R32 and the three that no rule writes (R33). -/
inductive Stage where
  /-- 0, IDLE -/
  | idle
  /-- 1, WAITING_RESET_MIN -/
  | waitingResetMin
  /-- 2, WAITING_RESET_MAX -/
  | waitingResetMax
  /-- 3, PRESENCE_PULSE_ON -/
  | presencePulseOn
  /-- 4, WAITING_FIRST_SIGNAL -/
  | waitingFirstSignal
  /-- 5, unused -/
  | unused5
  /-- 6, unused -/
  | unused6
  /-- 7, unused -/
  | unused7
deriving DecidableEq, Repr

/-- The five deadline sites of 60_exceptions.md R300. -/
inductive FaultSite where
  | rdStart
  | rdRelease
  | wrStart
  | wrRelease
  | presenceRelease
deriving DecidableEq, Repr

/-- A trace entry (00_scope.md R14). -/
inductive TraceEntry where
  | sample (v : Bit)
  | drive (b : Bit)
  | port (b : Bit)
  | tset (n : Nat)
  | tcancel
  | delay (d : DelayName)
  | callback
  | fault (site : FaultSite)
deriving DecidableEq, Repr

/-- A result handed to the caller of an operation: a bit (`read_bit`, `is_error`), a byte (`read_byte`, a CRC) or the
outcome of a poll (`OK` = true, `TIMEOUT` = false). -/
inductive Value where
  | bit (b : Bit)
  | byte (v : Byte)
  | polled (ok : Bool)
deriving DecidableEq, Repr

/-- The identifier store: address and byte pairs, addresses strictly rising, no entry equal to the byte an unlisted
address reads as (20_memory.md R75, log 2). -/
abbrev Memory := List Host.Cell

/-- One engine bound to one bus line (R30, R52). The first ten fields are the registers of R30 and `store` is the
identifier store of R45; the others are the model's boundary with the environment and the application. -/
structure Engine where
  stage : Stage
  ignoreOneChange : Bit
  alarm : Bit
  error : Bit
  slotStarted : Bit
  fsCount : Nat
  timerArmed : Bit
  timerCount : Nat
  lineDdr : Bit
  linePort : Bit
  store : Memory
  /-- the bus line this engine is bound to (log 8) -/
  bus : Nat
  /-- `init()` has run for this engine (R341, log 9) -/
  started : Bool
  /-- the `Pin()` draws still to come (R42, R121, log 4) -/
  draws : List Bit
  /-- how many draws have come from `Config.freeLevel` (log 4) -/
  freeDraws : Nat
  /-- what the application does at its next callbacks (R290, log 5) -/
  callbacks : List (List CallbackOp)
  /-- how many callbacks have come from `Config.freeCallback` (log 5) -/
  freeCallbacks : Nat
  /-- the observation of R141, newest entry first (log 6) -/
  trace : List TraceEntry
  /-- the results handed out, newest first (log 7) -/
  returned : List Value
deriving DecidableEq, Repr

/-- The host operations that are macro-steps of their own (44_host_interface.md R280 to R286). -/
inductive HostOp where
  | init
  | setAlarmOn
  | setAlarmOff
  | isError
  | setErrorOn
  | setErrorOff
deriving DecidableEq, Repr

/-- What one macro-step processes (40_bus_state_machine.md R140, R142). -/
inductive Input where
  | pin
  | tick
  | host (op : HostOp)
deriving DecidableEq, Repr

/-- One item of the engine input script (30_encoding.md R121): the input and the bus it is for (60_exceptions.md R330). -/
structure Delivery where
  bus : Nat
  input : Input
deriving DecidableEq, Repr

/-- The machine: the configuration (R11), the engine whose macro-step runs, the other engines (R330), and the inputs
still to be delivered, oldest first, in the order the environment chose (60_exceptions.md R312, R313). -/
structure State where
  config : Config
  engine : Engine
  parked : List Engine
  inputs : List Delivery
deriving DecidableEq, Repr

/-- The model faults of 60_exceptions.md R306. They are no hardware behaviour: the machine stops. -/
inductive Fault where
  /-- `BAD_STAGE`: a macro-step found `stage` = 5, 6 or 7 at its start. Raised by `execTick` and `execEventBadStage`; safe
  (R33, R159). -/
  | badStage
  /-- `BAD_ID_ADDRESS`: a read of the identifier store outside 0 to 7. Raised by `memRead`, which no meaning calls with
  such an address; safe (20_memory.md R79). -/
  | badIdAddress
deriving DecidableEq, Repr

/-- Why a run is refused. -/
inductive Refusal where
  /-- No meaning yet for the instruction. Raised by `exec`; safe. -/
  | notModelled (mnemonic : String)
  /-- The configuration breaks a constraint of 00_scope.md R9. Raised by `step`; safe (R10). -/
  | invalidConfiguration
  /-- An event came before `init()` ran for its engine. Raised by `step`; safe (70_reset_and_hazards.md R341, I12). -/
  | eventBeforeInit
  /-- A poll with bound 0. Raised by `execPoll`; safe (41_bit_byte_io.md R190 d). -/
  | zeroPollBound
  /-- A delivery names a bus that has no engine. Raised by `step`; safe (log 8). -/
  | noSuchEngine
deriving DecidableEq, Repr

/-- An engine at the end state of `init()` (10_state.md R49), with nothing scripted and nothing observed yet. DESIGN
CHOICE (log 3): R49 leaves `fs_count` and `timer.count` unspecified; they are 0 here. -/
def Engine.afterInit (bus : Nat) (store : Memory) : Engine where
  stage := .idle
  ignoreOneChange := false
  alarm := false
  error := false
  slotStarted := false
  fsCount := 0
  timerArmed := false
  timerCount := 0
  lineDdr := false
  linePort := false
  store := store
  bus := bus
  started := true
  draws := []
  freeDraws := 0
  callbacks := []
  freeCallbacks := 0
  trace := []
  returned := []

/-- The machine right after reset: one engine at the end state of `init()` (R49, R340, R341), configuration C0 (log 1),
an identifier store with nothing listed (log 2) and no input delivered yet (log 10). -/
def State.reset : State where
  config := Config.c0
  engine := Engine.afterInit 0 []
  parked := []
  inputs := []

end Sys2Proof.Machine
end

