-- ==== Sys2Proof/Machine/Ops.lean ====
section
/-! DEFINITION. The shared operations: the configuration check (00_scope.md R9, R10), the identifier store
(20_memory.md R75 to R79), the pseudocode primitives (00_scope.md R14), the missed deadline and the two ways its
`error` is cleared (60_exceptions.md R300 to R303). -/

namespace Sys2Proof.Machine

/-! ### The configuration -/

/-- Every constraint of the table of R9. The widths hold every value they are loaded with. -/
def configValid (c : Config) : Bool :=
  List.all
    [decide (0 < c.tResetMinUs), decide (c.tResetMinUs < c.tResetMaxUs), decide (0 < c.tPresenceUs),
      decide (0 < c.tSlotMinUs), decide (c.tSlotMinUs < c.tSlotMaxUs), decide (0 < c.tNextSlotMaxUs),
      decide (0 < c.tTxHoldUs), decide (0 < c.timerUs), decide (0 < c.fCpu), decide (0 < c.iterCost),
      decide (1 ≤ c.ticksResetMin), decide (1 ≤ c.ticksResetWindow), decide (1 ≤ c.ticksPresence),
      decide (1 ≤ c.ticksFsRetry), decide (1 ≤ c.nFirstSignal), decide (1 ≤ c.nPresenceRelease),
      decide (1 ≤ c.nRdStart), decide (1 ≤ c.nRdRelease), decide (1 ≤ c.nWrStart), decide (1 ≤ c.nWrRelease),
      decide (c.ticksResetMin < 2 ^ c.timerCountBits), decide (c.ticksResetWindow < 2 ^ c.timerCountBits),
      decide (c.ticksPresence < 2 ^ c.timerCountBits), decide (c.ticksFsRetry < 2 ^ c.timerCountBits),
      decide (c.nFirstSignal < 2 ^ c.fsCountBits), decide (1 ≤ c.numInstances)]
    id

/-! ### The identifier store -/

/-- What an address that is not listed reads as. DESIGN CHOICE (log 2): the spec makes the identifier a parameter and
gives no unprovisioned value. -/
def unlistedByte : Byte := 0x00#8

/-- The canonical form above a lower bound: addresses strictly rising, inside 0 to 7 (R75), and no entry holding
`unlistedByte`. -/
def memWfFrom (low : Nat) : Memory → Bool
  | [] => true
  | (a, v) :: m => decide (low ≤ a) && decide (a < 8) && decide (v ≠ unlistedByte) && memWfFrom (a + 1) m

/-- The canonical form of an identifier store. -/
def Memory.wf (m : Memory) : Bool := memWfFrom 0 m

/-- The byte at an address of the store. -/
def idByte : Memory → Nat → Byte
  | [], _ => unlistedByte
  | (b, v) :: m, a => if a = b then v else idByte m a

/-- `MemRead(a, 1)` (R75, R79): `ID[a]` for `a` in 0 to 7, the model fault BAD_ID_ADDRESS elsewhere. -/
def memRead (m : Memory) (a : Nat) : Except Fault Byte :=
  if a < 8 then .ok (idByte m a) else .error .badIdAddress

/-- Put a byte at an address and keep the canonical form. Only provisioning does this (70_reset_and_hazards.md R341
step 1): the engine has no write path to the store (R75, 00_scope.md R15). -/
def memSet : Memory → Nat → Byte → Memory
  | [], a, v => if v = unlistedByte then [] else [(a, v)]
  | (b, w) :: m, a, v =>
    if a < b then (if v = unlistedByte then (b, w) :: m else (a, v) :: (b, w) :: m)
    else if a = b then (if v = unlistedByte then m else (a, v) :: m)
    else (b, w) :: memSet m a v

/-- Put the listed bytes at ascending addresses from `a`. -/
def provisionFrom : Nat → List Byte → Memory → Memory
  | _, [], m => m
  | a, v :: vs, m => provisionFrom (a + 1) vs (memSet m a v)

/-- The store provisioned with `ID[0..7]`; a byte beyond the eighth has no address. -/
def provision (id : List Byte) : Memory := provisionFrom 0 (id.take 8) []

/-! ### Widths -/

/-- The value a register of `w` bits holds after `n` is written to it (R12: truncated to the destination). -/
def fit (w n : Nat) : Nat := n % 2 ^ w

/-- One less, in a register of `w` bits. -/
def decr (w n : Nat) : Nat := (n + (2 ^ w - 1)) % 2 ^ w

/-! ### The primitives of R14 -/

/-- Append one entry to the trace (R141). -/
def Engine.emit (e : Engine) (t : TraceEntry) : Engine := { e with trace := t :: e.trace }

/-- Hand a result to the caller outside the engine. -/
def Engine.give (e : Engine) (v : Value) : Engine := { e with returned := v :: e.returned }

/-- The next line level and what is left of the draws: the next scripted level, and a free value when none is left
(R42, log 4). -/
def Engine.nextLevel (e : Engine) : Bit × Engine :=
  match e.draws with
  | v :: vs => (v, { e with draws := vs })
  | [] => (Config.freeLevel e.bus e.freeDraws, { e with freeDraws := e.freeDraws + 1 })

/-- `Pin()`: sample the bus line (R14, R42). -/
def Engine.pin (e : Engine) : Bit × Engine :=
  (e.nextLevel.1, e.nextLevel.2.emit (.sample e.nextLevel.1))

/-- `Drive(b)`: 1 sinks the line, 0 releases it (R14, R44). -/
def Engine.drive (b : Bit) (e : Engine) : Engine := { e with lineDdr := b }.emit (.drive b)

/-- `SetPort(b)` (R14, R44). -/
def Engine.setPort (b : Bit) (e : Engine) : Engine := { e with linePort := b }.emit (.port b)

/-- `TimerSet(n)`: replaces any countdown in progress (R14, R43). -/
def Engine.timerSet (c : Config) (n : Nat) (e : Engine) : Engine :=
  { e with timerCount := fit c.timerCountBits n, timerArmed := true }.emit (.tset n)

/-- `TimerCancel()`: disarms whether or not the timer was armed (R14, R43). DESIGN CHOICE (log 3): R43 leaves
`timer.count` unspecified from here on; it keeps the ticks that remained. -/
def Engine.timerCancel (e : Engine) : Engine := { e with timerArmed := false }.emit .tcancel

/-- `Delay(D)`: an ordering mark, no sample and no register (R14, R191). -/
def Engine.delay (d : DelayName) (e : Engine) : Engine := e.emit (.delay d)

/-! ### A missed deadline, and the ways its `error` goes away -/

/-- `raise DeadlineMiss(site)`: `error <- 1`, the site goes into the trace, and control goes on (R14, R300). The
block has no trap, no saved context and no vector (R307, R314): this is its whole exception entry. -/
def Engine.deadlineMiss (site : FaultSite) (e : Engine) : Engine :=
  { e with error := true }.emit (.fault site)

/-- The frame's end: `error <- 0`, `slot_started <- 0` (40_bus_state_machine.md R156, R301). -/
def Engine.endFrame (e : Engine) : Engine := { e with error := false, slotStarted := false }

/-- An apparent short-circuit after PRESENCE: the miss is recorded, `error` is cleared at once and the stage returns to
IDLE (40_bus_state_machine.md R153, R303). -/
def Engine.shortCircuit (e : Engine) : Engine :=
  { e.deadlineMiss .presenceRelease with error := false, stage := .idle }

/-! ### From an engine to the machine -/

/-- Run an operation of one engine on the engine whose macro-step it is; the other engines, the configuration and the
inputs stay (60_exceptions.md R330). -/
def State.onEngine (f : Config → Engine → Engine) (s : State) : State :=
  { s with engine := f s.config s.engine }

end Sys2Proof.Machine
end

