-- ==== Sys2Proof/Machine/Operands.lean ====
section
/-! DEFINITION. The operands of the commands (30_encoding.md R110): identifier bits, and a byte assembled from or taken
apart into bits, least-significant bit first (R104, 20_memory.md R77). -/

namespace Sys2Proof.Machine

/-- Identifier bit `k`, 0 to 63: `id_k = ID[k >> 3][k & 7]` (20_memory.md R77). -/
def idBit (m : Memory) (k : Nat) : Bit := (idByte m (k / 8)).getLsbD (k % 8)

/-- `acc | (zext_8(b) << i)` (41_bit_byte_io.md R200). -/
def putBit (acc : Byte) (i : Nat) (b : Bit) : Byte := acc ||| ((BitVec.ofBool b).zeroExtend 8 <<< i)

/-- `v[i]` (00_scope.md R12). -/
def takeBit (v : Byte) (i : Nat) : Bit := v.getLsbD i

end Sys2Proof.Machine
end

