-- ==== Sys2Proof/Machine/BitByteIo.lean ====
section
/-! DEFINITION. Bit and byte I/O (41_bit_byte_io.md): the two wait primitives, the bit and byte operations, and their
rows of the opcode table. Called as a row of its own, an operation hands its result to the caller. -/

namespace Sys2Proof.Machine

/-- `Poll(level, n)`: true for `OK`, false for `TIMEOUT` (R190). -/
def Engine.poll (level : Bit) : Nat → Engine → Bool × Engine
  | 0, e => (false, e)
  | n + 1, e => if e.pin.1 = level then (true, e.pin.2) else Engine.poll level n e.pin.2

/-- The part of `read_bit` after the slot start: the sampling delay, the sample, and the release poll of a 0 (R195). -/
def Engine.sampleSlot (c : Config) (e : Engine) : Bit × Engine :=
  let p := (e.delay .sample).pin
  if p.1 then (true, p.2)
  else
    let q := p.2.poll true c.nRdRelease
    if q.1 then (false, q.2) else (false, q.2.deadlineMiss .rdRelease)

/-- `read_bit()` (R195). -/
def Engine.readBit (c : Config) (e : Engine) : Bit × Engine :=
  if e.error then (false, e)
  else if e.slotStarted then Engine.sampleSlot c { e with slotStarted := false }
  else
    let p := e.poll false c.nRdStart
    if p.1 then Engine.sampleSlot c p.2 else (false, p.2.deadlineMiss .rdStart)

/-- `write_bit(b)` (R198). -/
def Engine.writeBit (c : Config) (b : Bit) (e : Engine) : Engine :=
  if e.error then e
  else
    let p := e.poll false c.nWrStart
    if p.1 then
      let held := if b then p.2 else p.2.drive true
      let q := ((held.delay .txHold).drive false).poll true c.nWrRelease
      if q.1 then q.2 else q.2.deadlineMiss .wrRelease
    else p.2.deadlineMiss .wrStart

/-- The loop of `read_byte` for the `n` bits from bit `i` on (R200). -/
def Engine.readBits (c : Config) : Nat → Nat → Byte → Engine → Byte × Engine
  | 0, _, acc, e => (acc, e)
  | n + 1, i, acc, e =>
    let r := e.readBit c
    if r.2.error then (putBit acc i r.1, r.2) else Engine.readBits c n (i + 1) (putBit acc i r.1) r.2

/-- `read_byte()` (R200). -/
def Engine.readByte (c : Config) (e : Engine) : Byte × Engine := e.readBits c 8 0 0x00#8

/-- The loop of `write_byte` for the `n` bits from bit `i` on (R202). -/
def Engine.writeBits (c : Config) (v : Byte) : Nat → Nat → Engine → Engine
  | 0, _, e => e
  | n + 1, i, e =>
    let w := e.writeBit c (takeBit v i)
    if w.error then w else Engine.writeBits c v n (i + 1) w

/-- `write_byte(v)` (R202). -/
def Engine.writeByte (c : Config) (v : Byte) (e : Engine) : Engine := e.writeBits c v 8 0

/-- `write_byte_with_crc8(v, crc)` (R204). -/
def Engine.writeByteWithCrc8 (c : Config) (v crc : Byte) (e : Engine) : Byte × Engine :=
  let w := e.writeByte c v
  if w.error then (crc, w) else (crc8Update crc v, w)

/-- Poll (R190). A bound of 0 is no poll of the spec (R190 d). -/
def execPoll (level : Bit) (n : Nat) (s : State) : Host.Outcome State Fault Refusal :=
  if n = 0 then .refused .zeroPollBound
  else .next (s.onEngine fun _ e => (e.poll level n).2.give (.polled (e.poll level n).1))

/-- Delay (R191). -/
def execDelay (d : DelayName) (s : State) : Host.Outcome State Fault Refusal :=
  .next (s.onEngine fun _ e => e.delay d)

/-- read_bit (R195). -/
def execReadBit (s : State) : Host.Outcome State Fault Refusal :=
  .next (s.onEngine fun c e => (e.readBit c).2.give (.bit (e.readBit c).1))

/-- write_bit (R198). -/
def execWriteBit (b : Bit) (s : State) : Host.Outcome State Fault Refusal :=
  .next (s.onEngine fun c e => e.writeBit c b)

/-- read_byte (R200). -/
def execReadByte (s : State) : Host.Outcome State Fault Refusal :=
  .next (s.onEngine fun c e => (e.readByte c).2.give (.byte (e.readByte c).1))

/-- write_byte (R202). -/
def execWriteByte (v : Byte) (s : State) : Host.Outcome State Fault Refusal :=
  .next (s.onEngine fun c e => e.writeByte c v)

/-- write_byte_with_crc8 (R204). -/
def execWriteByteWithCrc8 (v crc : Byte) (s : State) : Host.Outcome State Fault Refusal :=
  .next (s.onEngine fun c e => (e.writeByteWithCrc8 c v crc).2.give (.byte (e.writeByteWithCrc8 c v crc).1))

end Sys2Proof.Machine
end

