-- ==== Sys2Proof/Machine/Flags.lean ====
section
/-! DEFINITION. The encodings of `stage` (10_state.md R32), of the packed flags (R34) and of the deadline sites
(60_exceptions.md R300), and the host's writes to the flags (44_host_interface.md R281 to R285). -/

namespace Sys2Proof.Machine

/-- The number of a stage (R32). -/
def Stage.code : Stage → BitVec 3
  | .idle => 0#3
  | .waitingResetMin => 1#3
  | .waitingResetMax => 2#3
  | .presencePulseOn => 3#3
  | .waitingFirstSignal => 4#3
  | .unused5 => 5#3
  | .unused6 => 6#3
  | .unused7 => 7#3

/-- The stage of a number (R32, R33). -/
def Stage.ofCode (v : BitVec 3) : Stage :=
  if v = 0#3 then .idle
  else if v = 1#3 then .waitingResetMin
  else if v = 2#3 then .waitingResetMax
  else if v = 3#3 then .presencePulseOn
  else if v = 4#3 then .waitingFirstSignal
  else if v = 5#3 then .unused5
  else if v = 6#3 then .unused6
  else .unused7

/-- The three values no rule writes (R33). -/
def Stage.isUnused : Stage → Bool
  | .unused5 | .unused6 | .unused7 => true
  | .idle | .waitingResetMin | .waitingResetMax | .presencePulseOn | .waitingFirstSignal => false

/-- The packed `flags` register of R34: bit 0 `ignore_one_change`, bit 1 `alarm`, bit 2 `error`, bit 3
`slot_started`. -/
def Engine.flags (e : Engine) : BitVec 4 :=
  (BitVec.ofBool e.slotStarted ++ BitVec.ofBool e.error) ++ (BitVec.ofBool e.alarm ++ BitVec.ofBool e.ignoreOneChange)

/-- The code of a deadline site (60_exceptions.md R300). -/
def FaultSite.code : FaultSite → Nat
  | .rdStart => 1
  | .rdRelease => 2
  | .wrStart => 3
  | .wrRelease => 4
  | .presenceRelease => 5

/-- `alarm <- b` (44_host_interface.md R281, R282). -/
def Engine.setAlarm (b : Bit) (e : Engine) : Engine := { e with alarm := b }

/-- `error <- b`, from the host (R284, R285). -/
def Engine.setError (b : Bit) (e : Engine) : Engine := { e with error := b }

/-- `return error` (R283). -/
def Engine.giveError (e : Engine) : Engine := e.give (.bit e.error)

end Sys2Proof.Machine
end

