-- ==== Sys2Proof/Machine/HostInterface.lean ====
section
/-! DEFINITION. The host operations and the application callback (44_host_interface.md, 70_reset_and_hazards.md R340). -/

namespace Sys2Proof.Machine

/-- `init()` (R340). DESIGN CHOICE (log 3): R49 leaves `fs_count` and `timer.count` unspecified; they keep what they
held. -/
def Engine.init (e : Engine) : Engine :=
  { ((e.setPort false).drive false).timerCancel with
    stage := .idle, ignoreOneChange := false, alarm := false, error := false, slotStarted := false,
    started := true }

/-- One framing operation of the callback: performed only when `CALLBACK_IO` = true (R291). -/
def Engine.framing (c : Config) (f : Engine → Engine) (e : Engine) : Engine := if c.callbackIo then f e else e

/-- One action of the callback (R290, R291). -/
def Engine.callbackOp (c : Config) (e : Engine) : CallbackOp → Engine
  | .setAlarmOn => e.setAlarm true
  | .setAlarmOff => e.setAlarm false
  | .isError => e.giveError
  | .setErrorOn => e.setError true
  | .setErrorOff => e.setError false
  | .readBit => e.framing c fun e => (e.readBit c).2.give (.bit (e.readBit c).1)
  | .writeBit b => e.framing c fun e => e.writeBit c b
  | .readByte => e.framing c fun e => (e.readByte c).2.give (.byte (e.readByte c).1)
  | .writeByte v => e.framing c fun e => e.writeByte c v
  | .writeByteWithCrc8 v crc =>
    e.framing c fun e => (e.writeByteWithCrc8 c v crc).2.give (.byte (e.writeByteWithCrc8 c v crc).1)

/-- The actions of one callback, in order. -/
def Engine.runCallback (c : Config) : List CallbackOp → Engine → Engine
  | [], e => e
  | op :: ops, e => Engine.runCallback c ops (e.callbackOp c op)

/-- What the application does this time: the next scripted callback, and a free one when none is left (I16, log 5). -/
def Engine.nextCallback (e : Engine) : List CallbackOp × Engine :=
  match e.callbacks with
  | ops :: rest => (ops, { e with callbacks := rest })
  | [] => (Config.freeCallback e.bus e.freeCallbacks, { e with freeCallbacks := e.freeCallbacks + 1 })

/-- `Callback()` (R290): the CALLBACK entry, then the application's code, inside the running macro-step. -/
def Engine.callback (c : Config) (e : Engine) : Engine :=
  let r := (e.emit .callback).nextCallback
  r.2.runCallback c r.1

/-- init (R340, R343). -/
def execInit (s : State) : Host.Outcome State Fault Refusal := .next (s.onEngine fun _ e => e.init)

/-- set_alarm_on (R281). -/
def execSetAlarmOn (s : State) : Host.Outcome State Fault Refusal := .next (s.onEngine fun _ e => e.setAlarm true)

/-- set_alarm_off (R282). -/
def execSetAlarmOff (s : State) : Host.Outcome State Fault Refusal := .next (s.onEngine fun _ e => e.setAlarm false)

/-- is_error (R283). -/
def execIsError (s : State) : Host.Outcome State Fault Refusal := .next (s.onEngine fun _ e => e.giveError)

/-- set_error_on (R284). -/
def execSetErrorOn (s : State) : Host.Outcome State Fault Refusal := .next (s.onEngine fun _ e => e.setError true)

/-- set_error_off (R285). -/
def execSetErrorOff (s : State) : Host.Outcome State Fault Refusal := .next (s.onEngine fun _ e => e.setError false)

/-- CALLBACK (R290). -/
def execCallback (s : State) : Host.Outcome State Fault Refusal := .next (s.onEngine fun c e => e.callback c)

end Sys2Proof.Machine
end

