-- ==== Sys2Proof/Machine/RomCommands.lean ====
section
/-! DEFINITION. The ROM command interpreter (42_rom_commands.md): one operation per command byte, and their rows of the
opcode table. A row is run as the interpreter runs it, after the command byte has been received without error. -/

namespace Sys2Proof.Machine

/-- One SEARCH triple for the identifier bit `b`: send `b`, send its complement, read the selection (R231). -/
def Engine.searchTriple (c : Config) (b : Bit) (e : Engine) : Bit × Engine :=
  ((e.writeBit c b).writeBit c (!b)).readBit c

/-- SEARCH for the `n` identifier bits from bit `k` on: an I/O error or a disagreeing selection ends it (R231). The two
nested loops of R231 run over the bit index `k = 8 * byte + bit` (R231 d, 20_memory.md R77). -/
def Engine.searchFrom (c : Config) : Nat → Nat → Engine → Engine
  | 0, _, e => e
  | n + 1, k, e =>
    let r := e.searchTriple c (idBit e.store k)
    if r.2.error then r.2
    else if r.1 ≠ idBit e.store k then r.2
    else Engine.searchFrom c n (k + 1) r.2

/-- `Search()` (R231). -/
def Engine.search (c : Config) (e : Engine) : Engine := e.searchFrom c 64 0

/-- `Ignore()` (R236). -/
def Engine.ignore (e : Engine) : Engine := e

/-- `AlarmSearch()`: `alarm` is read once (R232). -/
def Engine.alarmSearch (c : Config) (e : Engine) : Engine := if e.alarm then e.search c else e.ignore

/-- READ for the `n` identifier bytes from byte `k` on (R233): sent as stored, never checked (R238). -/
def Engine.readRomFrom (c : Config) : Nat → Nat → Engine → Engine
  | 0, _, e => e
  | n + 1, k, e =>
    let w := e.writeByte c (idByte e.store k)
    if w.error then w else Engine.readRomFrom c n (k + 1) w

/-- `ReadRom()` (R233). -/
def Engine.readRom (c : Config) (e : Engine) : Engine := e.readRomFrom c 8 0

/-- MATCH for the `n` identifier bytes from byte `k` on: compared as they arrive, the callback after the last
(R234). -/
def Engine.matchRomFrom (c : Config) : Nat → Nat → Engine → Engine
  | 0, _, e => e.callback c
  | n + 1, k, e =>
    let r := e.readByte c
    if r.2.error then r.2
    else if r.1 ≠ idByte e.store k then r.2
    else Engine.matchRomFrom c n (k + 1) r.2

/-- `MatchRom()` (R234). -/
def Engine.matchRom (c : Config) (e : Engine) : Engine := e.matchRomFrom c 8 0

/-- `SkipRom()` (R235). -/
def Engine.skipRom (c : Config) (e : Engine) : Engine := e.callback c

/-- `Dispatch(cmd)` (R230). -/
def Engine.dispatch (c : Config) (cmd : Byte) (e : Engine) : Engine :=
  match decodeCommand cmd with
  | .search => e.search c
  | .alarmSearch => e.alarmSearch c
  | .readRom => e.readRom c
  | .matchRom => e.matchRom c
  | .skip => e.skipRom c
  | .ignored _ => e.ignore

/-- SEARCH (R231). -/
def execSearch (s : State) : Host.Outcome State Fault Refusal := .next (s.onEngine fun c e => e.search c)

/-- ALARM_SEARCH (R232). -/
def execAlarmSearch (s : State) : Host.Outcome State Fault Refusal := .next (s.onEngine fun c e => e.alarmSearch c)

/-- READ (R233). -/
def execReadRom (s : State) : Host.Outcome State Fault Refusal := .next (s.onEngine fun c e => e.readRom c)

/-- MATCH (R234). -/
def execMatchRom (s : State) : Host.Outcome State Fault Refusal := .next (s.onEngine fun c e => e.matchRom c)

/-- SKIP (R235). -/
def execSkip (s : State) : Host.Outcome State Fault Refusal := .next (s.onEngine fun c e => e.skipRom c)

/-- IGNORED (R236): the byte has no effect, whichever it is. -/
def execIgnored (_c : Byte) (s : State) : Host.Outcome State Fault Refusal := .next (s.onEngine fun _ e => e.ignore)

end Sys2Proof.Machine
end

