-- ==== Sys2Proof/Machine/BusStateMachine.lean ====
section
/-! DEFINITION. The bus state machine (40_bus_state_machine.md): one operation per (stage, event) pair, the soft-timer
tick, the frame handler, and their rows of the opcode table. -/

namespace Sys2Proof.Machine

/-- `stage <- st`. -/
def Engine.goto (st : Stage) (e : Engine) : Engine := { e with stage := st }

/-- `PIN` in IDLE (R146). -/
def Engine.pinIdle (c : Config) (e : Engine) : Engine :=
  let p := e.pin
  if p.1 then p.2 else (p.2.timerSet c c.ticksResetMin).goto .waitingResetMin

/-- `PIN` in WAITING_RESET_MIN (R147). -/
def Engine.pinResetMin (e : Engine) : Engine :=
  let p := e.pin
  if p.1 then p.2.timerCancel.goto .idle else p.2

/-- `PIN` in WAITING_RESET_MAX (R150). -/
def Engine.pinResetMax (c : Config) (e : Engine) : Engine :=
  let p := e.pin
  if p.1 then (((p.2.delay .presenceDelay).drive true).timerSet c c.ticksPresence).goto .presencePulseOn
  else p.2.timerCancel.goto .idle

/-- `PIN` in PRESENCE_PULSE_ON: ignored, no sample (R151). -/
def Engine.pinPresence (e : Engine) : Engine := e

/-- `PIN` in WAITING_FIRST_SIGNAL with `ignore_one_change` = 1: the one spurious edge (R155). -/
def Engine.pinFirstSignalIgnored (e : Engine) : Engine := { e with ignoreOneChange := false }

/-- `Frame()`: the command byte, then its command unless a deadline was missed (R160). -/
def Engine.frame (c : Config) (e : Engine) : Engine :=
  let r := e.readByte c
  if r.2.error then r.2 else r.2.dispatch c r.1

/-- `PIN` in WAITING_FIRST_SIGNAL with `ignore_one_change` = 0: a whole frame (R156). DESIGN CHOICE (log 3): R35 leaves
`fs_count` unspecified from here on; it keeps the rounds that remained. -/
def Engine.pinFirstSignalFrame (c : Config) (e : Engine) : Engine :=
  ({ e.timerCancel.goto .idle with slotStarted := true }.frame c).endFrame

/-- Timer expiry in IDLE: no operation (R145). -/
def Engine.expiryIdle (e : Engine) : Engine := e

/-- Timer expiry in WAITING_RESET_MIN (R148). -/
def Engine.expiryResetMin (c : Config) (e : Engine) : Engine :=
  (e.timerSet c c.ticksResetWindow).goto .waitingResetMax

/-- Timer expiry in WAITING_RESET_MAX: no operation (R149). -/
def Engine.expiryResetMax (e : Engine) : Engine := e

/-- Timer expiry in PRESENCE_PULSE_ON: release, then the release poll, whatever `error` holds (R153). -/
def Engine.expiryPresence (c : Config) (e : Engine) : Engine :=
  let p := (e.drive false).poll true c.nPresenceRelease
  if p.1 then
    { p.2.timerSet c c.ticksFsRetry with
      ignoreOneChange := true, fsCount := fit c.fsCountBits c.nFirstSignal, stage := .waitingFirstSignal }
  else p.2.shortCircuit

/-- Timer expiry in WAITING_FIRST_SIGNAL: decrement, then test (R158). DESIGN CHOICE (log 3): after the give-up R35
leaves `fs_count` unspecified; it keeps the 0 just written. -/
def Engine.expiryFirstSignal (c : Config) (e : Engine) : Engine :=
  let n := decr c.fsCountBits e.fsCount
  if n = 0 then { e with fsCount := n, ignoreOneChange := false, stage := .idle }
  else { e with fsCount := n }.timerSet c c.ticksFsRetry

/-- `OnTimerExpiry()`: the rule of the current stage (R144). A tick in an unused stage has faulted before it gets here
(R159), so the last line is not reached. -/
def Engine.onTimerExpiry (c : Config) (e : Engine) : Engine :=
  match e.stage with
  | .idle => e.expiryIdle
  | .waitingResetMin => e.expiryResetMin c
  | .waitingResetMax => e.expiryResetMax
  | .presencePulseOn => e.expiryPresence c
  | .waitingFirstSignal => e.expiryFirstSignal c
  | .unused5 | .unused6 | .unused7 => e

/-- `SoftTimerTick()` (R143): disarmed before the expiry handler runs, so that the handler may arm it again. DESIGN
CHOICE (log 3): while it stays disarmed R43 leaves `timer.count` unspecified; it keeps the 0 just written. -/
def Engine.softTimerTick (c : Config) (e : Engine) : Engine :=
  if e.timerArmed then
    let n := decr c.timerCountBits e.timerCount
    if n = 0 then Engine.onTimerExpiry c { e with timerCount := n, timerArmed := false }
    else { e with timerCount := n }
  else e

/-- TICK (R143); in stages 5 to 7 any event faults (R33, R159). -/
def execTick (s : State) : Host.Outcome State Fault Refusal :=
  if s.engine.stage.isUnused then .fault .badStage else .next (s.onEngine fun c e => e.softTimerTick c)

/-- PIN@IDLE (R146). -/
def execPinIdle (s : State) : Host.Outcome State Fault Refusal := .next (s.onEngine fun c e => e.pinIdle c)

/-- PIN@WAITING_RESET_MIN (R147). -/
def execPinResetMin (s : State) : Host.Outcome State Fault Refusal := .next (s.onEngine fun _ e => e.pinResetMin)

/-- PIN@WAITING_RESET_MAX (R150). -/
def execPinResetMax (s : State) : Host.Outcome State Fault Refusal := .next (s.onEngine fun c e => e.pinResetMax c)

/-- PIN@PRESENCE_PULSE_ON (R151). -/
def execPinPresence (s : State) : Host.Outcome State Fault Refusal := .next (s.onEngine fun _ e => e.pinPresence)

/-- PIN@WAITING_FIRST_SIGNAL/ignore=1 (R155). -/
def execPinFirstSignalIgnored (s : State) : Host.Outcome State Fault Refusal :=
  .next (s.onEngine fun _ e => e.pinFirstSignalIgnored)

/-- PIN@WAITING_FIRST_SIGNAL/ignore=0 (R156). -/
def execPinFirstSignalFrame (s : State) : Host.Outcome State Fault Refusal :=
  .next (s.onEngine fun c e => e.pinFirstSignalFrame c)

/-- EXPIRY@IDLE (R145). -/
def execExpiryIdle (s : State) : Host.Outcome State Fault Refusal := .next (s.onEngine fun _ e => e.expiryIdle)

/-- EXPIRY@WAITING_RESET_MIN (R148). -/
def execExpiryResetMin (s : State) : Host.Outcome State Fault Refusal :=
  .next (s.onEngine fun c e => e.expiryResetMin c)

/-- EXPIRY@WAITING_RESET_MAX (R149). -/
def execExpiryResetMax (s : State) : Host.Outcome State Fault Refusal :=
  .next (s.onEngine fun _ e => e.expiryResetMax)

/-- EXPIRY@PRESENCE_PULSE_ON (R153). -/
def execExpiryPresence (s : State) : Host.Outcome State Fault Refusal :=
  .next (s.onEngine fun c e => e.expiryPresence c)

/-- EXPIRY@WAITING_FIRST_SIGNAL (R158). -/
def execExpiryFirstSignal (s : State) : Host.Outcome State Fault Refusal :=
  .next (s.onEngine fun c e => e.expiryFirstSignal c)

/-- EVENT@stage_5_6_7 (R159): the model faults and takes no step. -/
def execEventBadStage (_s : State) : Host.Outcome State Fault Refusal := .fault .badStage

/-- FRAME (R160). -/
def execFrame (s : State) : Host.Outcome State Fault Refusal := .next (s.onEngine fun c e => e.frame c)

end Sys2Proof.Machine
end

