-- ==== Sys2Proof/Machine/Fetch.lean ====
section
/-! DEFINITION. How the next input selects a row of the opcode table (40_bus_state_machine.md R142 to R144), which engine
it is for (60_exceptions.md R330), and how a command byte reaches the engine (30_encoding.md R104, R122). -/

namespace Sys2Proof.Machine

/-- The row a PIN event selects (R144, R155, R156, R159). -/
def pinRow (e : Engine) : Instr :=
  match e.stage with
  | .idle => .pinIdle
  | .waitingResetMin => .pinResetMin
  | .waitingResetMax => .pinResetMax
  | .presencePulseOn => .pinPresence
  | .waitingFirstSignal => if e.ignoreOneChange then .pinFirstSignalIgnored else .pinFirstSignalFrame
  | .unused5 | .unused6 | .unused7 => .eventBadStage

/-- The row a TICK event selects (R143, R159). -/
def tickRow (e : Engine) : Instr := if e.stage.isUnused then .eventBadStage else .tick

/-- The row of a host operation (44_host_interface.md R281 to R286). -/
def HostOp.toInstr : HostOp → Instr
  | .init => .init
  | .setAlarmOn => .setAlarmOn
  | .setAlarmOff => .setAlarmOff
  | .isError => .isError
  | .setErrorOn => .setErrorOn
  | .setErrorOff => .setErrorOff

/-- The first `init()` of an engine. The state before it is unspecified, `stage` included (R341, I12), so there is no
stage for it to find (log 12). -/
def firstInit (op : HostOp) (e : Engine) : Bool := decide (op = .init) && !e.started

/-- The row a host operation selects. It is a macro-step (R140, R280), so it too faults in stages 5 to 7 (R33, D2),
the first `init()` aside. -/
def hostRow (op : HostOp) (e : Engine) : Instr :=
  if e.stage.isUnused && !firstInit op e then .eventBadStage else op.toInstr

/-- The row of an input. -/
def rowOf (i : Input) (e : Engine) : Instr :=
  match i with
  | .pin => pinRow e
  | .tick => tickRow e
  | .host op => hostRow op e

/-- PIN and TICK are events; a host operation is none (R142). -/
def Input.isEvent : Input → Bool
  | .pin | .tick => true
  | .host _ => false

/-- Take the engine of a bus out of a list of engines. -/
def takeBus (bus : Nat) : List Engine → Option (Engine × List Engine)
  | [] => none
  | e :: es =>
    if e.bus = bus then some (e, es)
    else
      match takeBus bus es with
      | some (f, fs) => some (f, e :: fs)
      | none => none

/-- Make the engine of a bus the one whose macro-step runs; the one before it is parked, unchanged (R330, log 8). -/
def State.focus (bus : Nat) (s : State) : Option State :=
  if s.engine.bus = bus then some s
  else
    match takeBus bus s.parked with
    | some (e, es) => some { s with engine := e, parked := s.engine :: es }
    | none => none

/-- The draws of one read bit, when the environment meets each poll's condition at the first sample: the slot-start
sample (not in the first slot of a frame), the data sample, the release sample of a 0 (R122). -/
def readBitDraws (first b : Bit) : List Bit :=
  (if first then [] else [false]) ++ (if b then [true] else [false, true])

/-- The draws of bits the master writes one after another; `first`: the first slot began with the frame's PIN. -/
def bitsDraws : Bit → List Bit → List Bit
  | _, [] => []
  | first, b :: bs => readBitDraws first b ++ bitsDraws false bs

/-- The draws of a byte the master writes (R104, R122). -/
def byteDraws (first : Bit) (v : Byte) : List Bit := bitsDraws first (byteSlots v)

/-- The draws of a command byte, `CMD(x)` of 95_test_vectors.md section 0. -/
def commandDraws (cmd : Byte) : List Bit := byteDraws true cmd

/-- Set an engine up so that the next PIN starts a frame whose command byte is `cmd`: it waits for the first data slot,
no edge is to be ignored, no error is pending, and the line carries the byte's slots (R155, R156, R160). -/
def Engine.withCommand (cmd : Byte) (e : Engine) : Engine :=
  { e with
    stage := .waitingFirstSignal, ignoreOneChange := false, error := false, started := true,
    draws := commandDraws cmd ++ e.draws }

end Sys2Proof.Machine
end

