-- ==== Sys2Proof/Machine/Dispatch.lean ====
section
/-! DEFINITION. One arm per constructor of `Instr`: which meaning runs. -/

namespace Sys2Proof.Machine

/-- The effect of one row of the opcode table on the machine. -/
def exec (i : Instr) (s : State) : Host.Outcome State Fault Refusal :=
  match i with
  -- ROM commands
  | .search => Sys2Proof.Machine.execSearch s
  | .alarmSearch => Sys2Proof.Machine.execAlarmSearch s
  | .readRom => Sys2Proof.Machine.execReadRom s
  | .matchRom => Sys2Proof.Machine.execMatchRom s
  | .skip => Sys2Proof.Machine.execSkip s
  | .ignored c => Sys2Proof.Machine.execIgnored c s
  -- events
  | .tick => Sys2Proof.Machine.execTick s
  | .pinIdle => Sys2Proof.Machine.execPinIdle s
  | .pinResetMin => Sys2Proof.Machine.execPinResetMin s
  | .pinResetMax => Sys2Proof.Machine.execPinResetMax s
  | .pinPresence => Sys2Proof.Machine.execPinPresence s
  | .pinFirstSignalIgnored => Sys2Proof.Machine.execPinFirstSignalIgnored s
  | .pinFirstSignalFrame => Sys2Proof.Machine.execPinFirstSignalFrame s
  | .expiryIdle => Sys2Proof.Machine.execExpiryIdle s
  | .expiryResetMin => Sys2Proof.Machine.execExpiryResetMin s
  | .expiryResetMax => Sys2Proof.Machine.execExpiryResetMax s
  | .expiryPresence => Sys2Proof.Machine.execExpiryPresence s
  | .expiryFirstSignal => Sys2Proof.Machine.execExpiryFirstSignal s
  | .eventBadStage => Sys2Proof.Machine.execEventBadStage s
  -- internal operations
  | .frame => Sys2Proof.Machine.execFrame s
  | .poll level n => Sys2Proof.Machine.execPoll level n s
  | .delay d => Sys2Proof.Machine.execDelay d s
  | .readBit => Sys2Proof.Machine.execReadBit s
  | .writeBit b => Sys2Proof.Machine.execWriteBit b s
  | .readByte => Sys2Proof.Machine.execReadByte s
  | .writeByte v => Sys2Proof.Machine.execWriteByte v s
  | .writeByteWithCrc8 v crc => Sys2Proof.Machine.execWriteByteWithCrc8 v crc s
  | .crc8Update crc v => Sys2Proof.Machine.execCrc8Update crc v s
  -- host operations
  | .init => Sys2Proof.Machine.execInit s
  | .setAlarmOn => Sys2Proof.Machine.execSetAlarmOn s
  | .setAlarmOff => Sys2Proof.Machine.execSetAlarmOff s
  | .isError => Sys2Proof.Machine.execIsError s
  | .setErrorOn => Sys2Proof.Machine.execSetErrorOn s
  | .setErrorOff => Sys2Proof.Machine.execSetErrorOff s
  -- output
  | .callback => Sys2Proof.Machine.execCallback s

end Sys2Proof.Machine
end

