-- ==== Sys2Proof/Machine/Step.lean ====
section
/-! DEFINITION. One step: one macro-step (40_bus_state_machine.md R140), from the next input to its end. -/

namespace Sys2Proof.Machine

/-- Process one input on the engine that now has the focus: an event before `init()` is refused (R341), otherwise the
selected row runs (R144). -/
def deliver (i : Input) (s : State) : Host.Outcome State Fault Refusal :=
  if i.isEvent && !s.engine.started then .refused .eventBeforeInit else exec (rowOf i s.engine) s

/-- One macro-step. An invalid configuration is refused (00_scope.md R10). With no input the block waits
(20_memory.md R81). Otherwise the oldest input is taken, its engine gets the focus, and the input is processed. -/
def step (s : State) : Host.Outcome State Fault Refusal :=
  if configValid s.config then
    match s.inputs with
    | [] => .next s
    | d :: rest =>
      match State.focus d.bus { s with inputs := rest } with
      | some t => deliver d.input t
      | none => .refused .noSuchEngine
  else .refused .invalidConfiguration

/-- A state whose very next step runs the frame of the command byte `w`: the engine waits for the first data slot, a PIN
event is next, and the line carries the byte (log 10). -/
def State.withFetchWord (s : State) (nbits w : Nat) : State :=
  { s with
    engine := s.engine.withCommand (BitVec.ofNat 8 (w % 2 ^ nbits))
    inputs := { bus := s.engine.bus, input := .pin } :: s.inputs }

end Sys2Proof.Machine
end

