-- ==== Sys2Proof/Safety.lean ====
section
/-! DEFINITION. The terms claims are stated in: the invariants of a run (10_state.md R50 and what they rest on), the
engine of a bus, counts over the trace, and the draws and traces of well-behaved slots (30_encoding.md R122,
95_test_vectors.md section 0). -/

namespace Sys2Proof.Machine

/-! ### Invariants -/

/-- What holds of an engine between macro-steps once `init()` has run. Fields `slot`, `ignore`, `line` and `timer` are
invariants 1 to 4 of R50; the others are what the transitions keep besides. -/
structure Engine.Inv (c : Config) (e : Engine) : Prop where
  slot : e.slotStarted = false
  ignore : e.ignoreOneChange = true → e.stage = .waitingFirstSignal
  line : e.lineDdr = true ↔ e.stage = .presencePulseOn
  timer : e.timerArmed = true → e.stage ≠ .idle
  /-- stages 5 to 7 do not occur (R33) -/
  legal : e.stage.isUnused = false
  /-- `line.port` stays 0 (R342) -/
  port : e.linePort = false
  /-- the stages that only a tick or an edge leaves have a countdown running (R162) -/
  armed : e.stage = .waitingResetMin ∨ e.stage = .presencePulseOn ∨ e.stage = .waitingFirstSignal →
    e.timerArmed = true
  /-- an armed countdown is at least 1 (R143) -/
  counting : e.timerArmed = true → 1 ≤ e.timerCount
  /-- the countdown started at the value of its stage -/
  resetMinCount : e.stage = .waitingResetMin → e.timerCount ≤ c.ticksResetMin
  presenceCount : e.stage = .presencePulseOn → e.timerCount ≤ c.ticksPresence
  retryCount : e.stage = .waitingFirstSignal → e.timerCount ≤ c.ticksFsRetry
  /-- `fs_count` is at least 1 in WAITING_FIRST_SIGNAL (R158 b) -/
  rounds : e.stage = .waitingFirstSignal → 1 ≤ e.fsCount ∧ e.fsCount ≤ c.nFirstSignal

/-- What holds of every engine, `init()` or not: the registers fit their widths (R30) and the identifier store is in
its canonical form. -/
structure Engine.Fits (c : Config) (e : Engine) : Prop where
  fsCount : e.fsCount < 2 ^ c.fsCountBits
  timerCount : e.timerCount < 2 ^ c.timerCountBits
  store : Memory.wf e.store = true

/-- What holds of the machine between macro-steps. -/
structure State.Inv (s : State) : Prop where
  /-- the configuration is valid (00_scope.md R10) -/
  config : configValid s.config = true
  fits : ∀ e ∈ s.engine :: s.parked, e.Fits s.config
  engines : ∀ e ∈ s.engine :: s.parked, e.started = true → e.Inv s.config
  /-- one engine per bus (R52) -/
  buses : ((s.engine :: s.parked).map Engine.bus).Nodup
  /-- `NUM_INSTANCES` engines (R330) -/
  count : (s.engine :: s.parked).length = s.config.numInstances

/-! ### Looking at a state -/

/-- The row a timer expiry selects (40_bus_state_machine.md R144). -/
def expiryRow : Stage → Instr
  | .idle => .expiryIdle
  | .waitingResetMin => .expiryResetMin
  | .waitingResetMax => .expiryResetMax
  | .presencePulseOn => .expiryPresence
  | .waitingFirstSignal => .expiryFirstSignal
  | .unused5 | .unused6 | .unused7 => .eventBadStage

/-- The rows that work on `stage`, `ignore_one_change`, `fs_count`, the timer or `line.port`: the events and `init()`
(10_state.md R30, R31). -/
def isStageRow : Instr → Bool
  | .tick | .pinIdle | .pinResetMin | .pinResetMax | .pinPresence | .pinFirstSignalIgnored | .pinFirstSignalFrame
  | .expiryIdle | .expiryResetMin | .expiryResetMax | .expiryPresence | .expiryFirstSignal | .eventBadStage
  | .init => true
  | .search | .alarmSearch | .readRom | .matchRom | .skip | .ignored _ | .frame | .poll _ _ | .delay _ | .readBit
  | .writeBit _ | .readByte | .writeByte _ | .writeByteWithCrc8 _ _ | .crc8Update _ _ | .setAlarmOn | .setAlarmOff
  | .isError | .setErrorOn | .setErrorOff | .callback => false

/-- The rows that may read `alarm`: ALARM_SEARCH, and those that may dispatch it (42_rom_commands.md R232). -/
def mayReadAlarm : Instr → Bool
  | .alarmSearch | .frame | .pinFirstSignalFrame => true
  | .search | .readRom | .matchRom | .skip | .ignored _ | .tick | .pinIdle | .pinResetMin | .pinResetMax
  | .pinPresence | .pinFirstSignalIgnored | .expiryIdle | .expiryResetMin | .expiryResetMax | .expiryPresence
  | .expiryFirstSignal | .eventBadStage | .poll _ _ | .delay _ | .readBit | .writeBit _ | .readByte | .writeByte _
  | .writeByteWithCrc8 _ _ | .crc8Update _ _ | .init | .setAlarmOn | .setAlarmOff | .isError | .setErrorOn
  | .setErrorOff | .callback => false

/-- The rows that may run the application callback: SKIP, MATCH, the callback itself, and the rows that may dispatch one
of them (42_rom_commands.md R234, R235). -/
def mayRunCallback : Instr → Bool
  | .matchRom | .skip | .frame | .pinFirstSignalFrame | .callback => true
  | .search | .alarmSearch | .readRom | .ignored _ | .tick | .pinIdle | .pinResetMin | .pinResetMax | .pinPresence
  | .pinFirstSignalIgnored | .expiryIdle | .expiryResetMin | .expiryResetMax | .expiryPresence | .expiryFirstSignal
  | .eventBadStage | .poll _ _ | .delay _ | .readBit | .writeBit _ | .readByte | .writeByte _ | .writeByteWithCrc8 _ _
  | .crc8Update _ _ | .init | .setAlarmOn | .setAlarmOff | .isError | .setErrorOn | .setErrorOff => false

/-- The same state with another `alarm`. -/
def State.withAlarm (a : Bit) (s : State) : State := { s with engine := { s.engine with alarm := a } }

/-- The engine bound to a bus. -/
def State.engineOf (bus : Nat) (s : State) : Option Engine :=
  (s.engine :: s.parked).find? fun e => e.bus == bus

/-- A `SAMPLE` entry. -/
def TraceEntry.isSample : TraceEntry → Bool
  | .sample _ => true
  | .drive _ | .port _ | .tset _ | .tcancel | .delay _ | .callback | .fault _ => false

/-- A `FAULT` entry. -/
def TraceEntry.isFault : TraceEntry → Bool
  | .fault _ => true
  | .sample _ | .drive _ | .port _ | .tset _ | .tcancel | .delay _ | .callback => false

/-- A `CALLBACK` entry. -/
def TraceEntry.isCallback : TraceEntry → Bool
  | .callback => true
  | .sample _ | .drive _ | .port _ | .tset _ | .tcancel | .delay _ | .fault _ => false

/-- A `DRIVE(1)` entry. -/
def TraceEntry.isSink : TraceEntry → Bool
  | .drive b => b
  | .sample _ | .port _ | .tset _ | .tcancel | .delay _ | .callback | .fault _ => false

/-- A trace after more entries, given oldest first. -/
def seen (entries old : List TraceEntry) : List TraceEntry := entries.reverse ++ old

/-- How many entries of a kind a trace holds. -/
def countOf (p : TraceEntry → Bool) (tr : List TraceEntry) : Nat := tr.countP p

/-- How many samples a piece of trace (newest entry first) holds before its first callback; all of them where it holds
no callback. The callback is the last thing a command does, so these are the samples outside it. -/
def samplesBeforeCallback (tr : List TraceEntry) : Nat :=
  countOf TraceEntry.isSample (tr.reverse.takeWhile fun t => !t.isCallback)

/-- Whether the line is sunk after a piece of trace (newest entry first), from what it was before it. -/
def sunkAfter (before : Bit) : List TraceEntry → Bit
  | [] => before
  | .drive b :: _ => b
  | .sample _ :: tr | .port _ :: tr | .tset _ :: tr | .tcancel :: tr | .delay _ :: tr | .callback :: tr
  | .fault _ :: tr => sunkAfter before tr

/-- No `SAMPLE` of a piece of trace (newest entry first) happens while the line is sunk (20_memory.md R83). -/
def samplesOnlyReleased (before : Bit) : List TraceEntry → Bool
  | [] => true
  | .sample _ :: tr => !(sunkAfter before tr) && samplesOnlyReleased before tr
  | .drive _ :: tr | .port _ :: tr | .tset _ :: tr | .tcancel :: tr | .delay _ :: tr | .callback :: tr
  | .fault _ :: tr => samplesOnlyReleased before tr

/-! ### Draws and traces of well-behaved slots, oldest first -/

/-- `R1(b)` or `R(b)`: the trace of a read bit. -/
def readBitTrace (first b : Bit) : List TraceEntry :=
  (if first then [] else [.sample false]) ++ .delay .sample ::
    (if b then [.sample true] else [.sample false, .sample true])

/-- The trace of read bits one after another. -/
def bitsTrace : Bit → List Bit → List TraceEntry
  | _, [] => []
  | first, b :: bs => readBitTrace first b ++ bitsTrace false bs

/-- `CMD(v)` or `RB(v)`: the trace of a read byte. -/
def byteTrace (first : Bit) (v : Byte) : List TraceEntry := bitsTrace first (byteSlots v)

/-- `W(b)`: the trace of a written bit. -/
def writeBitTrace (b : Bit) : List TraceEntry :=
  .sample false :: (if b then [] else [.drive true]) ++ [.delay .txHold, .drive false, .sample true]

/-- The draws of a written bit: the slot start and the release. -/
def writeBitDraws : List Bit := [false, true]

/-- The trace of written bits. -/
def writtenTrace (bs : List Bit) : List TraceEntry := bs.flatMap writeBitTrace

/-- The draws of written bits. -/
def writtenDraws (bs : List Bit) : List Bit := bs.flatMap fun _ => writeBitDraws

/-- The draws of a slot that misses its deadline at a site: the line never goes low, or it stays low where the release
is awaited. `first`: the slot of a read bit began with the frame's PIN (41_bit_byte_io.md R193, R195, R198). -/
def missDraws (c : Config) (first : Bit) : FaultSite → List Bit
  | .rdStart => List.replicate c.nRdStart true
  | .rdRelease => (if first then [] else [false]) ++ false :: List.replicate c.nRdRelease false
  | .wrStart => List.replicate c.nWrStart true
  | .wrRelease => false :: List.replicate c.nWrRelease false
  | .presenceRelease => List.replicate c.nPresenceRelease false

/-- The trace of a slot that misses its deadline at a site; `sent` is the bit a writing slot sends. -/
def missTrace (c : Config) (first sent : Bit) : FaultSite → List TraceEntry
  | .rdStart => List.replicate c.nRdStart (.sample true) ++ [.fault .rdStart]
  | .rdRelease =>
    (if first then [] else [.sample false]) ++ [.delay .sample, .sample false]
      ++ List.replicate c.nRdRelease (.sample false) ++ [.fault .rdRelease]
  | .wrStart => List.replicate c.nWrStart (.sample true) ++ [.fault .wrStart]
  | .wrRelease =>
    .sample false :: (if sent then [] else [.drive true]) ++ [.delay .txHold, .drive false]
      ++ List.replicate c.nWrRelease (.sample false) ++ [.fault .wrRelease]
  | .presenceRelease =>
    .drive false :: List.replicate c.nPresenceRelease (.sample false) ++ [.fault .presenceRelease]

/-- The draws of SEARCH triples: two written bits, then the master's selection. -/
def searchDraws (sels : List Bit) : List Bit :=
  sels.flatMap fun sel => writeBitDraws ++ writeBitDraws ++ readBitDraws false sel

/-- The trace of SEARCH triples, each given by the device's bit and the master's selection. -/
def searchTrace (bits : List (Bit × Bit)) : List TraceEntry :=
  bits.flatMap fun p => writeBitTrace p.1 ++ writeBitTrace (!p.1) ++ readBitTrace false p.2

/-- The draws of whole bytes the master writes after the command byte. -/
def bytesDraws (vs : List Byte) : List Bit := vs.flatMap (byteDraws false)

/-- The trace of whole bytes the master writes after the command byte. -/
def bytesTrace (vs : List Byte) : List TraceEntry := vs.flatMap (byteTrace false)

/-- The first `n` identifier bits, `id_0` first (20_memory.md R77). -/
def idBits (m : Memory) (n : Nat) : List Bit := (List.range n).map (idBit m)

/-! ### Rows run one after another -/

/-- Send bits one after another, each as the row `write_bit`, and stop once `error` is set (41_bit_byte_io.md R202). -/
def sendBits : List Bit → State → Host.Outcome State Fault Refusal
  | [], s => .next s
  | b :: bs, s =>
    match exec (.writeBit b) s with
    | .next t => if t.engine.error then .next t else sendBits bs t
    | .fault r => .fault r
    | .refused r => .refused r

/-- The row a callback action stands for. -/
def callbackRow : CallbackOp → Instr
  | .setAlarmOn => .setAlarmOn
  | .setAlarmOff => .setAlarmOff
  | .isError => .isError
  | .setErrorOn => .setErrorOn
  | .setErrorOff => .setErrorOff
  | .readBit => .readBit
  | .writeBit b => .writeBit b
  | .readByte => .readByte
  | .writeByte v => .writeByte v
  | .writeByteWithCrc8 v crc => .writeByteWithCrc8 v crc

/-- The framing actions of a callback, those `CALLBACK_IO` admits (44_host_interface.md R291). -/
def isFraming : CallbackOp → Bool
  | .readBit | .writeBit _ | .readByte | .writeByte _ | .writeByteWithCrc8 _ _ => true
  | .setAlarmOn | .setAlarmOff | .isError | .setErrorOn | .setErrorOff => false

/-- Run rows one after another, as `exec` runs them. -/
def runRows : List Instr → State → Host.Outcome State Fault Refusal
  | [], s => .next s
  | i :: is, s =>
    match exec i s with
    | .next t => runRows is t
    | .fault r => .fault r
    | .refused r => .refused r

/-- `n` macro-steps. -/
def runSteps (n : Nat) (s : State) : Host.Outcome State Fault Refusal := core.run n s

/-! ### Sample bounds (40_bus_state_machine.md R163) -/

/-- `RB`: one `read_bit`. -/
def readBitBound (c : Config) : Nat := c.nRdStart + 1 + c.nRdRelease

/-- `RB1`: the first `read_bit` of a frame. -/
def firstBitBound (c : Config) : Nat := 1 + c.nRdRelease

/-- `WB`: one `write_bit`. -/
def writeBitBound (c : Config) : Nat := c.nWrStart + c.nWrRelease

/-- The most samples a SEARCH takes after its command byte; no other command takes more. -/
def searchBound (c : Config) : Nat := 64 * (2 * writeBitBound c + readBitBound c)

/-- The most samples one row takes, the callback's own aside. -/
def sampleBound (c : Config) : Instr → Nat
  | .search | .alarmSearch => searchBound c
  | .readRom => 64 * writeBitBound c
  | .matchRom => 64 * readBitBound c
  | .skip | .ignored _ | .callback => 0
  | .tick | .expiryPresence => c.nPresenceRelease
  | .pinIdle | .pinResetMin | .pinResetMax => 1
  | .pinPresence | .pinFirstSignalIgnored => 0
  | .pinFirstSignalFrame => firstBitBound c + 7 * readBitBound c + searchBound c
  | .expiryIdle | .expiryResetMin | .expiryResetMax | .expiryFirstSignal | .eventBadStage => 0
  | .frame => 8 * readBitBound c + searchBound c
  | .poll _ n => n
  | .delay _ | .crc8Update _ _ => 0
  | .readBit => readBitBound c
  | .writeBit _ => writeBitBound c
  | .readByte => 8 * readBitBound c
  | .writeByte _ | .writeByteWithCrc8 _ _ => 8 * writeBitBound c
  | .init | .setAlarmOn | .setAlarmOff | .isError | .setErrorOn | .setErrorOff => 0

end Sys2Proof.Machine
end

