-- ==== Sys2Proof/Certificates/Slice0/Obligations.lean ====
section
/-! DEFINITION. The statements for the provers. "The model's choice" marks what rests on a decision of the spec itself
(92_eei_decisions.md) or on a log entry. A conclusion `exec i s = .next { s with … }` gives the whole next state: every
register, the identifier store, the configuration, the other engines and the inputs not named in it are unchanged. Of
`fs_count` outside WAITING_FIRST_SIGNAL and of `timer.count` with the timer disarmed the spec says only that they are
unspecified (R35, R43): where a statement says that one of them is unchanged there, or is still the 0 that an expiry
wrote, that is the model's choice (log 3). -/

open Sys2Proof Sys2Proof.Machine

/-! ### Encoding, selection of rows, the step -/

/-- R105, R106: the command bytes written out bit by bit, and their slots on the wire. -/
def Obligations.WrittenCommandWordsDecode : Prop :=
  decodeByte 0b11110000#8 = .search ∧ byteSlots 0b11110000#8 = [false, false, false, false, true, true, true, true] ∧
  decodeByte 0b11101100#8 = .alarmSearch ∧ byteSlots 0b11101100#8 = [false, false, true, true, false, true, true, true] ∧
  decodeByte 0b00110011#8 = .readRom ∧ byteSlots 0b00110011#8 = [true, true, false, false, true, true, false, false] ∧
  decodeByte 0b01010101#8 = .matchRom ∧ byteSlots 0b01010101#8 = [true, false, true, false, true, false, true, false] ∧
  decodeByte 0b11001100#8 = .skip ∧ byteSlots 0b11001100#8 = [false, false, true, true, false, false, true, true] ∧
  decodeByte 0b11001101#8 = .ignored 0b11001101#8

/-- R106, R107, R111: the encoder and the decoder of command bytes agree both ways, and no byte is illegal. -/
def Obligations.EncodedCommandDecodesBack : Prop :=
  (∀ (i : Instr) (b : Byte) (rest : List Byte), WellFormed i = true → encode i = some b →
    decode (b :: rest) = .ok (i, rest)) ∧
  (∀ b : Byte, WellFormed (decodeByte b) = true ∧ encode (decodeByte b) = some b) ∧
  (∀ b : Byte, b ∉ namedCommandBytes → decodeByte b = .ignored b)

/-- R104, R106, R122, R156, R160, R230: from the encoding to the effect. When the line carries the slots of the
command byte of `i`, with every poll met at its first sample, the PIN step that starts the frame runs `i` on the state
after the command byte, and then ends the frame. -/
def Obligations.CommandFrameRunsItsInstruction : Prop :=
  ∀ (i : Instr) (b : Byte) (s : State) (ds : List Bit) (rest : List Delivery),
    WellFormed i = true → encode i = some b → configValid s.config = true → s.engine.started = true →
    s.engine.stage = .waitingFirstSignal → s.engine.ignoreOneChange = false → s.engine.error = false →
    s.engine.draws = byteDraws true b ++ ds → s.inputs = ⟨s.engine.bus, .pin⟩ :: rest →
    ∃ t : State,
      exec i { s with
        inputs := rest
        engine := { s.engine with
          stage := .idle, timerArmed := false, slotStarted := false, draws := ds,
          trace := seen (.tcancel :: byteTrace true b) s.engine.trace } } = .next t ∧
      step s = .next { t with engine := { t.engine with error := false, slotStarted := false } }

/-- The host's placement of a command byte (log 10): the very next step runs exactly its instruction. -/
def Obligations.WithFetchWordRunsTheCommand : Prop :=
  ∀ (b : Byte) (s : State), configValid s.config = true →
    decodeTableWord 8 b.toNat = some (decodeByte b) ∧
    ∃ t : State,
      exec (decodeByte b) { s with
        engine := { s.engine with
          stage := .idle, ignoreOneChange := false, timerArmed := false, error := false, slotStarted := false,
          started := true, trace := seen (.tcancel :: byteTrace true b) s.engine.trace } } = .next t ∧
      step (s.withFetchWord 8 b.toNat) =
        .next { t with engine := { t.engine with error := false, slotStarted := false } }

/-- R140, R142: the step is `exec` of the selected row. The model's choices: the inputs are a list, oldest first, and the
oldest is taken (log 10); the engine of its bus is brought into focus (log 8); an event needs an engine for which
`init()` has run, a host operation does not (log 9). -/
def Obligations.StepRunsTheSelectedRow : Prop :=
  ∀ (s f : State) (d : Delivery) (rest : List Delivery), configValid s.config = true → s.inputs = d :: rest →
    State.focus d.bus { s with inputs := rest } = some f → (d.input.isEvent = true → f.engine.started = true) →
    step s = exec (rowOf d.input f.engine) f

/-- R10, R341, R81 and logs 8, 9, 10 (the model's choices): where a step stops or waits instead of running a row. -/
def Obligations.StepRefusesOrWaits : Prop :=
  (∀ s : State, configValid s.config = false → step s = .refused .invalidConfiguration) ∧
  (∀ s : State, configValid s.config = true → s.inputs = [] → step s = .next s) ∧
  (∀ (s : State) (d : Delivery) (rest : List Delivery), configValid s.config = true → s.inputs = d :: rest →
    (∀ e ∈ s.engine :: s.parked, e.bus ≠ d.bus) → step s = .refused .noSuchEngine) ∧
  (∀ (s f : State) (d : Delivery) (rest : List Delivery), configValid s.config = true → s.inputs = d :: rest →
    State.focus d.bus { s with inputs := rest } = some f → d.input.isEvent = true → f.engine.started = false →
    step s = .refused .eventBeforeInit)

/-- R144: the table of rows by stage. A PIN selects its row; a tick that takes the countdown to 0 runs the expiry row
of the stage, with the timer disarmed before it (R143; disarmed before the handler by the spec's own decision D5). -/
def Obligations.StageSelectsTheRow : Prop :=
  (∀ e : Engine,
    (e.stage = .idle → rowOf .pin e = .pinIdle) ∧
    (e.stage = .waitingResetMin → rowOf .pin e = .pinResetMin) ∧
    (e.stage = .waitingResetMax → rowOf .pin e = .pinResetMax) ∧
    (e.stage = .presencePulseOn → rowOf .pin e = .pinPresence) ∧
    (e.stage = .waitingFirstSignal → e.ignoreOneChange = true → rowOf .pin e = .pinFirstSignalIgnored) ∧
    (e.stage = .waitingFirstSignal → e.ignoreOneChange = false → rowOf .pin e = .pinFirstSignalFrame) ∧
    (e.stage = .unused5 ∨ e.stage = .unused6 ∨ e.stage = .unused7 → rowOf .pin e = .eventBadStage)) ∧
  (∀ s : State, s.engine.timerArmed = true → s.engine.timerCount = 1 →
    exec .tick s = exec (expiryRow s.engine.stage)
      { s with engine := { s.engine with timerArmed := false, timerCount := 0 } })

/-- R33, R159 (the spec's own decision D2): a macro-step that finds stage 5, 6 or 7 is the model fault BAD_STAGE: every
event and every host operation of an initialised engine, and every host operation but `init()` before that. In a legal
stage a host operation runs its row. So does the first `init()` in any stage, since the state before it is unspecified
(R341): that is the model's reading (log 12). -/
def Obligations.BadStageFaults : Prop :=
  (∀ s : State, exec .eventBadStage s = .fault .badStage) ∧
  (∀ s : State, s.engine.stage.isUnused = true → exec .tick s = .fault .badStage) ∧
  (∀ (s : State) (i : Input) (rest : List Delivery), configValid s.config = true → s.engine.started = true →
    s.engine.stage.isUnused = true → s.inputs = ⟨s.engine.bus, i⟩ :: rest → step s = .fault .badStage) ∧
  (∀ (s : State) (op : HostOp) (rest : List Delivery), configValid s.config = true →
    s.engine.stage.isUnused = true → s.inputs = ⟨s.engine.bus, .host op⟩ :: rest → op ≠ .init →
    step s = .fault .badStage) ∧
  (∀ (s : State) (op : HostOp) (rest : List Delivery), configValid s.config = true →
    s.inputs = ⟨s.engine.bus, .host op⟩ :: rest →
    s.engine.stage.isUnused = false ∨ op = .init ∧ s.engine.started = false →
    step s = exec op.toInstr { s with inputs := rest })

/-- Every row but the bad-stage event completes: in a legal stage, a well-formed row answers a next state, and it
leaves the configuration, the other engines, the inputs, the bus number and every byte of the identifier store alone. -/
def Obligations.EveryRowCompletes : Prop :=
  ∀ (i : Instr) (s : State), WellFormed i = true → i ≠ .eventBadStage → s.engine.stage.isUnused = false →
    ∃ t : State, exec i s = .next t ∧ t.config = s.config ∧ t.parked = s.parked ∧ t.inputs = s.inputs ∧
      t.engine.bus = s.engine.bus ∧ ∀ a : Nat, memRead t.engine.store a = memRead s.engine.store a

/-! ### Reset, the host operations, the identifier store -/

/-- R340, R343: `init()` from any state. The spec's own decisions: the flags, the timer and the line (D23), port 0 (D22),
the order of the outputs (D44). The model's choices: `fs_count` and `timer.count`, which R49 calls unspecified, stay as
they were (log 3), and a flag of the engine says that `init()` has run (log 9). -/
def Obligations.InitWritesTheResetValues : Prop :=
  ∀ s : State, exec .init s = .next { s with
    engine := { s.engine with
      stage := .idle, ignoreOneChange := false, alarm := false, error := false, slotStarted := false,
      timerArmed := false, lineDdr := false, linePort := false, started := true,
      trace := [.tcancel, .drive false, .port false] ++ s.engine.trace } }

/-- R281, R282: the alarm operations, in every state. -/
def Obligations.SetAlarmWritesOnlyAlarm : Prop :=
  ∀ s : State,
    exec .setAlarmOn s = .next { s with engine := { s.engine with alarm := true } } ∧
    exec .setAlarmOff s = .next { s with engine := { s.engine with alarm := false } }

/-- R283, R284, R285: the error operations, in every state. -/
def Obligations.ErrorOperationsReadAndWriteError : Prop :=
  ∀ s : State,
    exec .isError s = .next { s with
      engine := { s.engine with returned := .bit s.engine.error :: s.engine.returned } } ∧
    exec .setErrorOn s = .next { s with engine := { s.engine with error := true } } ∧
    exec .setErrorOff s = .next { s with engine := { s.engine with error := false } }

/-- R284 a, R357: `set_error_on` between frames costs the next frame. Its PIN reads nothing and dispatches nothing, and
the flag clears itself. -/
def Obligations.PendingErrorCostsOneFrame : Prop :=
  ∀ (s : State) (rest : List Delivery), configValid s.config = true → s.engine.started = true →
    s.engine.stage = .waitingFirstSignal → s.engine.ignoreOneChange = false → s.engine.error = true →
    s.inputs = ⟨s.engine.bus, .pin⟩ :: rest →
    step s = .next { s with
      inputs := rest
      engine := { s.engine with
        stage := .idle, timerArmed := false, error := false, slotStarted := false,
        trace := .tcancel :: s.engine.trace } }

/-- R75: the store gives back the bytes it was provisioned with, and no row writes it. That a provisioned store is in
the canonical form of a list is the model's choice (log 2), no rule of the spec. -/
def Obligations.IdentifierStoreIsReadOnly : Prop :=
  (∀ (id : List Byte) (a : Nat), id.length = 8 → ∀ h : a < id.length,
    memRead (provision id) a = .ok (id[a]'h) ∧ Memory.wf (provision id) = true) ∧
  (∀ (i : Instr) (s t : State), exec i s = .next t →
    ∀ a : Nat, memRead t.engine.store a = memRead s.engine.store a)

/-- R77, R79 (the model's choice, D17): identifier bit `8 k + j` is bit `j` of byte `k`, and an address outside 0 to 7
is the model fault BAD_ID_ADDRESS. -/
def Obligations.IdentifierBitOrder : Prop :=
  (∀ (id : List Byte) (k j : Nat), id.length = 8 → j < 8 → ∀ h : k < id.length,
    idBit (provision id) (8 * k + j) = (id[k]'h).getLsbD j) ∧
  (∀ (m : Memory) (a : Nat), 8 ≤ a → memRead m a = .error .badIdAddress)

/-- R32, R34, R300 (the model's choice, D2, D3, D38): the numbers of the stages, the bits of the packed flags, the codes
of the deadline sites. -/
def Obligations.NumbersOfStagesFlagsAndSites : Prop :=
  ([Stage.idle, .waitingResetMin, .waitingResetMax, .presencePulseOn, .waitingFirstSignal].map Stage.code
    = [0#3, 1#3, 2#3, 3#3, 4#3]) ∧
  (∀ v : BitVec 3, (Stage.ofCode v).code = v) ∧
  (∀ e : Engine, e.flags.getLsbD 0 = e.ignoreOneChange ∧ e.flags.getLsbD 1 = e.alarm ∧
    e.flags.getLsbD 2 = e.error ∧ e.flags.getLsbD 3 = e.slotStarted) ∧
  ([FaultSite.rdStart, .rdRelease, .wrStart, .wrRelease, .presenceRelease].map FaultSite.code = [1, 2, 3, 4, 5])

/-! ### Bit and byte I/O -/

/-- R190 (sample first, the model's choice D29): a poll stops at the first sample equal to the level, and times out
after `n` samples that differ; a bound of 0 is refused. R191 (D37): a delay is one trace entry and nothing else. -/
def Obligations.WaitsAreBoundedBySamples : Prop :=
  (∀ (s : State) (level : Bit) (n j : Nat) (ds : List Bit), j < n →
    s.engine.draws = List.replicate j (!level) ++ level :: ds →
    exec (.poll level n) s = .next { s with
      engine := { s.engine with
        draws := ds
        trace := .sample level :: List.replicate j (.sample (!level)) ++ s.engine.trace
        returned := .polled true :: s.engine.returned } }) ∧
  (∀ (s : State) (level : Bit) (n : Nat) (ds : List Bit), 1 ≤ n →
    s.engine.draws = List.replicate n (!level) ++ ds →
    exec (.poll level n) s = .next { s with
      engine := { s.engine with
        draws := ds
        trace := List.replicate n (.sample (!level)) ++ s.engine.trace
        returned := .polled false :: s.engine.returned } }) ∧
  (∀ (s : State) (level : Bit), exec (.poll level 0) s = .refused .zeroPollBound) ∧
  (∀ (s : State) (d : DelayName),
    exec (.delay d) s = .next { s with engine := { s.engine with trace := .delay d :: s.engine.trace } })

/-- R195 (the release timeout sets `error` by D14): `read_bit` without a pending error. `start` is what the slot-start
poll sees: nothing in the first slot of a frame, otherwise some highs and the low. The bit is the sample; a 0 waits for
the release within `N_RD_RELEASE` samples. -/
def Obligations.ReadBitFollowsTheSlot : Prop :=
  (∀ (s : State) (start ds : List Bit), s.engine.error = false →
    (s.engine.slotStarted = true → start = []) →
    (s.engine.slotStarted = false →
      ∃ j, j < s.config.nRdStart ∧ start = List.replicate j true ++ [false]) →
    (s.engine.draws = start ++ true :: ds →
      exec .readBit s = .next { s with
        engine := { s.engine with
          slotStarted := false, draws := ds
          trace := seen (start.map TraceEntry.sample ++ [.delay .sample, .sample true]) s.engine.trace
          returned := .bit true :: s.engine.returned } }) ∧
    (∀ k, k < s.config.nRdRelease → s.engine.draws = start ++ false :: List.replicate k false ++ true :: ds →
      exec .readBit s = .next { s with
        engine := { s.engine with
          slotStarted := false, draws := ds
          trace := seen (start.map TraceEntry.sample ++ [.delay .sample, .sample false] ++ List.replicate k (.sample false)
            ++ [.sample true]) s.engine.trace
          returned := .bit false :: s.engine.returned } }) ∧
    (s.engine.draws = start ++ false :: List.replicate s.config.nRdRelease false ++ ds →
      exec .readBit s = .next { s with
        engine := { s.engine with
          slotStarted := false, draws := ds, error := true
          trace := seen (start.map TraceEntry.sample ++ [.delay .sample, .sample false]
            ++ List.replicate s.config.nRdRelease (.sample false) ++ [.fault .rdRelease]) s.engine.trace
          returned := .bit false :: s.engine.returned } })) ∧
  (∀ (s : State) (ds : List Bit), s.engine.error = false → s.engine.slotStarted = false →
    s.engine.draws = List.replicate s.config.nRdStart true ++ ds →
    exec .readBit s = .next { s with
      engine := { s.engine with
        draws := ds, error := true
        trace := seen (List.replicate s.config.nRdStart (.sample true) ++ [.fault .rdStart]) s.engine.trace
        returned := .bit false :: s.engine.returned } })

/-- R198: `write_bit(b)`. A 0 sinks the line during the hold, a 1 never drives it; the line is released before the
release poll and stays released on a timeout. With `error` = 1 on entry nothing happens. -/
def Obligations.WriteBitFollowsTheSlot : Prop :=
  (∀ (s : State) (b : Bit), s.engine.error = true → exec (.writeBit b) s = .next s) ∧
  (∀ (s : State) (b : Bit) (j k : Nat) (ds : List Bit), s.engine.error = false → j < s.config.nWrStart →
    k < s.config.nWrRelease →
    s.engine.draws = List.replicate j true ++ false :: List.replicate k false ++ true :: ds →
    exec (.writeBit b) s = .next { s with
      engine := { s.engine with
        lineDdr := false, draws := ds
        trace := seen (List.replicate j (.sample true) ++ .sample false :: (if b then [] else [.drive true])
          ++ [.delay .txHold, .drive false] ++ List.replicate k (.sample false) ++ [.sample true]) s.engine.trace } }) ∧
  (∀ (s : State) (b : Bit) (j : Nat) (ds : List Bit), s.engine.error = false → j < s.config.nWrStart →
    s.engine.draws = List.replicate j true ++ false :: List.replicate s.config.nWrRelease false ++ ds →
    exec (.writeBit b) s = .next { s with
      engine := { s.engine with
        lineDdr := false, draws := ds, error := true
        trace := seen (List.replicate j (.sample true) ++ .sample false :: (if b then [] else [.drive true])
          ++ [.delay .txHold, .drive false] ++ List.replicate s.config.nWrRelease (.sample false)
          ++ [.fault .wrRelease]) s.engine.trace } }) ∧
  (∀ (s : State) (b : Bit) (ds : List Bit), s.engine.error = false →
    s.engine.draws = List.replicate s.config.nWrStart true ++ ds →
    exec (.writeBit b) s = .next { s with
      engine := { s.engine with
        draws := ds, error := true
        trace := seen (List.replicate s.config.nWrStart (.sample true) ++ [.fault .wrStart]) s.engine.trace } })

/-- R192 (results of the reads: D15): with `error` = 1 every framing row is a no-op that hands back the failure
result. -/
def Obligations.StickyErrorMakesFramingANoOp : Prop :=
  ∀ (s : State) (b : Bit) (v crc : Byte), s.engine.error = true →
    exec .readBit s = .next { s with
      engine := { s.engine with returned := .bit false :: s.engine.returned } } ∧
    exec (.writeBit b) s = .next s ∧
    exec .readByte s = .next { s with
      engine := { s.engine with returned := .byte 0x00#8 :: s.engine.returned } } ∧
    exec (.writeByte v) s = .next s ∧
    exec (.writeByteWithCrc8 v crc) s = .next { s with
      engine := { s.engine with returned := .byte crc :: s.engine.returned } }

/-- R104, R122, R200: a byte carried by well-behaved slots is read whole, least-significant bit first. -/
def Obligations.ReadByteAssemblesLsbFirst : Prop :=
  ∀ (s : State) (v : Byte) (ds : List Bit), configValid s.config = true → s.engine.error = false →
    s.engine.draws = byteDraws s.engine.slotStarted v ++ ds →
    exec .readByte s = .next { s with
      engine := { s.engine with
        slotStarted := false, draws := ds
        trace := seen (byteTrace s.engine.slotStarted v) s.engine.trace
        returned := .byte v :: s.engine.returned } }

/-- R200 a, R195 (zeros from the failing bit on: D15, a missed release sets `error`: D14): when bit `n` misses a
deadline, its slot start or its release, the byte read holds the `n` bits before it and zeros, and no further bit is
read. The first slot of a frame has no start to miss. -/
def Obligations.ReadByteStopsAtAMissedSlot : Prop :=
  ∀ (s : State) (v : Byte) (n : Nat) (site : FaultSite) (ds : List Bit), configValid s.config = true →
    s.engine.error = false → n < 8 → site = .rdStart ∨ site = .rdRelease →
    (site = .rdStart → s.engine.slotStarted = true → 1 ≤ n) →
    s.engine.draws = bitsDraws s.engine.slotStarted ((byteSlots v).take n)
      ++ missDraws s.config (s.engine.slotStarted && n == 0) site ++ ds →
    exec .readByte s = .next { s with
      engine := { s.engine with
        slotStarted := false, draws := ds, error := true
        trace := seen (bitsTrace s.engine.slotStarted ((byteSlots v).take n)
          ++ missTrace s.config (s.engine.slotStarted && n == 0) false site) s.engine.trace
        returned := .byte (BitVec.ofNat 8 (v.toNat % 2 ^ n)) :: s.engine.returned } }

/-- R202: `write_byte(v)` is `write_bit` of the eight bits, least-significant first, until `error` is set. -/
def Obligations.WriteByteSendsLsbFirst : Prop :=
  ∀ (s : State) (v : Byte), ∃ t : State,
    exec (.writeByte v) s = .next t ∧ sendBits (byteSlots v) s = .next t

/-- R104, R122: with well-behaved slots, bits are sent one after another and the line is left released. -/
def Obligations.SentBitsAppearOnTheLine : Prop :=
  ∀ (s : State) (bs : List Bit) (ds : List Bit), configValid s.config = true → s.engine.error = false →
    s.engine.lineDdr = false → s.engine.draws = writtenDraws bs ++ ds →
    sendBits bs s = .next { s with
      engine := { s.engine with draws := ds, trace := seen (writtenTrace bs) s.engine.trace } }

/-- R204: `write_byte_with_crc8` is `write_byte`; the CRC handed back is the update when `error` = 0 at the end, and
the given one otherwise. -/
def Obligations.WriteByteWithCrc8FoldsTheCrc : Prop :=
  ∀ (s : State) (v crc : Byte), ∃ t : State, exec (.writeByte v) s = .next t ∧
    exec (.writeByteWithCrc8 v crc) s = .next { t with
      engine := { t.engine with
        returned := .byte (if t.engine.error then crc else crc8Update crc v) :: t.engine.returned } }

/-! ### CRC8 -/

/-- R261, R263: `crc8_update(crc, v)` hands back `T[crc ^ v]` of the printed table, for all operands. -/
def Obligations.Crc8UpdateIsTheTable : Prop :=
  ∀ (s : State) (crc v : Byte),
    exec (.crc8Update crc v) s = .next { s with
      engine := { s.engine with returned := .byte (crcTable (crc ^^^ v)) :: s.engine.returned } }

/-- R265, R266 (`crc8_init` = 0: the spec's own choice, D21): the residue of a sequence with its CRC is 0, and a store is
valid exactly when the CRC of all its eight bytes is 0. -/
def Obligations.CrcResidueDecidesValidity : Prop :=
  (∀ xs : List Byte, crc8 (xs ++ [crc8 xs]) = 0x00#8) ∧
  (∀ m : Memory, idValid m = true ↔ crc8 (storeBytes m 8) = 0x00#8)

/-! ### ROM commands and the callback -/

/-- R231, R237 (byte order: D17, no callback at the end: D19): SEARCH with well-behaved slots. The device takes part in
the triples up to the first selection that disagrees with its identifier bit, or in all 64. -/
def Obligations.SearchParticipatesInAPrefix : Prop :=
  ∀ (s : State) (sels ds : List Bit), configValid s.config = true → s.engine.error = false →
    s.engine.slotStarted = false →
    (sels = idBits s.engine.store 64 ∨
      ∃ j, j < 64 ∧ sels = idBits s.engine.store j ++ [!idBit s.engine.store j]) →
    s.engine.draws = searchDraws sels ++ ds →
    exec .search s = .next { s with
      engine := { s.engine with
        lineDdr := false, draws := ds
        trace := seen (searchTrace ((idBits s.engine.store 64).zip sels)) s.engine.trace } }

/-- R231, R192: a deadline missed in any slot of the triple of bit `j` ends the search, with the slots after it in that
triple silent. Slot `p` is 0 for the bit, 1 for its complement, 2 for the selection; a sending slot may miss its start
or its release, so may the selection, which is then never compared. -/
def Obligations.SearchAbortsOnAMissedDeadline : Prop :=
  ∀ (s : State) (j p : Nat) (site : FaultSite) (ds : List Bit), configValid s.config = true →
    s.engine.error = false → s.engine.slotStarted = false → s.engine.lineDdr = false → j < 64 →
    p < 2 ∧ (site = .wrStart ∨ site = .wrRelease) ∨ p = 2 ∧ (site = .rdStart ∨ site = .rdRelease) →
    s.engine.draws = searchDraws (idBits s.engine.store j)
      ++ writtenDraws ([idBit s.engine.store j, !idBit s.engine.store j].take p) ++ missDraws s.config false site ++ ds →
    exec .search s = .next { s with
      engine := { s.engine with
        draws := ds, error := true
        trace := seen (searchTrace ((idBits s.engine.store j).zip (idBits s.engine.store j))
          ++ writtenTrace ([idBit s.engine.store j, !idBit s.engine.store j].take p)
          ++ missTrace s.config false (if p = 0 then idBit s.engine.store j else !idBit s.engine.store j) site)
          s.engine.trace } }

/-- R232: ALARM SEARCH is SEARCH when `alarm` = 1 and does nothing when `alarm` = 0. -/
def Obligations.AlarmGatesTheSearch : Prop :=
  ∀ s : State,
    (s.engine.alarm = true → ∃ t : State, exec .alarmSearch s = .next t ∧ exec .search s = .next t) ∧
    (s.engine.alarm = false → exec .alarmSearch s = .next s)

/-- R233, R238 (byte order: D17): READ sends the 64 identifier bits as stored, and stops once a deadline is missed. -/
def Obligations.ReadSendsTheIdentifier : Prop :=
  (∀ s : State, ∃ t : State, exec .readRom s = .next t ∧ sendBits (idBits s.engine.store 64) s = .next t) ∧
  (∀ (s : State) (ds : List Bit), configValid s.config = true → s.engine.error = false → s.engine.lineDdr = false →
    s.engine.draws = writtenDraws (idBits s.engine.store 64) ++ ds →
    exec .readRom s = .next { s with
      engine := { s.engine with
        draws := ds, trace := seen (writtenTrace (idBits s.engine.store 64)) s.engine.trace } })

/-- R234 (comparison as the bytes arrive: D18): MATCH. With well-behaved slots eight equal bytes run the callback, and
the first differing byte ends the command without callback, error or further reads. After `j` equal bytes, a deadline
missed in bit `n` of the next one ends it with `error` = 1, no further read and no callback. -/
def Obligations.MatchIsExact : Prop :=
  (∀ (s : State) (ds : List Bit), configValid s.config = true → s.engine.error = false →
    s.engine.slotStarted = false → s.engine.draws = bytesDraws (storeBytes s.engine.store 8) ++ ds →
    ∃ t : State, exec .matchRom s = .next t ∧
      exec .callback { s with
        engine := { s.engine with
          draws := ds, trace := seen (bytesTrace (storeBytes s.engine.store 8)) s.engine.trace } } = .next t) ∧
  (∀ (s : State) (j : Nat) (m : Byte) (ds : List Bit), configValid s.config = true → s.engine.error = false →
    s.engine.slotStarted = false → j < 8 → m ≠ idByte s.engine.store j →
    s.engine.draws = bytesDraws (storeBytes s.engine.store j ++ [m]) ++ ds →
    exec .matchRom s = .next { s with
      engine := { s.engine with
        draws := ds
        trace := seen (bytesTrace (storeBytes s.engine.store j ++ [m])) s.engine.trace } }) ∧
  (∀ (s : State) (j n : Nat) (m : Byte) (site : FaultSite) (ds : List Bit), configValid s.config = true →
    s.engine.error = false → s.engine.slotStarted = false → j < 8 → n < 8 → site = .rdStart ∨ site = .rdRelease →
    s.engine.draws = bytesDraws (storeBytes s.engine.store j) ++ bitsDraws false ((byteSlots m).take n)
      ++ missDraws s.config false site ++ ds →
    exec .matchRom s = .next { s with
      engine := { s.engine with
        draws := ds, error := true
        trace := seen (bytesTrace (storeBytes s.engine.store j) ++ bitsTrace false ((byteSlots m).take n)
          ++ missTrace s.config false false site) s.engine.trace } })

/-- R235: SKIP runs the callback, once, whatever the state. -/
def Obligations.SkipRunsTheCallbackOnce : Prop :=
  ∀ s : State, ∃ t : State, exec .skip s = .next t ∧ exec .callback s = .next t ∧
    countOf TraceEntry.isCallback t.engine.trace = countOf TraceEntry.isCallback s.engine.trace + 1

/-- R290, R291 (D25, log 5): the callback is one CALLBACK entry and then the application's actions, each run as its own
row; framing actions are performed only when `CALLBACK_IO` = true. Where no script is left the actions are the free
value. -/
def Obligations.CallbackRunsItsActions : Prop :=
  (∀ (s : State) (ops : List CallbackOp) (rest : List (List CallbackOp)), s.engine.callbacks = ops :: rest →
    ∃ t : State, exec .callback s = .next t ∧
      runRows ((ops.filter fun op => s.config.callbackIo || !isFraming op).map callbackRow)
        { s with engine := { s.engine with callbacks := rest, trace := .callback :: s.engine.trace } } = .next t) ∧
  (∀ s : State, s.engine.callbacks = [] →
    ∃ t : State, exec .callback s = .next t ∧
      runRows (((Config.freeCallback s.engine.bus s.engine.freeCallbacks).filter fun op =>
          s.config.callbackIo || !isFraming op).map callbackRow)
        { s with engine := { s.engine with
            freeCallbacks := s.engine.freeCallbacks + 1, trace := .callback :: s.engine.trace } } = .next t)

/-- R236: any other command byte, and 0xEC while `alarm` = 0, has no effect at all. -/
def Obligations.UnknownCommandsAreIgnored : Prop :=
  (∀ b : Byte, b ∉ namedCommandBytes → decodeByte b = .ignored b) ∧
  (∀ (s : State) (c : Byte), exec (.ignored c) s = .next s) ∧
  (∀ s : State, s.engine.alarm = false → exec (decodeByte 0xEC#8) s = .next s)

/-! ### The bus state machine -/

/-- R146, R147, R150 (the levels the source does not list: D7, D8, the replaced window: D36): a PIN while a RESET is
being classified, by the level it samples. -/
def Obligations.PinWhileClassifyingReset : Prop :=
  ∀ (s : State) (v : Bit) (ds : List Bit), configValid s.config = true → s.engine.draws = v :: ds →
    exec .pinIdle s = .next { s with
      engine :=
        if v then { s.engine with draws := ds, trace := .sample true :: s.engine.trace }
        else { s.engine with
          draws := ds, stage := .waitingResetMin, timerArmed := true, timerCount := s.config.ticksResetMin
          trace := [.tset s.config.ticksResetMin, .sample false] ++ s.engine.trace } } ∧
    exec .pinResetMin s = .next { s with
      engine :=
        if v then { s.engine with
          draws := ds, stage := .idle, timerArmed := false, trace := [.tcancel, .sample true] ++ s.engine.trace }
        else { s.engine with draws := ds, trace := .sample false :: s.engine.trace } } ∧
    exec .pinResetMax s = .next { s with
      engine :=
        if v then { s.engine with
          draws := ds, stage := .presencePulseOn, lineDdr := true, timerArmed := true
          timerCount := s.config.ticksPresence
          trace := [.tset s.config.ticksPresence, .drive true, .delay .presenceDelay, .sample true]
            ++ s.engine.trace }
        else { s.engine with
          draws := ds, stage := .idle, timerArmed := false
          trace := [.tcancel, .sample false] ++ s.engine.trace } }

/-- R145, R151 (D6, D9): an expiry in IDLE and a PIN in PRESENCE_PULSE_ON change nothing. -/
def Obligations.IgnoredEventsChangeNothing : Prop :=
  ∀ s : State, exec .expiryIdle s = .next s ∧ exec .pinPresence s = .next s

/-- R155: the first PIN after the presence pulse clears the flag and does nothing else. -/
def Obligations.SpuriousEdgeIsConsumed : Prop :=
  ∀ s : State, exec .pinFirstSignalIgnored s = .next { s with engine := { s.engine with ignoreOneChange := false } }

/-- R148: the RESET minimum has elapsed; the line is not sampled. -/
def Obligations.ResetMinimumElapses : Prop :=
  ∀ s : State, configValid s.config = true →
    exec .expiryResetMin s = .next { s with
      engine := { s.engine with
        stage := .waitingResetMax, timerArmed := true, timerCount := s.config.ticksResetWindow
        trace := .tset s.config.ticksResetWindow :: s.engine.trace } }

/-- R149: the RESET window's expiry row does nothing. The tick that runs it leaves the timer disarmed (R143, D5), and a
later rising edge is still a valid RESET (R150). That `timer.count`, which R43 leaves unspecified once the timer is
disarmed, is then the 0 that the countdown reached is the model's choice (log 3). -/
def Obligations.ResetWindowExpiryIsANoOp : Prop :=
  (∀ s : State, exec .expiryResetMax s = .next s) ∧
  (∀ s : State, s.engine.stage = .waitingResetMax → s.engine.timerArmed = true → s.engine.timerCount = 1 →
    exec .tick s = .next { s with engine := { s.engine with timerArmed := false, timerCount := 0 } }) ∧
  (∀ (s : State) (ds : List Bit), s.engine.stage = .waitingResetMax → s.engine.timerArmed = false →
    s.engine.draws = true :: ds →
    ∃ t : State, exec (rowOf .pin s.engine) s = .next t ∧ t.engine.stage = .presencePulseOn ∧
      t.engine.lineDdr = true)

/-- R153 (the poll ignores `error`: D13; `fs_count` loaded here: D4): the end of the presence pulse. -/
def Obligations.PresencePulseEnds : Prop :=
  (∀ (s : State) (k : Nat) (ds : List Bit), configValid s.config = true → k < s.config.nPresenceRelease →
    s.engine.draws = List.replicate k false ++ true :: ds →
    exec .expiryPresence s = .next { s with
      engine := { s.engine with
        lineDdr := false, draws := ds, stage := .waitingFirstSignal, ignoreOneChange := true
        fsCount := s.config.nFirstSignal, timerArmed := true, timerCount := s.config.ticksFsRetry
        trace := seen (.drive false :: List.replicate k (.sample false)
          ++ [.sample true, .tset s.config.ticksFsRetry]) s.engine.trace } }) ∧
  (∀ (s : State) (ds : List Bit), s.engine.draws = List.replicate s.config.nPresenceRelease false ++ ds →
    exec .expiryPresence s = .next { s with
      engine := { s.engine with
        lineDdr := false, draws := ds, stage := .idle, error := false
        trace := seen (.drive false :: List.replicate s.config.nPresenceRelease (.sample false)
          ++ [.fault .presenceRelease]) s.engine.trace } })

/-- R158 (decrement, then test: D4; the flag cleared on give-up: D12): one retry expiry. -/
def Obligations.FirstSignalRetryCountsDown : Prop :=
  ∀ s : State, configValid s.config = true → s.engine.fsCount < 2 ^ s.config.fsCountBits →
    (2 ≤ s.engine.fsCount →
      exec .expiryFirstSignal s = .next { s with
        engine := { s.engine with
          fsCount := s.engine.fsCount - 1, timerArmed := true, timerCount := s.config.ticksFsRetry
          trace := .tset s.config.ticksFsRetry :: s.engine.trace } }) ∧
    (s.engine.fsCount = 1 →
      exec .expiryFirstSignal s = .next { s with
        engine := { s.engine with fsCount := 0, ignoreOneChange := false, stage := .idle } })

/-- R160, R108, R230 (no dispatch after an error: D16): the frame handler is `read_byte`, and then the row the byte
decodes to unless `error` is set. -/
def Obligations.FrameDispatchesTheByteRead : Prop :=
  ∀ s : State, ∃ (t : State) (cmd : Byte),
    exec .readByte s = .next { t with
      engine := { t.engine with returned := .byte cmd :: s.engine.returned } } ∧
    t.engine.returned = s.engine.returned ∧
    exec .frame s = (if t.engine.error then .next t else exec (decodeByte cmd) t)

/-- R156 (no level check: D10; `slot_started`: D11): the first data-slot edge cancels the timer, runs the frame in stage
IDLE, and clears `error` and `slot_started`. -/
def Obligations.FirstEdgeRunsTheFrame : Prop :=
  ∀ s : State, ∃ t : State,
    exec .frame { s with
      engine := { s.engine with
        stage := .idle, timerArmed := false, slotStarted := true, trace := .tcancel :: s.engine.trace } } = .next t ∧
    exec .pinFirstSignalFrame s = .next { t with engine := { t.engine with error := false, slotStarted := false } }

/-- R162, R161: whatever happens inside it, a frame ends in IDLE with the timer disarmed, `error` and `slot_started` 0,
the line released, and `ignore_one_change` and `line.port` untouched. That `fs_count`, which R35 leaves unspecified once
the stage is IDLE, is untouched too is the model's choice (log 3). -/
def Obligations.FrameEndsClean : Prop :=
  ∀ s : State, s.engine.lineDdr = false → ∃ t : State, exec .pinFirstSignalFrame s = .next t ∧
    t.engine.stage = .idle ∧ t.engine.timerArmed = false ∧ t.engine.error = false ∧ t.engine.slotStarted = false ∧
    t.engine.lineDdr = false ∧ t.engine.ignoreOneChange = s.engine.ignoreOneChange ∧
    t.engine.fsCount = s.engine.fsCount ∧ t.engine.linePort = s.engine.linePort

/-- R143 (D5): a tick with the timer disarmed changes nothing, and from a count of `n + 1` the first `n` ticks only
count down to 1. -/
def Obligations.TicksOnlyCountDown : Prop :=
  (∀ s : State, s.engine.stage.isUnused = false → s.engine.timerArmed = false → exec .tick s = .next s) ∧
  (∀ (s : State) (n : Nat) (rest : List Delivery), configValid s.config = true → s.engine.started = true →
    s.engine.stage.isUnused = false → s.engine.timerArmed = true → s.engine.timerCount = n + 1 →
    n + 1 < 2 ^ s.config.timerCountBits → s.inputs = List.replicate n ⟨s.engine.bus, .tick⟩ ++ rest →
    runSteps n s = .next { s with inputs := rest, engine := { s.engine with timerCount := 1 } })

/-- R363: a low pulse of `k` ticks is a RESET exactly when `k` is at least `TICKS_RESET_MIN`, however long it is. The
next states after the rising edge, with the whole trace. -/
def Obligations.ResetIsClassifiedByTicks : Prop :=
  ∀ (s : State) (k : Nat) (ds : List Bit) (rest : List Delivery), configValid s.config = true →
    s.engine.started = true → s.engine.stage = .idle → s.engine.draws = false :: true :: ds →
    s.inputs = ⟨s.engine.bus, .pin⟩ :: List.replicate k ⟨s.engine.bus, .tick⟩ ++ ⟨s.engine.bus, .pin⟩ :: rest →
    ∃ t : State, runSteps (k + 2) s = .next t ∧ t.inputs = rest ∧ t.engine.draws = ds ∧
      t.engine.error = s.engine.error ∧ t.engine.alarm = s.engine.alarm ∧
      (k < s.config.ticksResetMin →
        t.engine.stage = .idle ∧ t.engine.timerArmed = false ∧ t.engine.lineDdr = s.engine.lineDdr ∧
        t.engine.trace = [.tcancel, .sample true, .tset s.config.ticksResetMin, .sample false] ++ s.engine.trace) ∧
      (s.config.ticksResetMin ≤ k →
        t.engine.stage = .presencePulseOn ∧ t.engine.timerArmed = true ∧
        t.engine.timerCount = s.config.ticksPresence ∧ t.engine.lineDdr = true ∧
        t.engine.trace = [.tset s.config.ticksPresence, .drive true, .delay .presenceDelay, .sample true,
          .tset s.config.ticksResetWindow, .tset s.config.ticksResetMin, .sample false] ++ s.engine.trace)

/-- R152: from the start of the presence pulse, whatever edges come between, the line stays sunk for
`TICKS_PRESENCE` - 1 ticks and the next tick releases it. That an edge in between leaves nothing in the trace is R151
with the spec's own decision D9. -/
def Obligations.PresencePulseLastsItsTicks : Prop :=
  ∀ (s : State) (evs : List Input) (rest : List Delivery), configValid s.config = true → s.engine.started = true →
    s.engine.stage = .presencePulseOn → s.engine.lineDdr = true → s.engine.timerArmed = true →
    s.engine.timerCount = s.config.ticksPresence → (∀ i ∈ evs, i = .pin ∨ i = .tick) →
    evs.count .tick + 1 = s.config.ticksPresence →
    s.inputs = evs.map (fun i => ⟨s.engine.bus, i⟩) ++ ⟨s.engine.bus, .tick⟩ :: rest →
    (∀ n, n ≤ evs.length → ∃ u : State, runSteps n s = .next u ∧ u.engine.lineDdr = true ∧
      u.engine.stage = .presencePulseOn ∧ u.engine.trace = s.engine.trace) ∧
    ∃ (t : State) (new : List TraceEntry), runSteps (evs.length + 1) s = .next t ∧ t.inputs = rest ∧
      t.engine.lineDdr = false ∧ (t.engine.stage = .waitingFirstSignal ∨ t.engine.stage = .idle) ∧
      t.engine.trace = new ++ .drive false :: s.engine.trace ∧ countOf TraceEntry.isSink new = 0

/-- R154, R304: with no edge, a first-signal episode lasts exactly `N_FIRST_SIGNAL` × `TICKS_FS_RETRY` ticks and ends
silently. `ignore_one_change` = 0 at its end is R158 with the spec's own decision D12; the count of rounds is D4. -/
def Obligations.FirstSignalEpisodeLength : Prop :=
  ∀ (s : State) (k : Nat) (rest : List Delivery), configValid s.config = true → s.engine.started = true →
    s.engine.stage = .waitingFirstSignal → s.engine.timerArmed = true →
    s.engine.timerCount = s.config.ticksFsRetry → s.engine.fsCount = s.config.nFirstSignal →
    s.inputs = List.replicate k ⟨s.engine.bus, .tick⟩ ++ rest →
    (k < s.config.nFirstSignal * s.config.ticksFsRetry →
      ∃ t : State, runSteps k s = .next t ∧ t.inputs = rest ∧ t.engine.stage = .waitingFirstSignal ∧
        t.engine.ignoreOneChange = s.engine.ignoreOneChange ∧ t.engine.error = s.engine.error) ∧
    (k = s.config.nFirstSignal * s.config.ticksFsRetry →
      ∃ t : State, runSteps k s = .next t ∧ t.inputs = rest ∧ t.engine.stage = .idle ∧
        t.engine.timerArmed = false ∧ t.engine.ignoreOneChange = false ∧ t.engine.error = s.engine.error ∧
        t.engine.trace =
          List.replicate (s.config.nFirstSignal - 1) (.tset s.config.ticksFsRetry) ++ s.engine.trace)

/-! ### Whole-machine rules -/

/-- R49, R50, R341: the end state of `init()`, in every valid configuration of one engine, and `State.reset` itself
satisfy the invariant. -/
def Obligations.ResetSatisfiesTheInvariant : Prop :=
  State.Inv State.reset ∧
  ∀ (c : Config) (bus : Nat) (store : Memory) (inputs : List Delivery), configValid c = true →
    Memory.wf store = true → c.numInstances = 1 →
    State.Inv { config := c, engine := Engine.afterInit bus store, parked := [], inputs := inputs }

/-- R50 and what it rests on: every step keeps the invariant, from every state that has it. -/
def Obligations.StepKeepsTheInvariant : Prop :=
  ∀ s t : State, s.Inv → step s = .next t → t.Inv

/-- R50, invariant 5: a macro-step leaves `error` = 0 if it was 0 before, unless it is the host's `set_error_on`. -/
def Obligations.ErrorIsZeroBetweenMacroSteps : Prop :=
  ∀ (s f t : State) (d : Delivery) (rest : List Delivery), s.inputs = d :: rest →
    State.focus d.bus { s with inputs := rest } = some f → f.engine.error = false →
    d.input ≠ .host .setErrorOn → step s = .next t → t.engine.error = false

/-- R330, R52: a macro-step of one engine changes no other engine and not the configuration, and takes one input. -/
def Obligations.StepLeavesOtherEnginesAlone : Prop :=
  ∀ (s t : State) (d : Delivery) (rest : List Delivery), s.inputs = d :: rest → step s = .next t →
    t.inputs = rest ∧ t.config = s.config ∧ ∀ bus : Nat, bus ≠ d.bus → t.engineOf bus = s.engineOf bus

/-- R30, R31, R280: no row but the events and `init()` writes `stage`, `ignore_one_change`, `fs_count`, the timer or
`line.port`; no row writes the store, the bus number, the configuration, the other engines or the inputs. -/
def Obligations.OnlyEventsMoveTheStateMachine : Prop :=
  ∀ (i : Instr) (s t : State), exec i s = .next t →
    (t.engine.store = s.engine.store ∧ t.engine.bus = s.engine.bus ∧ t.config = s.config ∧ t.parked = s.parked ∧
      t.inputs = s.inputs) ∧
    (isStageRow i = false →
      t.engine.stage = s.engine.stage ∧ t.engine.ignoreOneChange = s.engine.ignoreOneChange ∧
      t.engine.fsCount = s.engine.fsCount ∧ t.engine.timerArmed = s.engine.timerArmed ∧
      t.engine.timerCount = s.engine.timerCount ∧ t.engine.linePort = s.engine.linePort)

/-- R51, R206: no row but the PIN that starts the presence pulse leaves the line sunk. -/
def Obligations.OnlyPresenceLeavesTheLineSunk : Prop :=
  ∀ (i : Instr) (s t : State), i ≠ .pinResetMax → s.engine.lineDdr = false → exec i s = .next t →
    t.engine.lineDdr = false

/-- R83: in a state that meets the invariant, no macro-step samples the line while the engine sinks it. -/
def Obligations.LineIsNeverSampledWhileSunk : Prop :=
  ∀ (s f t : State) (d : Delivery) (rest : List Delivery), s.Inv → s.inputs = d :: rest →
    State.focus d.bus { s with inputs := rest } = some f → step s = .next t →
    ∃ new : List TraceEntry, t.engine.trace = new ++ f.engine.trace ∧
      samplesOnlyReleased f.engine.lineDdr new = true ∧ sunkAfter f.engine.lineDdr new = t.engine.lineDdr

/-- R163: every row has a bound on its samples. In every configuration it bounds the samples before the callback, and
all samples of a row that cannot run one; with `CALLBACK_IO` = false it bounds all samples of every row. A frame is
bounded by its command byte and the bound of the command that byte decodes to. -/
def Obligations.SamplesAreBounded : Prop :=
  (∀ (i : Instr) (s t : State), exec i s = .next t →
    ∃ new : List TraceEntry, t.engine.trace = new ++ s.engine.trace ∧
      samplesBeforeCallback new ≤ sampleBound s.config i ∧
      (s.config.callbackIo = false ∨ mayRunCallback i = false →
        countOf TraceEntry.isSample new ≤ sampleBound s.config i)) ∧
  (∀ s : State, ∃ (u t : State) (cmd : Byte) (new : List TraceEntry),
    exec .readByte { s with
      engine := { s.engine with
        stage := .idle, timerArmed := false, slotStarted := true, trace := .tcancel :: s.engine.trace } } = .next u ∧
    u.engine.returned = .byte cmd :: s.engine.returned ∧
    exec .pinFirstSignalFrame s = .next t ∧ t.engine.trace = new ++ s.engine.trace ∧
    samplesBeforeCallback new ≤
      firstBitBound s.config + 7 * readBitBound s.config + sampleBound s.config (decodeByte cmd) ∧
    (s.config.callbackIo = false ∨ mayRunCallback (decodeByte cmd) = false →
      countOf TraceEntry.isSample new ≤
        firstBitBound s.config + 7 * readBitBound s.config + sampleBound s.config (decodeByte cmd)))

/-- R308: one row records at most one missed deadline, and none if it starts with `error` = 1. The two exceptions are the
spec's: a callback that frames and calls `set_error_off` (R308), and the presence-release poll, which does not look at
`error` (R153, D13). What the callback does is the model's script or free value (log 5). -/
def Obligations.AtMostOneFaultPerRow : Prop :=
  ∀ (i : Instr) (s t : State),
    s.config.callbackIo = false ∨ mayRunCallback i = false ∨ .setErrorOff ∉ s.engine.nextCallback.1 →
    exec i s = .next t →
    countOf TraceEntry.isFault t.engine.trace ≤ countOf TraceEntry.isFault s.engine.trace + 1 ∧
    (s.engine.error = true → i ≠ .expiryPresence → (i = .tick → s.engine.stage ≠ .presencePulseOn) →
      countOf TraceEntry.isFault t.engine.trace = countOf TraceEntry.isFault s.engine.trace)

/-- R37, R73: the engine never writes `alarm`, and reads it only to gate 0xEC. Without a callback, only `init()` and the
host's alarm operations write it. A row that cannot dispatch 0xEC does not look at it: from two states that differ only
in `alarm` the row ends alike, and the next states differ at most in it. -/
def Obligations.AlarmIsTouchedOnlyByHostAndGate : Prop :=
  (∀ (i : Instr) (s t : State), exec i s = .next t → i ≠ .init → i ≠ .setAlarmOn → i ≠ .setAlarmOff →
    countOf TraceEntry.isCallback t.engine.trace = countOf TraceEntry.isCallback s.engine.trace →
    t.engine.alarm = s.engine.alarm) ∧
  (∀ (i : Instr) (s : State) (a : Bit), mayReadAlarm i = false →
    (∀ t u : State, exec i s = .next t → exec i (s.withAlarm a) = .next u →
      t.withAlarm false = u.withAlarm false) ∧
    ((∃ t, exec i s = .next t) ↔ ∃ u, exec i (s.withAlarm a) = .next u))
end

