-- ==== Sys2Proof/Laws/State.lean ====
section
/-! SUPPORT. The small lemmas of the state: one per field per update, all true by `rfl`. -/

namespace Sys2Proof.Machine

variable (e : Engine)

/-! ### `emit` -/

@[simp] theorem Engine.emit_stage (t : TraceEntry) : (e.emit t).stage = e.stage := rfl
@[simp] theorem Engine.emit_ignoreOneChange (t : TraceEntry) : (e.emit t).ignoreOneChange = e.ignoreOneChange := rfl
@[simp] theorem Engine.emit_alarm (t : TraceEntry) : (e.emit t).alarm = e.alarm := rfl
@[simp] theorem Engine.emit_error (t : TraceEntry) : (e.emit t).error = e.error := rfl
@[simp] theorem Engine.emit_slotStarted (t : TraceEntry) : (e.emit t).slotStarted = e.slotStarted := rfl
@[simp] theorem Engine.emit_fsCount (t : TraceEntry) : (e.emit t).fsCount = e.fsCount := rfl
@[simp] theorem Engine.emit_timerArmed (t : TraceEntry) : (e.emit t).timerArmed = e.timerArmed := rfl
@[simp] theorem Engine.emit_timerCount (t : TraceEntry) : (e.emit t).timerCount = e.timerCount := rfl
@[simp] theorem Engine.emit_lineDdr (t : TraceEntry) : (e.emit t).lineDdr = e.lineDdr := rfl
@[simp] theorem Engine.emit_linePort (t : TraceEntry) : (e.emit t).linePort = e.linePort := rfl
@[simp] theorem Engine.emit_store (t : TraceEntry) : (e.emit t).store = e.store := rfl
@[simp] theorem Engine.emit_bus (t : TraceEntry) : (e.emit t).bus = e.bus := rfl
@[simp] theorem Engine.emit_started (t : TraceEntry) : (e.emit t).started = e.started := rfl
@[simp] theorem Engine.emit_draws (t : TraceEntry) : (e.emit t).draws = e.draws := rfl
@[simp] theorem Engine.emit_freeDraws (t : TraceEntry) : (e.emit t).freeDraws = e.freeDraws := rfl
@[simp] theorem Engine.emit_callbacks (t : TraceEntry) : (e.emit t).callbacks = e.callbacks := rfl
@[simp] theorem Engine.emit_freeCallbacks (t : TraceEntry) : (e.emit t).freeCallbacks = e.freeCallbacks := rfl
@[simp] theorem Engine.emit_trace (t : TraceEntry) : (e.emit t).trace = t :: e.trace := rfl
@[simp] theorem Engine.emit_returned (t : TraceEntry) : (e.emit t).returned = e.returned := rfl

/-! ### `give` -/

@[simp] theorem Engine.give_stage (v : Value) : (e.give v).stage = e.stage := rfl
@[simp] theorem Engine.give_ignoreOneChange (v : Value) : (e.give v).ignoreOneChange = e.ignoreOneChange := rfl
@[simp] theorem Engine.give_alarm (v : Value) : (e.give v).alarm = e.alarm := rfl
@[simp] theorem Engine.give_error (v : Value) : (e.give v).error = e.error := rfl
@[simp] theorem Engine.give_slotStarted (v : Value) : (e.give v).slotStarted = e.slotStarted := rfl
@[simp] theorem Engine.give_fsCount (v : Value) : (e.give v).fsCount = e.fsCount := rfl
@[simp] theorem Engine.give_timerArmed (v : Value) : (e.give v).timerArmed = e.timerArmed := rfl
@[simp] theorem Engine.give_timerCount (v : Value) : (e.give v).timerCount = e.timerCount := rfl
@[simp] theorem Engine.give_lineDdr (v : Value) : (e.give v).lineDdr = e.lineDdr := rfl
@[simp] theorem Engine.give_linePort (v : Value) : (e.give v).linePort = e.linePort := rfl
@[simp] theorem Engine.give_store (v : Value) : (e.give v).store = e.store := rfl
@[simp] theorem Engine.give_bus (v : Value) : (e.give v).bus = e.bus := rfl
@[simp] theorem Engine.give_started (v : Value) : (e.give v).started = e.started := rfl
@[simp] theorem Engine.give_draws (v : Value) : (e.give v).draws = e.draws := rfl
@[simp] theorem Engine.give_freeDraws (v : Value) : (e.give v).freeDraws = e.freeDraws := rfl
@[simp] theorem Engine.give_callbacks (v : Value) : (e.give v).callbacks = e.callbacks := rfl
@[simp] theorem Engine.give_freeCallbacks (v : Value) : (e.give v).freeCallbacks = e.freeCallbacks := rfl
@[simp] theorem Engine.give_trace (v : Value) : (e.give v).trace = e.trace := rfl
@[simp] theorem Engine.give_returned (v : Value) : (e.give v).returned = v :: e.returned := rfl

/-! ### `drive` -/

@[simp] theorem Engine.drive_stage (b : Bit) : (e.drive b).stage = e.stage := rfl
@[simp] theorem Engine.drive_ignoreOneChange (b : Bit) : (e.drive b).ignoreOneChange = e.ignoreOneChange := rfl
@[simp] theorem Engine.drive_alarm (b : Bit) : (e.drive b).alarm = e.alarm := rfl
@[simp] theorem Engine.drive_error (b : Bit) : (e.drive b).error = e.error := rfl
@[simp] theorem Engine.drive_slotStarted (b : Bit) : (e.drive b).slotStarted = e.slotStarted := rfl
@[simp] theorem Engine.drive_fsCount (b : Bit) : (e.drive b).fsCount = e.fsCount := rfl
@[simp] theorem Engine.drive_timerArmed (b : Bit) : (e.drive b).timerArmed = e.timerArmed := rfl
@[simp] theorem Engine.drive_timerCount (b : Bit) : (e.drive b).timerCount = e.timerCount := rfl
@[simp] theorem Engine.drive_lineDdr (b : Bit) : (e.drive b).lineDdr = b := rfl
@[simp] theorem Engine.drive_linePort (b : Bit) : (e.drive b).linePort = e.linePort := rfl
@[simp] theorem Engine.drive_store (b : Bit) : (e.drive b).store = e.store := rfl
@[simp] theorem Engine.drive_bus (b : Bit) : (e.drive b).bus = e.bus := rfl
@[simp] theorem Engine.drive_started (b : Bit) : (e.drive b).started = e.started := rfl
@[simp] theorem Engine.drive_draws (b : Bit) : (e.drive b).draws = e.draws := rfl
@[simp] theorem Engine.drive_freeDraws (b : Bit) : (e.drive b).freeDraws = e.freeDraws := rfl
@[simp] theorem Engine.drive_callbacks (b : Bit) : (e.drive b).callbacks = e.callbacks := rfl
@[simp] theorem Engine.drive_freeCallbacks (b : Bit) : (e.drive b).freeCallbacks = e.freeCallbacks := rfl
@[simp] theorem Engine.drive_trace (b : Bit) : (e.drive b).trace = .drive b :: e.trace := rfl
@[simp] theorem Engine.drive_returned (b : Bit) : (e.drive b).returned = e.returned := rfl

/-! ### `setPort` -/

@[simp] theorem Engine.setPort_stage (b : Bit) : (e.setPort b).stage = e.stage := rfl
@[simp] theorem Engine.setPort_ignoreOneChange (b : Bit) : (e.setPort b).ignoreOneChange = e.ignoreOneChange := rfl
@[simp] theorem Engine.setPort_alarm (b : Bit) : (e.setPort b).alarm = e.alarm := rfl
@[simp] theorem Engine.setPort_error (b : Bit) : (e.setPort b).error = e.error := rfl
@[simp] theorem Engine.setPort_slotStarted (b : Bit) : (e.setPort b).slotStarted = e.slotStarted := rfl
@[simp] theorem Engine.setPort_fsCount (b : Bit) : (e.setPort b).fsCount = e.fsCount := rfl
@[simp] theorem Engine.setPort_timerArmed (b : Bit) : (e.setPort b).timerArmed = e.timerArmed := rfl
@[simp] theorem Engine.setPort_timerCount (b : Bit) : (e.setPort b).timerCount = e.timerCount := rfl
@[simp] theorem Engine.setPort_lineDdr (b : Bit) : (e.setPort b).lineDdr = e.lineDdr := rfl
@[simp] theorem Engine.setPort_linePort (b : Bit) : (e.setPort b).linePort = b := rfl
@[simp] theorem Engine.setPort_store (b : Bit) : (e.setPort b).store = e.store := rfl
@[simp] theorem Engine.setPort_bus (b : Bit) : (e.setPort b).bus = e.bus := rfl
@[simp] theorem Engine.setPort_started (b : Bit) : (e.setPort b).started = e.started := rfl
@[simp] theorem Engine.setPort_draws (b : Bit) : (e.setPort b).draws = e.draws := rfl
@[simp] theorem Engine.setPort_freeDraws (b : Bit) : (e.setPort b).freeDraws = e.freeDraws := rfl
@[simp] theorem Engine.setPort_callbacks (b : Bit) : (e.setPort b).callbacks = e.callbacks := rfl
@[simp] theorem Engine.setPort_freeCallbacks (b : Bit) : (e.setPort b).freeCallbacks = e.freeCallbacks := rfl
@[simp] theorem Engine.setPort_trace (b : Bit) : (e.setPort b).trace = .port b :: e.trace := rfl
@[simp] theorem Engine.setPort_returned (b : Bit) : (e.setPort b).returned = e.returned := rfl

/-! ### `timerSet` -/

@[simp] theorem Engine.timerSet_stage (c : Config) (n : Nat) : (e.timerSet c n).stage = e.stage := rfl
@[simp] theorem Engine.timerSet_ignoreOneChange (c : Config) (n : Nat) : (e.timerSet c n).ignoreOneChange = e.ignoreOneChange := rfl
@[simp] theorem Engine.timerSet_alarm (c : Config) (n : Nat) : (e.timerSet c n).alarm = e.alarm := rfl
@[simp] theorem Engine.timerSet_error (c : Config) (n : Nat) : (e.timerSet c n).error = e.error := rfl
@[simp] theorem Engine.timerSet_slotStarted (c : Config) (n : Nat) : (e.timerSet c n).slotStarted = e.slotStarted := rfl
@[simp] theorem Engine.timerSet_fsCount (c : Config) (n : Nat) : (e.timerSet c n).fsCount = e.fsCount := rfl
@[simp] theorem Engine.timerSet_timerArmed (c : Config) (n : Nat) : (e.timerSet c n).timerArmed = true := rfl
@[simp] theorem Engine.timerSet_timerCount (c : Config) (n : Nat) : (e.timerSet c n).timerCount = fit c.timerCountBits n := rfl
@[simp] theorem Engine.timerSet_lineDdr (c : Config) (n : Nat) : (e.timerSet c n).lineDdr = e.lineDdr := rfl
@[simp] theorem Engine.timerSet_linePort (c : Config) (n : Nat) : (e.timerSet c n).linePort = e.linePort := rfl
@[simp] theorem Engine.timerSet_store (c : Config) (n : Nat) : (e.timerSet c n).store = e.store := rfl
@[simp] theorem Engine.timerSet_bus (c : Config) (n : Nat) : (e.timerSet c n).bus = e.bus := rfl
@[simp] theorem Engine.timerSet_started (c : Config) (n : Nat) : (e.timerSet c n).started = e.started := rfl
@[simp] theorem Engine.timerSet_draws (c : Config) (n : Nat) : (e.timerSet c n).draws = e.draws := rfl
@[simp] theorem Engine.timerSet_freeDraws (c : Config) (n : Nat) : (e.timerSet c n).freeDraws = e.freeDraws := rfl
@[simp] theorem Engine.timerSet_callbacks (c : Config) (n : Nat) : (e.timerSet c n).callbacks = e.callbacks := rfl
@[simp] theorem Engine.timerSet_freeCallbacks (c : Config) (n : Nat) : (e.timerSet c n).freeCallbacks = e.freeCallbacks := rfl
@[simp] theorem Engine.timerSet_trace (c : Config) (n : Nat) : (e.timerSet c n).trace = .tset n :: e.trace := rfl
@[simp] theorem Engine.timerSet_returned (c : Config) (n : Nat) : (e.timerSet c n).returned = e.returned := rfl

/-! ### `timerCancel` -/

@[simp] theorem Engine.timerCancel_stage : (e.timerCancel).stage = e.stage := rfl
@[simp] theorem Engine.timerCancel_ignoreOneChange : (e.timerCancel).ignoreOneChange = e.ignoreOneChange := rfl
@[simp] theorem Engine.timerCancel_alarm : (e.timerCancel).alarm = e.alarm := rfl
@[simp] theorem Engine.timerCancel_error : (e.timerCancel).error = e.error := rfl
@[simp] theorem Engine.timerCancel_slotStarted : (e.timerCancel).slotStarted = e.slotStarted := rfl
@[simp] theorem Engine.timerCancel_fsCount : (e.timerCancel).fsCount = e.fsCount := rfl
@[simp] theorem Engine.timerCancel_timerArmed : (e.timerCancel).timerArmed = false := rfl
@[simp] theorem Engine.timerCancel_timerCount : (e.timerCancel).timerCount = e.timerCount := rfl
@[simp] theorem Engine.timerCancel_lineDdr : (e.timerCancel).lineDdr = e.lineDdr := rfl
@[simp] theorem Engine.timerCancel_linePort : (e.timerCancel).linePort = e.linePort := rfl
@[simp] theorem Engine.timerCancel_store : (e.timerCancel).store = e.store := rfl
@[simp] theorem Engine.timerCancel_bus : (e.timerCancel).bus = e.bus := rfl
@[simp] theorem Engine.timerCancel_started : (e.timerCancel).started = e.started := rfl
@[simp] theorem Engine.timerCancel_draws : (e.timerCancel).draws = e.draws := rfl
@[simp] theorem Engine.timerCancel_freeDraws : (e.timerCancel).freeDraws = e.freeDraws := rfl
@[simp] theorem Engine.timerCancel_callbacks : (e.timerCancel).callbacks = e.callbacks := rfl
@[simp] theorem Engine.timerCancel_freeCallbacks : (e.timerCancel).freeCallbacks = e.freeCallbacks := rfl
@[simp] theorem Engine.timerCancel_trace : (e.timerCancel).trace = .tcancel :: e.trace := rfl
@[simp] theorem Engine.timerCancel_returned : (e.timerCancel).returned = e.returned := rfl

/-! ### `delay` -/

@[simp] theorem Engine.delay_stage (d : DelayName) : (e.delay d).stage = e.stage := rfl
@[simp] theorem Engine.delay_ignoreOneChange (d : DelayName) : (e.delay d).ignoreOneChange = e.ignoreOneChange := rfl
@[simp] theorem Engine.delay_alarm (d : DelayName) : (e.delay d).alarm = e.alarm := rfl
@[simp] theorem Engine.delay_error (d : DelayName) : (e.delay d).error = e.error := rfl
@[simp] theorem Engine.delay_slotStarted (d : DelayName) : (e.delay d).slotStarted = e.slotStarted := rfl
@[simp] theorem Engine.delay_fsCount (d : DelayName) : (e.delay d).fsCount = e.fsCount := rfl
@[simp] theorem Engine.delay_timerArmed (d : DelayName) : (e.delay d).timerArmed = e.timerArmed := rfl
@[simp] theorem Engine.delay_timerCount (d : DelayName) : (e.delay d).timerCount = e.timerCount := rfl
@[simp] theorem Engine.delay_lineDdr (d : DelayName) : (e.delay d).lineDdr = e.lineDdr := rfl
@[simp] theorem Engine.delay_linePort (d : DelayName) : (e.delay d).linePort = e.linePort := rfl
@[simp] theorem Engine.delay_store (d : DelayName) : (e.delay d).store = e.store := rfl
@[simp] theorem Engine.delay_bus (d : DelayName) : (e.delay d).bus = e.bus := rfl
@[simp] theorem Engine.delay_started (d : DelayName) : (e.delay d).started = e.started := rfl
@[simp] theorem Engine.delay_draws (d : DelayName) : (e.delay d).draws = e.draws := rfl
@[simp] theorem Engine.delay_freeDraws (d : DelayName) : (e.delay d).freeDraws = e.freeDraws := rfl
@[simp] theorem Engine.delay_callbacks (d : DelayName) : (e.delay d).callbacks = e.callbacks := rfl
@[simp] theorem Engine.delay_freeCallbacks (d : DelayName) : (e.delay d).freeCallbacks = e.freeCallbacks := rfl
@[simp] theorem Engine.delay_trace (d : DelayName) : (e.delay d).trace = .delay d :: e.trace := rfl
@[simp] theorem Engine.delay_returned (d : DelayName) : (e.delay d).returned = e.returned := rfl

/-! ### `deadlineMiss` -/

@[simp] theorem Engine.deadlineMiss_stage (f : FaultSite) : (e.deadlineMiss f).stage = e.stage := rfl
@[simp] theorem Engine.deadlineMiss_ignoreOneChange (f : FaultSite) : (e.deadlineMiss f).ignoreOneChange = e.ignoreOneChange := rfl
@[simp] theorem Engine.deadlineMiss_alarm (f : FaultSite) : (e.deadlineMiss f).alarm = e.alarm := rfl
@[simp] theorem Engine.deadlineMiss_error (f : FaultSite) : (e.deadlineMiss f).error = true := rfl
@[simp] theorem Engine.deadlineMiss_slotStarted (f : FaultSite) : (e.deadlineMiss f).slotStarted = e.slotStarted := rfl
@[simp] theorem Engine.deadlineMiss_fsCount (f : FaultSite) : (e.deadlineMiss f).fsCount = e.fsCount := rfl
@[simp] theorem Engine.deadlineMiss_timerArmed (f : FaultSite) : (e.deadlineMiss f).timerArmed = e.timerArmed := rfl
@[simp] theorem Engine.deadlineMiss_timerCount (f : FaultSite) : (e.deadlineMiss f).timerCount = e.timerCount := rfl
@[simp] theorem Engine.deadlineMiss_lineDdr (f : FaultSite) : (e.deadlineMiss f).lineDdr = e.lineDdr := rfl
@[simp] theorem Engine.deadlineMiss_linePort (f : FaultSite) : (e.deadlineMiss f).linePort = e.linePort := rfl
@[simp] theorem Engine.deadlineMiss_store (f : FaultSite) : (e.deadlineMiss f).store = e.store := rfl
@[simp] theorem Engine.deadlineMiss_bus (f : FaultSite) : (e.deadlineMiss f).bus = e.bus := rfl
@[simp] theorem Engine.deadlineMiss_started (f : FaultSite) : (e.deadlineMiss f).started = e.started := rfl
@[simp] theorem Engine.deadlineMiss_draws (f : FaultSite) : (e.deadlineMiss f).draws = e.draws := rfl
@[simp] theorem Engine.deadlineMiss_freeDraws (f : FaultSite) : (e.deadlineMiss f).freeDraws = e.freeDraws := rfl
@[simp] theorem Engine.deadlineMiss_callbacks (f : FaultSite) : (e.deadlineMiss f).callbacks = e.callbacks := rfl
@[simp] theorem Engine.deadlineMiss_freeCallbacks (f : FaultSite) : (e.deadlineMiss f).freeCallbacks = e.freeCallbacks := rfl
@[simp] theorem Engine.deadlineMiss_trace (f : FaultSite) : (e.deadlineMiss f).trace = .fault f :: e.trace := rfl
@[simp] theorem Engine.deadlineMiss_returned (f : FaultSite) : (e.deadlineMiss f).returned = e.returned := rfl

/-! ### `endFrame` -/

@[simp] theorem Engine.endFrame_stage : (e.endFrame).stage = e.stage := rfl
@[simp] theorem Engine.endFrame_ignoreOneChange : (e.endFrame).ignoreOneChange = e.ignoreOneChange := rfl
@[simp] theorem Engine.endFrame_alarm : (e.endFrame).alarm = e.alarm := rfl
@[simp] theorem Engine.endFrame_error : (e.endFrame).error = false := rfl
@[simp] theorem Engine.endFrame_slotStarted : (e.endFrame).slotStarted = false := rfl
@[simp] theorem Engine.endFrame_fsCount : (e.endFrame).fsCount = e.fsCount := rfl
@[simp] theorem Engine.endFrame_timerArmed : (e.endFrame).timerArmed = e.timerArmed := rfl
@[simp] theorem Engine.endFrame_timerCount : (e.endFrame).timerCount = e.timerCount := rfl
@[simp] theorem Engine.endFrame_lineDdr : (e.endFrame).lineDdr = e.lineDdr := rfl
@[simp] theorem Engine.endFrame_linePort : (e.endFrame).linePort = e.linePort := rfl
@[simp] theorem Engine.endFrame_store : (e.endFrame).store = e.store := rfl
@[simp] theorem Engine.endFrame_bus : (e.endFrame).bus = e.bus := rfl
@[simp] theorem Engine.endFrame_started : (e.endFrame).started = e.started := rfl
@[simp] theorem Engine.endFrame_draws : (e.endFrame).draws = e.draws := rfl
@[simp] theorem Engine.endFrame_freeDraws : (e.endFrame).freeDraws = e.freeDraws := rfl
@[simp] theorem Engine.endFrame_callbacks : (e.endFrame).callbacks = e.callbacks := rfl
@[simp] theorem Engine.endFrame_freeCallbacks : (e.endFrame).freeCallbacks = e.freeCallbacks := rfl
@[simp] theorem Engine.endFrame_trace : (e.endFrame).trace = e.trace := rfl
@[simp] theorem Engine.endFrame_returned : (e.endFrame).returned = e.returned := rfl

/-! ### `shortCircuit` -/

@[simp] theorem Engine.shortCircuit_stage : (e.shortCircuit).stage = .idle := rfl
@[simp] theorem Engine.shortCircuit_ignoreOneChange : (e.shortCircuit).ignoreOneChange = e.ignoreOneChange := rfl
@[simp] theorem Engine.shortCircuit_alarm : (e.shortCircuit).alarm = e.alarm := rfl
@[simp] theorem Engine.shortCircuit_error : (e.shortCircuit).error = false := rfl
@[simp] theorem Engine.shortCircuit_slotStarted : (e.shortCircuit).slotStarted = e.slotStarted := rfl
@[simp] theorem Engine.shortCircuit_fsCount : (e.shortCircuit).fsCount = e.fsCount := rfl
@[simp] theorem Engine.shortCircuit_timerArmed : (e.shortCircuit).timerArmed = e.timerArmed := rfl
@[simp] theorem Engine.shortCircuit_timerCount : (e.shortCircuit).timerCount = e.timerCount := rfl
@[simp] theorem Engine.shortCircuit_lineDdr : (e.shortCircuit).lineDdr = e.lineDdr := rfl
@[simp] theorem Engine.shortCircuit_linePort : (e.shortCircuit).linePort = e.linePort := rfl
@[simp] theorem Engine.shortCircuit_store : (e.shortCircuit).store = e.store := rfl
@[simp] theorem Engine.shortCircuit_bus : (e.shortCircuit).bus = e.bus := rfl
@[simp] theorem Engine.shortCircuit_started : (e.shortCircuit).started = e.started := rfl
@[simp] theorem Engine.shortCircuit_draws : (e.shortCircuit).draws = e.draws := rfl
@[simp] theorem Engine.shortCircuit_freeDraws : (e.shortCircuit).freeDraws = e.freeDraws := rfl
@[simp] theorem Engine.shortCircuit_callbacks : (e.shortCircuit).callbacks = e.callbacks := rfl
@[simp] theorem Engine.shortCircuit_freeCallbacks : (e.shortCircuit).freeCallbacks = e.freeCallbacks := rfl
@[simp] theorem Engine.shortCircuit_trace : (e.shortCircuit).trace = .fault .presenceRelease :: e.trace := rfl
@[simp] theorem Engine.shortCircuit_returned : (e.shortCircuit).returned = e.returned := rfl

/-! ### `goto` -/

@[simp] theorem Engine.goto_stage (st : Stage) : (e.goto st).stage = st := rfl
@[simp] theorem Engine.goto_ignoreOneChange (st : Stage) : (e.goto st).ignoreOneChange = e.ignoreOneChange := rfl
@[simp] theorem Engine.goto_alarm (st : Stage) : (e.goto st).alarm = e.alarm := rfl
@[simp] theorem Engine.goto_error (st : Stage) : (e.goto st).error = e.error := rfl
@[simp] theorem Engine.goto_slotStarted (st : Stage) : (e.goto st).slotStarted = e.slotStarted := rfl
@[simp] theorem Engine.goto_fsCount (st : Stage) : (e.goto st).fsCount = e.fsCount := rfl
@[simp] theorem Engine.goto_timerArmed (st : Stage) : (e.goto st).timerArmed = e.timerArmed := rfl
@[simp] theorem Engine.goto_timerCount (st : Stage) : (e.goto st).timerCount = e.timerCount := rfl
@[simp] theorem Engine.goto_lineDdr (st : Stage) : (e.goto st).lineDdr = e.lineDdr := rfl
@[simp] theorem Engine.goto_linePort (st : Stage) : (e.goto st).linePort = e.linePort := rfl
@[simp] theorem Engine.goto_store (st : Stage) : (e.goto st).store = e.store := rfl
@[simp] theorem Engine.goto_bus (st : Stage) : (e.goto st).bus = e.bus := rfl
@[simp] theorem Engine.goto_started (st : Stage) : (e.goto st).started = e.started := rfl
@[simp] theorem Engine.goto_draws (st : Stage) : (e.goto st).draws = e.draws := rfl
@[simp] theorem Engine.goto_freeDraws (st : Stage) : (e.goto st).freeDraws = e.freeDraws := rfl
@[simp] theorem Engine.goto_callbacks (st : Stage) : (e.goto st).callbacks = e.callbacks := rfl
@[simp] theorem Engine.goto_freeCallbacks (st : Stage) : (e.goto st).freeCallbacks = e.freeCallbacks := rfl
@[simp] theorem Engine.goto_trace (st : Stage) : (e.goto st).trace = e.trace := rfl
@[simp] theorem Engine.goto_returned (st : Stage) : (e.goto st).returned = e.returned := rfl

/-! ### `setAlarm` -/

@[simp] theorem Engine.setAlarm_stage (b : Bit) : (e.setAlarm b).stage = e.stage := rfl
@[simp] theorem Engine.setAlarm_ignoreOneChange (b : Bit) : (e.setAlarm b).ignoreOneChange = e.ignoreOneChange := rfl
@[simp] theorem Engine.setAlarm_alarm (b : Bit) : (e.setAlarm b).alarm = b := rfl
@[simp] theorem Engine.setAlarm_error (b : Bit) : (e.setAlarm b).error = e.error := rfl
@[simp] theorem Engine.setAlarm_slotStarted (b : Bit) : (e.setAlarm b).slotStarted = e.slotStarted := rfl
@[simp] theorem Engine.setAlarm_fsCount (b : Bit) : (e.setAlarm b).fsCount = e.fsCount := rfl
@[simp] theorem Engine.setAlarm_timerArmed (b : Bit) : (e.setAlarm b).timerArmed = e.timerArmed := rfl
@[simp] theorem Engine.setAlarm_timerCount (b : Bit) : (e.setAlarm b).timerCount = e.timerCount := rfl
@[simp] theorem Engine.setAlarm_lineDdr (b : Bit) : (e.setAlarm b).lineDdr = e.lineDdr := rfl
@[simp] theorem Engine.setAlarm_linePort (b : Bit) : (e.setAlarm b).linePort = e.linePort := rfl
@[simp] theorem Engine.setAlarm_store (b : Bit) : (e.setAlarm b).store = e.store := rfl
@[simp] theorem Engine.setAlarm_bus (b : Bit) : (e.setAlarm b).bus = e.bus := rfl
@[simp] theorem Engine.setAlarm_started (b : Bit) : (e.setAlarm b).started = e.started := rfl
@[simp] theorem Engine.setAlarm_draws (b : Bit) : (e.setAlarm b).draws = e.draws := rfl
@[simp] theorem Engine.setAlarm_freeDraws (b : Bit) : (e.setAlarm b).freeDraws = e.freeDraws := rfl
@[simp] theorem Engine.setAlarm_callbacks (b : Bit) : (e.setAlarm b).callbacks = e.callbacks := rfl
@[simp] theorem Engine.setAlarm_freeCallbacks (b : Bit) : (e.setAlarm b).freeCallbacks = e.freeCallbacks := rfl
@[simp] theorem Engine.setAlarm_trace (b : Bit) : (e.setAlarm b).trace = e.trace := rfl
@[simp] theorem Engine.setAlarm_returned (b : Bit) : (e.setAlarm b).returned = e.returned := rfl

/-! ### `setError` -/

@[simp] theorem Engine.setError_stage (b : Bit) : (e.setError b).stage = e.stage := rfl
@[simp] theorem Engine.setError_ignoreOneChange (b : Bit) : (e.setError b).ignoreOneChange = e.ignoreOneChange := rfl
@[simp] theorem Engine.setError_alarm (b : Bit) : (e.setError b).alarm = e.alarm := rfl
@[simp] theorem Engine.setError_error (b : Bit) : (e.setError b).error = b := rfl
@[simp] theorem Engine.setError_slotStarted (b : Bit) : (e.setError b).slotStarted = e.slotStarted := rfl
@[simp] theorem Engine.setError_fsCount (b : Bit) : (e.setError b).fsCount = e.fsCount := rfl
@[simp] theorem Engine.setError_timerArmed (b : Bit) : (e.setError b).timerArmed = e.timerArmed := rfl
@[simp] theorem Engine.setError_timerCount (b : Bit) : (e.setError b).timerCount = e.timerCount := rfl
@[simp] theorem Engine.setError_lineDdr (b : Bit) : (e.setError b).lineDdr = e.lineDdr := rfl
@[simp] theorem Engine.setError_linePort (b : Bit) : (e.setError b).linePort = e.linePort := rfl
@[simp] theorem Engine.setError_store (b : Bit) : (e.setError b).store = e.store := rfl
@[simp] theorem Engine.setError_bus (b : Bit) : (e.setError b).bus = e.bus := rfl
@[simp] theorem Engine.setError_started (b : Bit) : (e.setError b).started = e.started := rfl
@[simp] theorem Engine.setError_draws (b : Bit) : (e.setError b).draws = e.draws := rfl
@[simp] theorem Engine.setError_freeDraws (b : Bit) : (e.setError b).freeDraws = e.freeDraws := rfl
@[simp] theorem Engine.setError_callbacks (b : Bit) : (e.setError b).callbacks = e.callbacks := rfl
@[simp] theorem Engine.setError_freeCallbacks (b : Bit) : (e.setError b).freeCallbacks = e.freeCallbacks := rfl
@[simp] theorem Engine.setError_trace (b : Bit) : (e.setError b).trace = e.trace := rfl
@[simp] theorem Engine.setError_returned (b : Bit) : (e.setError b).returned = e.returned := rfl

/-! ### `onEngine` and `withAlarm` -/

variable (s : State) (f : Config → Engine → Engine)

@[simp] theorem State.onEngine_config : (s.onEngine f).config = s.config := rfl
@[simp] theorem State.onEngine_engine : (s.onEngine f).engine = f s.config s.engine := rfl
@[simp] theorem State.onEngine_parked : (s.onEngine f).parked = s.parked := rfl
@[simp] theorem State.onEngine_inputs : (s.onEngine f).inputs = s.inputs := rfl

@[simp] theorem State.withAlarm_config (a : Bit) : (s.withAlarm a).config = s.config := rfl
@[simp] theorem State.withAlarm_engine (a : Bit) :
    (s.withAlarm a).engine = { s.engine with alarm := a } := rfl
@[simp] theorem State.withAlarm_parked (a : Bit) : (s.withAlarm a).parked = s.parked := rfl
@[simp] theorem State.withAlarm_inputs (a : Bit) : (s.withAlarm a).inputs = s.inputs := rfl

end Sys2Proof.Machine
end

