-- ==== Sys2Proof/Laws/Ops.lean ====
section
/-! SUPPORT. What the primitives of Machine/Ops.lean do: the configuration's facts, widths, sampling, and which engine
has the focus. -/

namespace Sys2Proof.Machine

/-! ### The configuration -/

/-- What a valid configuration gives, in the form proofs use it. -/
structure ConfigFacts (c : Config) : Prop where
  resetMin : 1 ≤ c.ticksResetMin ∧ c.ticksResetMin < 2 ^ c.timerCountBits
  resetWindow : 1 ≤ c.ticksResetWindow ∧ c.ticksResetWindow < 2 ^ c.timerCountBits
  presence : 1 ≤ c.ticksPresence ∧ c.ticksPresence < 2 ^ c.timerCountBits
  retry : 1 ≤ c.ticksFsRetry ∧ c.ticksFsRetry < 2 ^ c.timerCountBits
  rounds : 1 ≤ c.nFirstSignal ∧ c.nFirstSignal < 2 ^ c.fsCountBits
  presenceRelease : 1 ≤ c.nPresenceRelease
  rdStart : 1 ≤ c.nRdStart
  rdRelease : 1 ≤ c.nRdRelease
  wrStart : 1 ≤ c.nWrStart
  wrRelease : 1 ≤ c.nWrRelease
  engines : 1 ≤ c.numInstances

theorem configValid_facts {c : Config} (h : configValid c = true) : ConfigFacts c := by
  simp only [configValid, List.all_cons, List.all_nil, id, Bool.and_true, Bool.and_eq_true, decide_eq_true_eq] at h
  constructor <;> omega

/-! ### Widths -/

theorem fit_of_lt {w n : Nat} (h : n < 2 ^ w) : fit w n = n := Nat.mod_eq_of_lt h

theorem fit_lt (w n : Nat) : fit w n < 2 ^ w := Nat.mod_lt _ (Nat.two_pow_pos w)

theorem decr_lt (w n : Nat) : decr w n < 2 ^ w := Nat.mod_lt _ (Nat.two_pow_pos w)

theorem decr_of_pos {w n : Nat} (h : 1 ≤ n) (hn : n ≤ 2 ^ w) : decr w n = n - 1 := by
  have hp := Nat.two_pow_pos w
  have h2 : n + (2 ^ w - 1) = (n - 1) + 2 ^ w := by omega
  rw [decr, h2, Nat.add_mod_right, Nat.mod_eq_of_lt (by omega)]

@[simp] theorem decr_one (w : Nat) : decr w 1 = 0 := decr_of_pos (Nat.le_refl 1) Nat.one_le_two_pow

/-! ### Sampling -/

theorem Engine.pin_scripted {e : Engine} {v : Bit} {vs : List Bit} (h : e.draws = v :: vs) :
    e.pin = (v, { e with draws := vs, trace := .sample v :: e.trace }) := by
  simp only [Engine.pin, Engine.nextLevel, h]
  rfl

theorem Engine.pin_free {e : Engine} (h : e.draws = []) :
    e.pin = (Config.freeLevel e.bus e.freeDraws,
      { e with
        freeDraws := e.freeDraws + 1
        trace := .sample (Config.freeLevel e.bus e.freeDraws) :: e.trace }) := by
  simp only [Engine.pin, Engine.nextLevel, h]
  rfl

/-- All a sample can do: it takes a draw and records the level it gives. -/
theorem Engine.pin_spec (e : Engine) : ∃ ds n,
    e.pin.2 = { e with draws := ds, freeDraws := n, trace := .sample e.pin.1 :: e.trace } := by
  cases h : e.draws with
  | nil => exact ⟨e.draws, e.freeDraws + 1, by rw [Engine.pin_free h]⟩
  | cons v vs => exact ⟨vs, e.freeDraws, by rw [Engine.pin_scripted h]⟩

/-! ### Which engine has the focus -/

theorem takeBus_spec {bus : Nat} {es es' : List Engine} {e : Engine} (h : takeBus bus es = some (e, es')) :
    e.bus = bus ∧ ∃ l r, es = l ++ e :: r ∧ es' = l ++ r ∧ ∀ x ∈ l, x.bus ≠ bus := by
  induction es generalizing es' with
  | nil => simp [takeBus] at h
  | cons x xs ih =>
    by_cases hx : x.bus = bus
    · simp only [takeBus, hx, if_true, Option.some.injEq, Prod.mk.injEq] at h
      obtain ⟨rfl, rfl⟩ := h
      exact ⟨hx, [], xs, by simp⟩
    · simp only [takeBus, hx, if_false] at h
      split at h
      · rename_i f fs hf
        simp only [Option.some.injEq, Prod.mk.injEq] at h
        obtain ⟨rfl, rfl⟩ := h
        obtain ⟨hb, l, r, rfl, rfl, hl⟩ := ih hf
        exact ⟨hb, x :: l, r, by simp, by simp, by simpa [hx] using hl⟩
      · simp at h

theorem takeBus_eq_none {bus : Nat} {es : List Engine} : takeBus bus es = none ↔ ∀ x ∈ es, x.bus ≠ bus := by
  induction es with
  | nil => simp [takeBus]
  | cons x xs ih =>
    by_cases hx : x.bus = bus
    · simp [takeBus, hx]
    · simp only [takeBus, hx, if_false, List.mem_cons, forall_eq_or_imp, ne_eq, not_false_eq_true, true_and]
      rw [← ih]
      split <;> simp_all

theorem State.focus_self (s : State) : s.focus s.engine.bus = some s := by simp [State.focus]

/-- All that focusing can do: the engine of the bus comes to the front, and the engines are the same ones. -/
theorem State.focus_spec {bus : Nat} {s f : State} (h : s.focus bus = some f) :
    f.engine.bus = bus ∧ f.config = s.config ∧ f.inputs = s.inputs ∧
      (f.engine :: f.parked).Perm (s.engine :: s.parked) := by
  unfold State.focus at h
  split at h
  · rename_i hb
    simp only [Option.some.injEq] at h
    subst h
    exact ⟨hb, rfl, rfl, List.Perm.refl _⟩
  · split at h
    · rename_i e es he
      simp only [Option.some.injEq] at h
      subst h
      obtain ⟨hb, l, r, h1, h2, -⟩ := takeBus_spec he
      refine ⟨hb, rfl, rfl, ?_⟩
      show (e :: s.engine :: es).Perm (s.engine :: s.parked)
      rw [h1, h2]
      exact (List.Perm.swap _ _ _).trans (List.Perm.cons _ List.perm_middle.symm)
    · simp at h

end Sys2Proof.Machine
end

