-- ==== Sys2Proof/Laws/Memory.lean ====
section
/-! SUPPORT. The identifier store: every operation keeps the canonical form, and a read after provisioning gives the
provisioned byte. -/

namespace Sys2Proof.Machine

theorem memWfFrom_mono {lo hi : Nat} (h : lo ≤ hi) {m : Memory} (hm : memWfFrom hi m = true) :
    memWfFrom lo m = true := by
  cases m with
  | nil => rfl
  | cons p m =>
    simp only [memWfFrom, Bool.and_eq_true, decide_eq_true_eq] at hm ⊢
    exact ⟨⟨⟨Nat.le_trans h hm.1.1.1, hm.1.1.2⟩, hm.1.2⟩, hm.2⟩

/-- Setting a byte inside 0 to 7 keeps the canonical form. -/
theorem memSet_wfFrom {lo a : Nat} {v : Byte} {m : Memory} (hm : memWfFrom lo m = true) (hlo : lo ≤ a) (ha : a < 8) :
    memWfFrom lo (memSet m a v) = true := by
  induction m generalizing lo with
  | nil => by_cases hv : v = unlistedByte <;> simp [memSet, memWfFrom, hv, hlo, ha]
  | cons p m ih =>
    obtain ⟨b, w⟩ := p
    simp only [memWfFrom, Bool.and_eq_true, decide_eq_true_eq] at hm
    obtain ⟨⟨⟨h1, h2⟩, h3⟩, h4⟩ := hm
    unfold memSet
    split
    · rename_i hab
      by_cases hv : v = unlistedByte
      · simp [memWfFrom, hv, h1, h2, h3, h4]
      · simp [memWfFrom, hv, h2, h3, h4, hlo, ha]
        omega
    · rename_i hab
      split
      · rename_i hab'
        subst hab'
        by_cases hv : v = unlistedByte
        · simp [hv]
          exact memWfFrom_mono (by omega) h4
        · simp [memWfFrom, hv, h1, h2, h4]
      · rename_i hne
        simp only [memWfFrom, Bool.and_eq_true, decide_eq_true_eq]
        exact ⟨⟨⟨h1, h2⟩, h3⟩, ih h4 (by omega)⟩

theorem memSet_wf {a : Nat} {v : Byte} {m : Memory} (hm : Memory.wf m = true) (ha : a < 8) :
    Memory.wf (memSet m a v) = true := memSet_wfFrom hm (Nat.zero_le a) ha

/-- Below the first listed address every byte reads as unlisted. -/
theorem idByte_below {lo a : Nat} {m : Memory} (hm : memWfFrom lo m = true) (h : a < lo) :
    idByte m a = unlistedByte := by
  induction m generalizing lo with
  | nil => rfl
  | cons p m ih =>
    obtain ⟨b, w⟩ := p
    simp only [memWfFrom, Bool.and_eq_true, decide_eq_true_eq] at hm
    have hab : a ≠ b := by omega
    simp only [idByte, hab, if_false]
    exact ih hm.2 (by omega)

theorem idByte_memSet_from {lo a x : Nat} {v : Byte} {m : Memory} (hm : memWfFrom lo m = true) :
    idByte (memSet m a v) x = if x = a then v else idByte m x := by
  induction m generalizing lo with
  | nil =>
    by_cases hv : v = unlistedByte
    · by_cases hx : x = a <;> simp [memSet, idByte, hv, hx]
    · by_cases hx : x = a <;> simp [memSet, idByte, hv, hx]
  | cons p m ih =>
    obtain ⟨b, w⟩ := p
    have hm0 := hm
    simp only [memWfFrom, Bool.and_eq_true, decide_eq_true_eq] at hm
    unfold memSet
    split
    · rename_i hab
      have hlow : idByte ((b, w) :: m) a = unlistedByte := by
        have hne : a ≠ b := by omega
        simp only [idByte, hne, if_false]
        exact idByte_below hm.2 (by omega)
      by_cases hv : v = unlistedByte
      · by_cases hx : x = a
        · simp [hv, hx, hlow]
        · simp [hv, hx]
      · by_cases hx : x = a <;> simp [hv, idByte, hx]
    · split
      · rename_i hab
        subst hab
        by_cases hv : v = unlistedByte
        · by_cases hx : x = a
          · subst hx
            simp [hv, idByte_below hm.2 (Nat.lt_succ_self x)]
          · simp [hv, idByte, hx]
        · by_cases hx : x = a <;> simp [hv, idByte, hx]
      · rename_i hab hne
        by_cases hx : x = b
        · subst hx
          simp [idByte, Ne.symm hne]
        · simp [idByte, hx, ih hm.2]

/-- A read after a write: the written byte at its address, every other byte as before. -/
theorem idByte_memSet {a x : Nat} {v : Byte} {m : Memory} (hm : Memory.wf m = true) :
    idByte (memSet m a v) x = if x = a then v else idByte m x := idByte_memSet_from hm

theorem provisionFrom_spec {a : Nat} {vs : List Byte} {m : Memory} (hm : Memory.wf m = true) (h : a + vs.length ≤ 8) :
    Memory.wf (provisionFrom a vs m) = true ∧
      ∀ x, idByte (provisionFrom a vs m) x =
        if a ≤ x ∧ x < a + vs.length then vs.getD (x - a) unlistedByte else idByte m x := by
  induction vs generalizing a m with
  | nil =>
    refine ⟨hm, fun x => ?_⟩
    have hx : ¬(a ≤ x ∧ x < a + ([] : List Byte).length) := by simp
    rw [if_neg hx]
    rfl
  | cons v vs ih =>
    simp only [List.length_cons] at h
    obtain ⟨h1, h2⟩ := ih (a := a + 1) (memSet_wf hm (a := a) (v := v) (by omega)) (by omega)
    refine ⟨h1, fun x => ?_⟩
    rw [provisionFrom, h2, idByte_memSet hm]
    simp only [List.length_cons]
    by_cases hx : x = a
    · subst hx
      have h3 : ¬(x + 1 ≤ x) := by omega
      simp [h3]
    · by_cases hin : a + 1 ≤ x ∧ x < a + 1 + vs.length
      · have hin' : a ≤ x ∧ x < a + (vs.length + 1) := by omega
        rw [if_pos hin, if_pos hin']
        obtain ⟨d, rfl⟩ := Nat.exists_eq_add_of_le hin.1
        have e1 : a + 1 + d - a = d + 1 := by omega
        have e2 : a + 1 + d - (a + 1) = d := by omega
        rw [e1, e2, List.getD_cons_succ]
      · have hin' : ¬(a ≤ x ∧ x < a + (vs.length + 1)) := by omega
        rw [if_neg hin, if_neg hin', if_neg hx]

/-- A provisioned store is canonical. -/
theorem provision_wf (id : List Byte) : Memory.wf (provision id) = true :=
  (provisionFrom_spec (a := 0) (m := []) rfl (by simp)).1

/-- A provisioned store reads as its bytes. -/
theorem idByte_provision {id : List Byte} {a : Nat} (h : id.length ≤ 8) (ha : a < id.length) :
    idByte (provision id) a = id[a] := by
  have h1 : id.take 8 = id := List.take_of_length_le h
  rw [provision, (provisionFrom_spec (a := 0) (m := []) rfl (by simp)).2, h1]
  simp [ha]

end Sys2Proof.Machine
end

