-- ==== Sys2Proof/Laws/Trace.lean ====
section
/-! SUPPORT. Counting and scanning a trace, and the two specifications every operation of the engine meets: `IoSpec` (bit
and byte I/O, and the commands made of it) and `AppSpec` (with a callback inside). -/

namespace Sys2Proof.Machine

/-! ### Pieces of trace -/

@[simp] theorem countOf_nil (p : TraceEntry → Bool) : countOf p [] = 0 := rfl

theorem countOf_append (p : TraceEntry → Bool) (a b : List TraceEntry) :
    countOf p (a ++ b) = countOf p a + countOf p b := List.countP_append

theorem countOf_cons (p : TraceEntry → Bool) (x : TraceEntry) (a : List TraceEntry) :
    countOf p (x :: a) = countOf p a + (if p x then 1 else 0) := List.countP_cons

theorem sunkAfter_append (d : Bit) (a b : List TraceEntry) : sunkAfter d (a ++ b) = sunkAfter (sunkAfter d b) a := by
  induction a with
  | nil => rfl
  | cons x a ih => cases x <;> simp [sunkAfter, ih]

theorem samplesOnlyReleased_append (d : Bit) (a b : List TraceEntry) :
    samplesOnlyReleased d (a ++ b) = (samplesOnlyReleased (sunkAfter d b) a && samplesOnlyReleased d b) := by
  induction a with
  | nil => simp [samplesOnlyReleased]
  | cons x a ih => cases x <;> simp [samplesOnlyReleased, sunkAfter_append, ih, Bool.and_assoc]

theorem takeWhile_of_noCallback {tr : List TraceEntry} (h : countOf TraceEntry.isCallback tr = 0) :
    tr.reverse.takeWhile (fun t => !t.isCallback) = tr.reverse := by
  rw [List.takeWhile_eq_self_iff]
  intro t ht
  have hn := List.countP_eq_zero.mp h t (List.mem_reverse.mp ht)
  simpa using hn

/-- Without a callback every sample counts. -/
theorem samplesBeforeCallback_of_noCallback {tr : List TraceEntry} (h : countOf TraceEntry.isCallback tr = 0) :
    samplesBeforeCallback tr = countOf TraceEntry.isSample tr := by
  rw [samplesBeforeCallback, takeWhile_of_noCallback h, countOf, countOf, List.countP_reverse]

/-- The samples of an older piece without a callback come first. -/
theorem samplesBeforeCallback_append {a b : List TraceEntry} (h : countOf TraceEntry.isCallback b = 0) :
    samplesBeforeCallback (a ++ b) = samplesBeforeCallback a + countOf TraceEntry.isSample b := by
  have hb : ∀ t ∈ b.reverse, (!t.isCallback) = true := fun t ht => by
    simpa using List.countP_eq_zero.mp h t (List.mem_reverse.mp ht)
  rw [samplesBeforeCallback, List.reverse_append, List.takeWhile_append_of_pos hb, countOf_append, samplesBeforeCallback,
    countOf, countOf, List.countP_reverse, Nat.add_comm]
  rfl

/-- Nothing sampled after a callback has begun counts. -/
theorem samplesBeforeCallback_callback (a : List TraceEntry) : samplesBeforeCallback (a ++ [.callback]) = 0 := by
  simp [samplesBeforeCallback, TraceEntry.isCallback]

/-- A `FAULT` count never exceeds what `error` can account for; as a number, `error`. -/
theorem Bool.toNat_le_one' (b : Bool) : b.toNat ≤ 1 := by cases b <;> decide

/-! ### What bit and byte I/O can do -/

/-- The registers bit and byte I/O has nothing to do with. -/
def Engine.outsideIo (e : Engine) : Engine :=
  { e with draws := [], freeDraws := 0, trace := [], error := false, slotStarted := false, lineDdr := false }

/-- The registers a frame's command, its callback included, has nothing to do with. -/
def Engine.outsideApp (e : Engine) : Engine :=
  { e.outsideIo with alarm := false, returned := [], callbacks := [], freeCallbacks := 0 }

/-- All that bit and byte I/O can do, with at most `n` samples and the new entries `tr`. Under `P` the line is not
sampled while it is sunk. -/
structure IoSpec (P : Prop) (n : Nat) (e e' : Engine) (tr : List TraceEntry) : Prop where
  frame : e'.outsideIo = e.outsideIo
  trace : e'.trace = tr ++ e.trace
  error : e.error = true → e'.error = true
  slot : e.slotStarted = false → e'.slotStarted = false
  rel : P → samplesOnlyReleased e.lineDdr tr = true
  sunk : sunkAfter e.lineDdr tr = e'.lineDdr
  samples : countOf TraceEntry.isSample tr ≤ n
  callbacks : countOf TraceEntry.isCallback tr = 0
  faults : countOf TraceEntry.isFault tr + e.error.toNat = e'.error.toNat

theorem IoSpec.refl {P : Prop} (n : Nat) (e : Engine) : IoSpec P n e e [] :=
  ⟨rfl, rfl, id, id, fun _ => rfl, rfl, Nat.zero_le n, rfl, Nat.zero_add _⟩

theorem IoSpec.trans {P : Prop} {n m : Nat} {e e1 e2 : Engine} {t1 t2 : List TraceEntry}
    (h1 : IoSpec P n e e1 t1) (h2 : IoSpec P m e1 e2 t2) : IoSpec P (n + m) e e2 (t2 ++ t1) where
  frame := h2.frame.trans h1.frame
  trace := by rw [h2.trace, h1.trace, List.append_assoc]
  error := fun h => h2.error (h1.error h)
  slot := fun h => h2.slot (h1.slot h)
  rel := fun hp => by rw [samplesOnlyReleased_append, h1.sunk, h2.rel hp, h1.rel hp, Bool.and_self]
  sunk := by rw [sunkAfter_append, h1.sunk, h2.sunk]
  samples := by rw [countOf_append]; have := h1.samples; have := h2.samples; omega
  callbacks := by rw [countOf_append, h1.callbacks, h2.callbacks]
  faults := by rw [countOf_append]; have := h1.faults; have := h2.faults; omega

theorem IoSpec.mono {P : Prop} {n m : Nat} {e e' : Engine} {tr : List TraceEntry} (h : IoSpec P n e e' tr)
    (hnm : n ≤ m) : IoSpec P m e e' tr := { h with samples := Nat.le_trans h.samples hnm }

/-- Some piece of trace witnesses the specification. -/
def Io (P : Prop) (n : Nat) (e e' : Engine) : Prop := ∃ tr, IoSpec P n e e' tr

theorem Io.trans {P : Prop} {n m : Nat} {e e1 e2 : Engine} (h1 : Io P n e e1) (h2 : Io P m e1 e2) :
    Io P (n + m) e e2 :=
  let ⟨_, a⟩ := h1
  let ⟨_, b⟩ := h2
  ⟨_, a.trans b⟩

theorem Io.mono {P : Prop} {n m : Nat} {e e' : Engine} (h : Io P n e e') (hnm : n ≤ m) : Io P m e e' :=
  let ⟨_, a⟩ := h
  ⟨_, a.mono hnm⟩

theorem Io.refl {P : Prop} (n : Nat) (e : Engine) : Io P n e e := ⟨[], IoSpec.refl n e⟩

theorem Io.error {P : Prop} {n : Nat} {e e' : Engine} (h : Io P n e e') (he : e.error = true) : e'.error = true :=
  let ⟨_, a⟩ := h
  a.error he

theorem Io.slot {P : Prop} {n : Nat} {e e' : Engine} (h : Io P n e e') (he : e.slotStarted = false) :
    e'.slotStarted = false :=
  let ⟨_, a⟩ := h
  a.slot he

theorem Io.frame {P : Prop} {n : Nat} {e e' : Engine} (h : Io P n e e') : e'.outsideIo = e.outsideIo :=
  let ⟨_, a⟩ := h
  a.frame

theorem Io.store {P : Prop} {n : Nat} {e e' : Engine} (h : Io P n e e') : e'.store = e.store :=
  (congrArg Engine.store h.frame :)

/-! ### What a command with a callback can do -/

/-- The callback to come cannot miss a second deadline: it does no framing, or never clears `error` (R308). -/
def Engine.CallbackKeepsError (c : Config) (e : Engine) : Prop :=
  c.callbackIo = false ∨ .setErrorOff ∉ e.nextCallback.1

/-- The callback to come depends on the script, the bus and a counter only. -/
theorem Engine.nextCallback_congr {e e' : Engine} (h : e'.callbacks = e.callbacks) (hb : e'.bus = e.bus)
    (hf : e'.freeCallbacks = e.freeCallbacks) : e'.nextCallback.1 = e.nextCallback.1 := by
  simp only [Engine.nextCallback, h, hb, hf]
  split <;> rfl

theorem Io.nextCallback {P : Prop} {n : Nat} {e e' : Engine} (h : Io P n e e') :
    e'.nextCallback.1 = e.nextCallback.1 :=
  Engine.nextCallback_congr (congrArg Engine.callbacks h.frame :) (congrArg Engine.bus h.frame :)
    (congrArg Engine.freeCallbacks h.frame :)

/-- All that a command can do, its callback included. The samples before the callback are bounded in any case;
`CALLBACK_IO` = false bounds them all, and a callback that keeps `error` bounds the faults. -/
structure AppSpec (P : Prop) (c : Config) (n : Nat) (e e' : Engine) (tr : List TraceEntry) : Prop where
  frame : e'.outsideApp = e.outsideApp
  trace : e'.trace = tr ++ e.trace
  slot : e.slotStarted = false → e'.slotStarted = false
  rel : P → samplesOnlyReleased e.lineDdr tr = true
  sunk : sunkAfter e.lineDdr tr = e'.lineDdr
  before : samplesBeforeCallback tr ≤ n
  samples : c.callbackIo = false → countOf TraceEntry.isSample tr ≤ n
  faults : e.CallbackKeepsError c → countOf TraceEntry.isFault tr + e.error.toNat ≤ 1
  /-- without a callback the flags the application may write are untouched -/
  quiet : countOf TraceEntry.isCallback tr = 0 → e'.alarm = e.alarm

theorem IoSpec.app {P : Prop} {n : Nat} {e e' : Engine} {tr : List TraceEntry} (c : Config)
    (h : IoSpec P n e e' tr) : AppSpec P c n e e' tr where
  frame := congrArg
    (fun x : Engine => ({ x with alarm := false, returned := [], callbacks := [], freeCallbacks := 0 } : Engine))
    h.frame
  trace := h.trace
  slot := h.slot
  rel := h.rel
  sunk := h.sunk
  before := by rw [samplesBeforeCallback_of_noCallback h.callbacks]; exact h.samples
  samples := fun _ => h.samples
  faults := fun _ => by have := h.faults; have := Bool.toNat_le_one' e'.error; omega
  quiet := fun _ => (congrArg Engine.alarm h.frame :)

/-- Some piece of trace witnesses the specification. -/
def App (P : Prop) (c : Config) (n : Nat) (e e' : Engine) : Prop := ∃ tr, AppSpec P c n e e' tr

theorem Io.app {P : Prop} {n : Nat} {e e' : Engine} (c : Config) (h : Io P n e e') : App P c n e e' :=
  let ⟨_, a⟩ := h
  ⟨_, a.app c⟩

theorem App.mono {P : Prop} {c : Config} {n m : Nat} {e e' : Engine} (h : App P c n e e') (hnm : n ≤ m) :
    App P c m e e' :=
  let ⟨_, a⟩ := h
  ⟨_, { a with before := Nat.le_trans a.before hnm, samples := fun hc => Nat.le_trans (a.samples hc) hnm }⟩

/-- I/O and then a command that has a callback: the command finds the `error` the I/O left. -/
theorem Io.trans_app {P : Prop} {c : Config} {n m : Nat} {e e1 e2 : Engine} (h1 : Io P n e e1)
    (h2 : App P c m e1 e2) : App P c (n + m) e e2 := by
  have hnext := h1.nextCallback
  obtain ⟨t1, a⟩ := h1
  obtain ⟨t2, b⟩ := h2
  refine ⟨t2 ++ t1, ?_, ?_, fun h => b.slot (a.slot h), fun hp => ?_, ?_, ?_, fun hc => ?_, fun hc => ?_, fun h0 => ?_⟩
  · exact b.frame.trans (a.app c).frame
  · rw [b.trace, a.trace, List.append_assoc]
  · rw [samplesOnlyReleased_append, a.sunk, b.rel hp, a.rel hp, Bool.and_self]
  · rw [sunkAfter_append, a.sunk, b.sunk]
  · rw [samplesBeforeCallback_append a.callbacks]; have := a.samples; have := b.before; omega
  · rw [countOf_append]; have := a.samples; have := b.samples hc; omega
  · rw [countOf_append]
    have := a.faults
    have := b.faults (by rw [Engine.CallbackKeepsError, hnext]; exact hc)
    omega
  · rw [countOf_append] at h0
    exact (b.quiet (by omega)).trans (congrArg Engine.alarm a.frame :)

end Sys2Proof.Machine
end

