-- ==== Sys2Proof/Laws/BitByteIo.lean ====
section
/-! SUPPORT. The wait primitives and the bit and byte operations: what they can do at most (`Io`), and what they do on
scripted draws. -/

namespace Sys2Proof.Machine

/-! ### `Poll` -/

/-- All a poll can do: it takes draws and records at most `n` samples. -/
theorem Engine.poll_spec (level : Bit) (n : Nat) (e : Engine) : ∃ ds k tr,
    (e.poll level n).2 = { e with draws := ds, freeDraws := k, trace := tr ++ e.trace } ∧
      tr.length ≤ n ∧ ∀ t ∈ tr, t.isSample = true := by
  induction n generalizing e with
  | zero => exact ⟨e.draws, e.freeDraws, [], rfl, Nat.le_refl 0, by simp⟩
  | succ n ih =>
    obtain ⟨ds, k, hp⟩ := e.pin_spec
    by_cases h : e.pin.1 = level
    · refine ⟨ds, k, [.sample e.pin.1], ?_, by simp, by simp [TraceEntry.isSample]⟩
      rw [Engine.poll, if_pos h]
      exact hp
    · obtain ⟨ds', k', tr, h1, h2, h3⟩ := ih e.pin.2
      refine ⟨ds', k', tr ++ [.sample e.pin.1], ?_, by simp [h2], ?_⟩
      · rw [Engine.poll, if_neg h, h1, hp]
        simp
      · intro t ht
        rcases List.mem_append.mp ht with h' | h'
        · exact h3 t h'
        · simp only [List.mem_singleton] at h'
          simp [h', TraceEntry.isSample]

/-- A poll whose script meets the level after `j` other samples, `j` < `n`. -/
theorem Engine.poll_hit {level : Bit} {n j : Nat} {ds : List Bit} {e : Engine} (hj : j < n)
    (h : e.draws = List.replicate j (!level) ++ level :: ds) :
    e.poll level n = (true, { e with
      draws := ds
      trace := .sample level :: List.replicate j (.sample (!level)) ++ e.trace }) := by
  induction j generalizing n e with
  | zero =>
    obtain ⟨n, rfl⟩ := Nat.exists_eq_add_of_lt hj
    simp only [Nat.zero_add, Engine.poll, Engine.pin_scripted h]
    simp
  | succ j ih =>
    obtain ⟨n, rfl⟩ : ∃ m, n = m + 1 := ⟨n - 1, by omega⟩
    have h' : e.draws = (!level) :: (List.replicate j (!level) ++ level :: ds) := by
      rw [h, List.replicate_succ, List.cons_append]
    have hne : ¬((!level) = level) := by cases level <;> decide
    rw [Engine.poll, Engine.pin_scripted h']
    simp only [hne, if_false]
    rw [ih (n := n) (by omega) rfl]
    simp [List.replicate_succ']

/-- A poll whose script never meets the level within `n` samples. -/
theorem Engine.poll_timeout {level : Bit} {n : Nat} {ds : List Bit} {e : Engine}
    (h : e.draws = List.replicate n (!level) ++ ds) :
    e.poll level n = (false, { e with
      draws := ds, trace := List.replicate n (.sample (!level)) ++ e.trace }) := by
  induction n generalizing e with
  | zero =>
    simp only [List.replicate_zero, List.nil_append] at h
    subst h
    rfl
  | succ n ih =>
    have h' : e.draws = (!level) :: (List.replicate n (!level) ++ ds) := by
      rw [h, List.replicate_succ, List.cons_append]
    have hne : ¬((!level) = level) := by cases level <;> decide
    rw [Engine.poll, Engine.pin_scripted h']
    simp only [hne, if_false]
    rw [ih rfl]
    simp [List.replicate_succ']

/-! ### The specification of each operation -/

theorem sunkAfter_samples {d : Bit} {tr : List TraceEntry} (h : ∀ t ∈ tr, t.isSample = true) : sunkAfter d tr = d := by
  induction tr with
  | nil => rfl
  | cons x tr ih =>
    have hx := h x (by simp)
    cases x <;> simp [TraceEntry.isSample] at hx
    exact ih fun t ht => h t (by simp [ht])

theorem samplesOnlyReleased_samples {tr : List TraceEntry} (h : ∀ t ∈ tr, t.isSample = true) :
    samplesOnlyReleased false tr = true := by
  induction tr with
  | nil => rfl
  | cons x tr ih =>
    have hx := h x (by simp)
    have ht : ∀ t ∈ tr, t.isSample = true := fun t ht => h t (by simp [ht])
    cases x <;> simp [TraceEntry.isSample] at hx
    simp [samplesOnlyReleased, sunkAfter_samples ht, ih ht]

theorem countOf_eq_zero_of_samples {p : TraceEntry → Bool} {tr : List TraceEntry} (h : ∀ t ∈ tr, t.isSample = true)
    (hp : ∀ v, p (.sample v) = false) : countOf p tr = 0 := by
  induction tr with
  | nil => rfl
  | cons x tr ih =>
    have hx := h x (by simp)
    rw [countOf_cons, ih fun t ht => h t (by simp [ht])]
    cases x <;> simp [TraceEntry.isSample] at hx
    simp [hp]

theorem Engine.poll_io {P : Prop} (level : Bit) (n : Nat) (e : Engine) (hP : P → e.lineDdr = false) :
    Io P n e (e.poll level n).2 := by
  obtain ⟨ds, k, tr, h, hlen, hs⟩ := e.poll_spec level n
  refine ⟨tr, ?_⟩
  rw [h]
  exact {
    frame := rfl, trace := rfl, error := id, slot := id
    rel := fun hp => by rw [hP hp]; exact samplesOnlyReleased_samples hs
    sunk := sunkAfter_samples hs
    samples := Nat.le_trans List.countP_le_length hlen
    callbacks := countOf_eq_zero_of_samples hs fun _ => rfl
    faults := by rw [countOf_eq_zero_of_samples hs fun _ => rfl]; exact Nat.zero_add _ }

/-- A poll leaves every register alone. -/
theorem Engine.poll_error (level : Bit) (n : Nat) (e : Engine) : (e.poll level n).2.error = e.error := by
  obtain ⟨ds, k, tr, h, -, -⟩ := e.poll_spec level n
  rw [h]

theorem Engine.poll_line (level : Bit) (n : Nat) (e : Engine) : (e.poll level n).2.lineDdr = e.lineDdr := by
  obtain ⟨ds, k, tr, h, -, -⟩ := e.poll_spec level n
  rw [h]

theorem Engine.poll_slot (level : Bit) (n : Nat) (e : Engine) : (e.poll level n).2.slotStarted = e.slotStarted := by
  obtain ⟨ds, k, tr, h, -, -⟩ := e.poll_spec level n
  rw [h]

theorem Engine.pin_io {P : Prop} (e : Engine) (hP : P → e.lineDdr = false) : Io P 1 e e.pin.2 := by
  obtain ⟨ds, k, h⟩ := e.pin_spec
  refine ⟨[.sample e.pin.1], ?_⟩
  rw [h]
  exact {
    frame := rfl, trace := rfl, error := id, slot := id
    rel := fun hp => by rw [hP hp]; rfl
    sunk := rfl, samples := Nat.le_refl 1, callbacks := rfl, faults := Nat.zero_add _ }

theorem Engine.pin_error (e : Engine) : e.pin.2.error = e.error := by
  obtain ⟨ds, k, h⟩ := e.pin_spec
  rw [h]

theorem Engine.pin_line (e : Engine) : e.pin.2.lineDdr = e.lineDdr := by
  obtain ⟨ds, k, h⟩ := e.pin_spec
  rw [h]

theorem Engine.delay_io {P : Prop} (d : DelayName) (e : Engine) : Io P 0 e (e.delay d) :=
  ⟨[.delay d], rfl, rfl, id, id, fun _ => rfl, rfl, Nat.le_refl 0, rfl, Nat.zero_add _⟩

theorem Engine.drive_io {P : Prop} (b : Bit) (e : Engine) : Io P 0 e (e.drive b) :=
  ⟨[.drive b], rfl, rfl, id, id, fun _ => rfl, rfl, Nat.le_refl 0, rfl, Nat.zero_add _⟩

theorem Engine.deadlineMiss_io {P : Prop} (site : FaultSite) (e : Engine) (h : e.error = false) :
    Io P 0 e (e.deadlineMiss site) :=
  ⟨[.fault site], rfl, rfl, fun _ => rfl, id, fun _ => rfl, rfl, Nat.le_refl 0, rfl, by rw [h]; rfl⟩

theorem Engine.sampleSlot_io {P : Prop} (c : Config) (e : Engine) (he : e.error = false)
    (hP : P → e.lineDdr = false) : Io P (1 + c.nRdRelease) e (e.sampleSlot c).2 := by
  have hd : Io P 0 e (e.delay .sample) := Engine.delay_io _ e
  have hp : Io P 1 (e.delay .sample) (e.delay .sample).pin.2 := Engine.pin_io _ hP
  have hdp : Io P 1 e (e.delay .sample).pin.2 := by simpa using hd.trans hp
  have hline : (e.delay .sample).pin.2.lineDdr = e.lineDdr := Engine.pin_line _
  have herr : (e.delay .sample).pin.2.error = e.error := Engine.pin_error _
  have hq := hdp.trans (Engine.poll_io true c.nRdRelease (e.delay .sample).pin.2 (by rw [hline]; exact hP))
  simp only [Engine.sampleSlot]
  split
  · exact hdp.mono (by omega)
  · split
    · exact hq
    · exact hq.trans (Engine.deadlineMiss_io _ _ (by rw [Engine.poll_error, herr, he]))

/-- `read_bit` with an error pending (R192). -/
theorem Engine.readBit_of_error (c : Config) {e : Engine} (h : e.error = true) : e.readBit c = (false, e) := by
  rw [Engine.readBit, if_pos h]

/-- `read_bit` in the first slot of a frame (R195). -/
theorem Engine.readBit_first (c : Config) {e : Engine} (he : e.error = false) (hs : e.slotStarted = true) :
    e.readBit c = Engine.sampleSlot c { e with slotStarted := false } := by
  rw [Engine.readBit, if_neg (by simp [he]), if_pos hs]

/-- `read_bit` in a later slot (R195). -/
theorem Engine.readBit_later (c : Config) {e : Engine} (he : e.error = false) (hs : e.slotStarted = false) :
    e.readBit c = if (e.poll false c.nRdStart).1 then (e.poll false c.nRdStart).2.sampleSlot c
      else (false, (e.poll false c.nRdStart).2.deadlineMiss .rdStart) := by
  rw [Engine.readBit, if_neg (by simp [he]), if_neg (by simp [hs])]

theorem Engine.slotSeen_io {P : Prop} (e : Engine) : Io P 0 e { e with slotStarted := false } :=
  ⟨[], rfl, rfl, id, fun _ => rfl, fun _ => rfl, rfl, Nat.le_refl 0, rfl, Nat.zero_add _⟩

/-- The first bit of a frame needs no slot-start poll. -/
theorem Engine.readBit_first_io {P : Prop} (c : Config) (e : Engine) (hs : e.slotStarted = true)
    (hP : P → e.lineDdr = false) : Io P (firstBitBound c) e (e.readBit c).2 := by
  unfold firstBitBound
  by_cases he : e.error = true
  · rw [Engine.readBit_of_error c he]
    exact Io.refl _ e
  · have he' : e.error = false := by simpa using he
    rw [Engine.readBit_first c he' hs]
    exact ((Engine.slotSeen_io e).trans (Engine.sampleSlot_io c { e with slotStarted := false } he' hP)).mono
      (by omega)

theorem Engine.readBit_io {P : Prop} (c : Config) (e : Engine) (hP : P → e.lineDdr = false) :
    Io P (readBitBound c) e (e.readBit c).2 := by
  by_cases hs : e.slotStarted = true
  · exact (Engine.readBit_first_io c e hs hP).mono (by unfold firstBitBound readBitBound; omega)
  have hs' : e.slotStarted = false := by simpa using hs
  unfold readBitBound
  by_cases he : e.error = true
  · rw [Engine.readBit_of_error c he]
    exact Io.refl _ e
  · have he' : e.error = false := by simpa using he
    rw [Engine.readBit_later c he' hs']
    have hp := Engine.poll_io false c.nRdStart e hP
    split
    · exact (hp.trans (Engine.sampleSlot_io c _ (by rw [Engine.poll_error, he'])
        (by rw [Engine.poll_line]; exact hP))).mono (by omega)
    · exact (hp.trans (Engine.deadlineMiss_io _ _ (by rw [Engine.poll_error, he']))).mono (by omega)

theorem Engine.sampleSlot_line (c : Config) (e : Engine) : (e.sampleSlot c).2.lineDdr = e.lineDdr := by
  simp only [Engine.sampleSlot]
  split
  · exact Engine.pin_line _
  · split
    · rw [Engine.poll_line]; exact Engine.pin_line _
    · rw [Engine.deadlineMiss_lineDdr, Engine.poll_line]; exact Engine.pin_line _

theorem Engine.readBit_line (c : Config) (e : Engine) : (e.readBit c).2.lineDdr = e.lineDdr := by
  by_cases he : e.error = true
  · rw [Engine.readBit_of_error c he]
  have he' : e.error = false := by simpa using he
  by_cases hs : e.slotStarted = true
  · rw [Engine.readBit_first c he' hs]
    exact Engine.sampleSlot_line c _
  · rw [Engine.readBit_later c he' (by simpa using hs)]
    split
    · rw [Engine.sampleSlot_line, Engine.poll_line]
    · rw [Engine.deadlineMiss_lineDdr, Engine.poll_line]

theorem Engine.sampleSlot_slot (c : Config) (e : Engine) : (e.sampleSlot c).2.slotStarted = e.slotStarted := by
  have hp : (e.delay .sample).pin.2.slotStarted = e.slotStarted := by
    obtain ⟨ds, k, h⟩ := (e.delay .sample).pin_spec
    rw [h]
    rfl
  simp only [Engine.sampleSlot]
  split
  · exact hp
  · split
    · rw [Engine.poll_slot, hp]
    · rw [Engine.deadlineMiss_slotStarted, Engine.poll_slot, hp]

/-- Without a pending error, `read_bit` leaves `slot_started` = 0 (R195). -/
theorem Engine.readBit_slot (c : Config) (e : Engine) (he : e.error = false) :
    (e.readBit c).2.slotStarted = false := by
  by_cases hs : e.slotStarted = true
  · rw [Engine.readBit_first c he hs, Engine.sampleSlot_slot]
  · have hs' : e.slotStarted = false := by simpa using hs
    rw [Engine.readBit_later c he hs']
    split
    · rw [Engine.sampleSlot_slot, Engine.poll_slot, hs']
    · rw [Engine.deadlineMiss_slotStarted, Engine.poll_slot, hs']

theorem Engine.writeBit_io {P : Prop} (c : Config) (b : Bit) (e : Engine) (hP : P → e.lineDdr = false) :
    Io P (writeBitBound c) e (e.writeBit c b) := by
  unfold Engine.writeBit writeBitBound
  by_cases he : e.error = true
  · simp only [he, if_true]
    exact Io.refl _ e
  · have he' : e.error = false := by simpa using he
    simp only [he', Bool.false_eq_true, if_false]
    have hp := Engine.poll_io false c.nWrStart e hP
    have herr : (e.poll false c.nWrStart).2.error = false := by rw [Engine.poll_error, he']
    split
    · have hheld : Io P c.nWrStart e
          (if b then (e.poll false c.nWrStart).2 else (e.poll false c.nWrStart).2.drive true) := by
        split
        · exact hp
        · exact hp.trans (Engine.drive_io _ _)
      have hherr : (if b then (e.poll false c.nWrStart).2 else (e.poll false c.nWrStart).2.drive true).error = false := by
        split
        · exact herr
        · exact herr
      generalize (if b then (e.poll false c.nWrStart).2 else (e.poll false c.nWrStart).2.drive true) = held
        at hheld hherr ⊢
      have hq := ((hheld.trans (Engine.delay_io .txHold held)).trans (Engine.drive_io false _)).trans
        (Engine.poll_io true c.nWrRelease ((held.delay .txHold).drive false) fun _ => rfl)
      split
      · exact hq
      · exact hq.trans (Engine.deadlineMiss_io _ _ (by rw [Engine.poll_error]; exact hherr))
    · exact (hp.trans (Engine.deadlineMiss_io _ _ herr)).mono (by omega)

/-- `write_bit` leaves a released line released, on every path (R198 b). -/
theorem Engine.writeBit_line (c : Config) (b : Bit) (e : Engine) (h : e.lineDdr = false) :
    (e.writeBit c b).lineDdr = false := by
  unfold Engine.writeBit
  split
  · exact h
  · dsimp only
    split
    · generalize (if b then (e.poll false c.nWrStart).2 else (e.poll false c.nWrStart).2.drive true) = held
      split
      · rw [Engine.poll_line, Engine.drive_lineDdr]
      · rw [Engine.deadlineMiss_lineDdr, Engine.poll_line, Engine.drive_lineDdr]
    · rw [Engine.deadlineMiss_lineDdr, Engine.poll_line, h]

/-- `write_bit` has nothing to do with `slot_started`. -/
theorem Engine.writeBit_slot (c : Config) (b : Bit) (e : Engine) (h : e.slotStarted = false) :
    (e.writeBit c b).slotStarted = false := (Engine.writeBit_io (P := False) c b e (fun h => h.elim)).slot h

/-- One round of the loop of `read_byte` (R200). -/
theorem Engine.readBits_succ (c : Config) (n i : Nat) (acc : Byte) (e : Engine) :
    e.readBits c (n + 1) i acc =
      if (e.readBit c).2.error then (putBit acc i (e.readBit c).1, (e.readBit c).2)
      else (e.readBit c).2.readBits c n (i + 1) (putBit acc i (e.readBit c).1) := rfl

/-- One round of the loop of `write_byte` (R202). -/
theorem Engine.writeBits_succ (c : Config) (v : Byte) (n i : Nat) (e : Engine) :
    e.writeBits c v (n + 1) i =
      if (e.writeBit c (takeBit v i)).error then e.writeBit c (takeBit v i)
      else (e.writeBit c (takeBit v i)).writeBits c v n (i + 1) := rfl

theorem Engine.readBits_io {P : Prop} (c : Config) (n i : Nat) (acc : Byte) (e : Engine)
    (hP : P → e.lineDdr = false) : Io P (n * readBitBound c) e (e.readBits c n i acc).2 := by
  induction n generalizing i acc e with
  | zero => exact Io.refl _ e
  | succ n ih =>
    have h1 := Engine.readBit_io c e hP
    simp only [Engine.readBits]
    split
    · exact h1.mono (by rw [Nat.succ_mul]; omega)
    · exact (h1.trans (ih (i + 1) _ _ (by rw [Engine.readBit_line]; exact hP))).mono
        (by rw [Nat.succ_mul]; omega)

theorem Engine.readBits_line (c : Config) (n i : Nat) (acc : Byte) (e : Engine) :
    (e.readBits c n i acc).2.lineDdr = e.lineDdr := by
  induction n generalizing i acc e with
  | zero => rfl
  | succ n ih =>
    simp only [Engine.readBits]
    split
    · exact Engine.readBit_line c e
    · rw [ih, Engine.readBit_line]

theorem Engine.readByte_io {P : Prop} (c : Config) (e : Engine) (hP : P → e.lineDdr = false) :
    Io P (8 * readBitBound c) e (e.readByte c).2 := Engine.readBits_io c 8 0 _ e hP

theorem Engine.readByte_line (c : Config) (e : Engine) : (e.readByte c).2.lineDdr = e.lineDdr :=
  Engine.readBits_line c 8 0 _ e

/-- The command byte of a frame takes one start poll less. -/
theorem Engine.readByte_first_io {P : Prop} (c : Config) (e : Engine) (hs : e.slotStarted = true)
    (hP : P → e.lineDdr = false) : Io P (firstBitBound c + 7 * readBitBound c) e (e.readByte c).2 := by
  have h1 := Engine.readBit_first_io c e hs hP
  rw [Engine.readByte, Engine.readBits_succ]
  split
  · exact h1.mono (by omega)
  · exact h1.trans (Engine.readBits_io c 7 1 _ _ (by rw [Engine.readBit_line]; exact hP))

/-- A byte read without a pending error leaves `slot_started` = 0. -/
theorem Engine.readByte_slot (c : Config) (e : Engine) (he : e.error = false) :
    (e.readByte c).2.slotStarted = false := by
  rw [Engine.readByte, Engine.readBits_succ]
  split
  · exact Engine.readBit_slot c e he
  · exact (Engine.readBits_io (P := False) c 7 1 _ _ (fun h => h.elim)).slot (Engine.readBit_slot c e he)

theorem Engine.writeBits_io {P : Prop} (c : Config) (v : Byte) (n i : Nat) (e : Engine)
    (hP : P → e.lineDdr = false) : Io P (n * writeBitBound c) e (e.writeBits c v n i) := by
  induction n generalizing i e with
  | zero => exact Io.refl _ e
  | succ n ih =>
    have h1 := Engine.writeBit_io c (takeBit v i) e hP
    simp only [Engine.writeBits]
    split
    · exact h1.mono (by rw [Nat.succ_mul]; omega)
    · exact (h1.trans (ih (i + 1) _ fun hp => Engine.writeBit_line c _ e (hP hp))).mono
        (by rw [Nat.succ_mul]; omega)

theorem Engine.writeBits_line (c : Config) (v : Byte) (n i : Nat) (e : Engine) (h : e.lineDdr = false) :
    (e.writeBits c v n i).lineDdr = false := by
  induction n generalizing i e with
  | zero => exact h
  | succ n ih =>
    simp only [Engine.writeBits]
    split
    · exact Engine.writeBit_line c _ e h
    · exact ih _ _ (Engine.writeBit_line c _ e h)

theorem Engine.writeByte_io {P : Prop} (c : Config) (v : Byte) (e : Engine) (hP : P → e.lineDdr = false) :
    Io P (8 * writeBitBound c) e (e.writeByte c v) := Engine.writeBits_io c v 8 0 e hP

theorem Engine.writeByte_line (c : Config) (v : Byte) (e : Engine) (h : e.lineDdr = false) :
    (e.writeByte c v).lineDdr = false := Engine.writeBits_line c v 8 0 e h

theorem Engine.writeByteWithCrc8_engine (c : Config) (v crc : Byte) (e : Engine) :
    (e.writeByteWithCrc8 c v crc).2 = e.writeByte c v := by
  simp only [Engine.writeByteWithCrc8]
  split <;> rfl

/-! ### A pending error -/

theorem Engine.writeBit_of_error (c : Config) (b : Bit) {e : Engine} (h : e.error = true) : e.writeBit c b = e := by
  simp [Engine.writeBit, h]

end Sys2Proof.Machine
end

