-- ==== Sys2Proof/Laws/RomCommands.lean ====
section
/-! SUPPORT. The callback and the ROM commands: what they can do at most (`Io` for commands without a callback, `App` for
those with one), and how an operation with an error pending behaves. -/

namespace Sys2Proof.Machine

/-! ### The callback -/

/-- All that the actions of a callback can do; `F` says that none of them clears `error`. -/
structure InsideSpec (P F : Prop) (c : Config) (e e' : Engine) (tr : List TraceEntry) : Prop where
  frame : e'.outsideApp = e.outsideApp
  trace : e'.trace = tr ++ e.trace
  slot : e.slotStarted = false → e'.slotStarted = false
  line : e.lineDdr = false → e'.lineDdr = false
  rel : P → samplesOnlyReleased e.lineDdr tr = true
  sunk : sunkAfter e.lineDdr tr = e'.lineDdr
  silent : c.callbackIo = false → tr = []
  callbacks : countOf TraceEntry.isCallback tr = 0
  faults : F → countOf TraceEntry.isFault tr + e.error.toNat ≤ e'.error.toNat

theorem InsideSpec.trans {P F : Prop} {c : Config} {e e1 e2 : Engine} {t1 t2 : List TraceEntry}
    (h1 : InsideSpec P F c e e1 t1) (h2 : InsideSpec P F c e1 e2 t2) : InsideSpec P F c e e2 (t2 ++ t1) where
  frame := h2.frame.trans h1.frame
  trace := by rw [h2.trace, h1.trace, List.append_assoc]
  slot := fun h => h2.slot (h1.slot h)
  line := fun h => h2.line (h1.line h)
  rel := fun hp => by rw [samplesOnlyReleased_append, h1.sunk, h2.rel hp, h1.rel hp, Bool.and_self]
  sunk := by rw [sunkAfter_append, h1.sunk, h2.sunk]
  silent := fun hc => by rw [h1.silent hc, h2.silent hc]; rfl
  callbacks := by rw [countOf_append, h1.callbacks, h2.callbacks]
  faults := fun hf => by rw [countOf_append]; have := h1.faults hf; have := h2.faults hf; omega

/-- An action that records nothing. -/
theorem InsideSpec.silently {P F : Prop} {c : Config} {e e' : Engine} (hf : e'.outsideApp = e.outsideApp)
    (ht : e'.trace = e.trace) (hs : e'.slotStarted = e.slotStarted) (hl : e'.lineDdr = e.lineDdr)
    (he : F → e.error = true → e'.error = true) : InsideSpec P F c e e' [] where
  frame := hf
  trace := ht
  slot := hs.trans
  line := hl.trans
  rel := fun _ => rfl
  sunk := hl.symm
  silent := fun _ => rfl
  callbacks := rfl
  faults := fun hF => by
    have := he hF
    cases h : e.error <;> simp_all

theorem Engine.framing_inside {P F : Prop} {c : Config} {e : Engine} {f : Engine → Engine} {n : Nat} {e' : Engine}
    {vs : List Value} (h : Io P n e e') (hl : e.lineDdr = false → e'.lineDdr = false)
    (hf : f e = { e' with returned := vs ++ e'.returned }) : ∃ tr, InsideSpec P F c e (e.framing c f) tr := by
  unfold Engine.framing
  split
  · rename_i hc
    obtain ⟨tr, a⟩ := h
    rw [hf]
    exact ⟨tr, (a.app c).frame, a.trace, a.slot, hl, a.rel, a.sunk, fun h0 => by simp [hc] at h0, a.callbacks,
      fun _ => a.faults.le⟩
  · exact ⟨[], .silently rfl rfl rfl rfl fun _ => id⟩

/-- Every action of a callback. -/
theorem Engine.callbackOp_inside {P F : Prop} (c : Config) (e : Engine) (op : CallbackOp)
    (hP : P → e.lineDdr = false) (hF : F → op ≠ .setErrorOff) : ∃ tr, InsideSpec P F c e (e.callbackOp c op) tr := by
  cases op with
  | setAlarmOn => exact ⟨[], .silently rfl rfl rfl rfl fun _ => id⟩
  | setAlarmOff => exact ⟨[], .silently rfl rfl rfl rfl fun _ => id⟩
  | isError => exact ⟨[], .silently rfl rfl rfl rfl fun _ => id⟩
  | setErrorOn => exact ⟨[], .silently rfl rfl rfl rfl fun _ _ => rfl⟩
  | setErrorOff => exact ⟨[], .silently rfl rfl rfl rfl fun h => absurd rfl (hF h)⟩
  | readBit =>
    exact Engine.framing_inside (f := fun e => (e.readBit c).2.give (.bit (e.readBit c).1)) (vs := [.bit (e.readBit c).1])
      (Engine.readBit_io c e hP)
      (fun h => by rw [Engine.readBit_line, h]) rfl
  | writeBit b =>
    exact Engine.framing_inside (vs := []) (Engine.writeBit_io c b e hP) (Engine.writeBit_line c b e) rfl
  | readByte =>
    exact Engine.framing_inside (f := fun e => (e.readByte c).2.give (.byte (e.readByte c).1)) (vs := [.byte (e.readByte c).1])
      (Engine.readByte_io c e hP)
      (fun h => by rw [Engine.readByte_line, h]) rfl
  | writeByte v =>
    exact Engine.framing_inside (vs := []) (Engine.writeByte_io c v e hP) (Engine.writeByte_line c v e) rfl
  | writeByteWithCrc8 v crc =>
    exact Engine.framing_inside
      (f := fun e => (e.writeByteWithCrc8 c v crc).2.give (.byte (e.writeByteWithCrc8 c v crc).1))
      (vs := [.byte (e.writeByteWithCrc8 c v crc).1]) (Engine.writeByte_io c v e hP) (Engine.writeByte_line c v e)
      (by rw [Engine.writeByteWithCrc8_engine]; rfl)

theorem Engine.runCallback_inside {P F : Prop} (c : Config) (ops : List CallbackOp) (e : Engine)
    (hP : P → e.lineDdr = false) (hF : F → .setErrorOff ∉ ops) :
    ∃ tr, InsideSpec P F c e (e.runCallback c ops) tr := by
  induction ops generalizing e with
  | nil => exact ⟨[], .silently rfl rfl rfl rfl fun _ => id⟩
  | cons op ops ih =>
    obtain ⟨t1, h1⟩ := Engine.callbackOp_inside (F := F) c e op hP fun hf h => hF hf (by simp [h])
    obtain ⟨t2, h2⟩ := ih (e.callbackOp c op) (fun hp => h1.line (hP hp)) fun hf h => hF hf (by simp [h])
    exact ⟨_, h1.trans h2⟩

/-- The callback with a script left (R290). -/
theorem Engine.callback_scripted (c : Config) {e : Engine} {ops : List CallbackOp} {rest : List (List CallbackOp)}
    (h : e.callbacks = ops :: rest) :
    e.callback c = Engine.runCallback c ops { e with callbacks := rest, trace := .callback :: e.trace } := by
  simp only [Engine.callback, Engine.nextCallback, Engine.emit, h]

/-- The callback with no script left: a free list of actions (log 5). -/
theorem Engine.callback_free (c : Config) {e : Engine} (h : e.callbacks = []) :
    e.callback c = Engine.runCallback c (Config.freeCallback e.bus e.freeCallbacks)
      { e with freeCallbacks := e.freeCallbacks + 1, trace := .callback :: e.trace } := by
  simp only [Engine.callback, Engine.nextCallback, Engine.emit, h]

/-- The callback: one CALLBACK entry, then the actions. -/
theorem Engine.callback_inside {P : Prop} (c : Config) (e : Engine) (hP : P → e.lineDdr = false) :
    ∃ tr e0, e0.outsideApp = e.outsideApp ∧ e0.trace = .callback :: e.trace ∧ e0.error = e.error ∧
      e0.slotStarted = e.slotStarted ∧ e0.lineDdr = e.lineDdr ∧
      InsideSpec P (.setErrorOff ∉ e.nextCallback.1) c e0 (e.callback c) tr := by
  cases h : e.callbacks with
  | nil =>
    rw [Engine.callback_free c h]
    have hn : e.nextCallback.1 = Config.freeCallback e.bus e.freeCallbacks := by simp only [Engine.nextCallback, h]
    obtain ⟨tr, hs⟩ := Engine.runCallback_inside (F := .setErrorOff ∉ e.nextCallback.1) c
      (Config.freeCallback e.bus e.freeCallbacks)
      { e with freeCallbacks := e.freeCallbacks + 1, trace := .callback :: e.trace } hP (by rw [hn]; exact id)
    exact ⟨tr, { e with freeCallbacks := e.freeCallbacks + 1, trace := .callback :: e.trace }, rfl, rfl, rfl, rfl, rfl, hs⟩
  | cons ops rest =>
    rw [Engine.callback_scripted c h]
    have hn : e.nextCallback.1 = ops := by simp only [Engine.nextCallback, h]
    obtain ⟨tr, hs⟩ := Engine.runCallback_inside (F := .setErrorOff ∉ e.nextCallback.1) c ops
      { e with callbacks := rest, trace := .callback :: e.trace } hP (by rw [hn]; exact id)
    exact ⟨tr, { e with callbacks := rest, trace := .callback :: e.trace }, rfl, rfl, rfl, rfl, rfl, hs⟩

theorem Engine.callback_app {P : Prop} (c : Config) (e : Engine) (hP : P → e.lineDdr = false) :
    App P c 0 e (e.callback c) := by
  obtain ⟨tr, e0, hf, ht, he, hs, hl, h⟩ := Engine.callback_inside c e hP
  refine ⟨tr ++ [.callback], h.frame.trans hf, ?_, ?_, ?_, ?_, ?_, ?_, ?_, ?_⟩
  · rw [h.trace, ht]; simp
  · intro h0
    exact h.slot (hs.trans h0)
  · intro hp
    rw [samplesOnlyReleased_append]
    have := h.rel hp
    rw [hl] at this
    simpa [samplesOnlyReleased, sunkAfter] using this
  · rw [sunkAfter_append, ← h.sunk, hl]; rfl
  · rw [samplesBeforeCallback_callback]
  · intro hc
    rw [h.silent hc]
    decide
  · rintro (hc | hk)
    · rw [h.silent hc]
      exact (Nat.zero_add _).trans_le (Bool.toNat_le_one' _)
    · have := h.faults hk
      have := Bool.toNat_le_one' (e.callback c).error
      rw [countOf_append, ← he]
      simp only [countOf_cons, countOf_nil, TraceEntry.isFault, Bool.false_eq_true, if_false]
      omega
  · intro h0
    rw [countOf_append] at h0
    simp [countOf_cons, TraceEntry.isCallback] at h0

theorem Engine.callback_line (c : Config) (e : Engine) (h : e.lineDdr = false) : (e.callback c).lineDdr = false := by
  obtain ⟨tr, e0, -, -, -, -, hl, hi⟩ := Engine.callback_inside (P := False) c e fun h => h.elim
  exact hi.line (hl.trans h)

/-- A callback adds exactly one CALLBACK entry. -/
theorem Engine.callback_count (c : Config) (e : Engine) :
    countOf TraceEntry.isCallback (e.callback c).trace = countOf TraceEntry.isCallback e.trace + 1 := by
  obtain ⟨tr, e0, -, ht, -, -, -, hi⟩ := Engine.callback_inside (P := False) c e fun h => h.elim
  rw [hi.trace, ht, countOf_append, hi.callbacks, countOf_cons]
  simp [TraceEntry.isCallback]

/-! ### The commands -/

theorem Engine.searchTriple_io {P : Prop} (c : Config) (b : Bit) (e : Engine) (hP : P → e.lineDdr = false) :
    Io P (2 * writeBitBound c + readBitBound c) e (e.searchTriple c b).2 := by
  have h1 := Engine.writeBit_io c b e hP
  have l1 := fun hp => Engine.writeBit_line c b e (hP hp)
  have h2 := Engine.writeBit_io c (!b) _ l1
  have l2 := fun hp => Engine.writeBit_line c (!b) _ (l1 hp)
  exact ((h1.trans h2).trans (Engine.readBit_io c _ l2)).mono (by omega)

theorem Engine.searchTriple_line (c : Config) (b : Bit) (e : Engine) (h : e.lineDdr = false) :
    (e.searchTriple c b).2.lineDdr = false := by
  rw [Engine.searchTriple, Engine.readBit_line]
  exact Engine.writeBit_line c _ _ (Engine.writeBit_line c _ _ h)

/-- One round of the SEARCH loop (R231). -/
theorem Engine.searchFrom_succ (c : Config) (n k : Nat) (e : Engine) :
    e.searchFrom c (n + 1) k =
      if (e.searchTriple c (idBit e.store k)).2.error then (e.searchTriple c (idBit e.store k)).2
      else if (e.searchTriple c (idBit e.store k)).1 ≠ idBit e.store k then (e.searchTriple c (idBit e.store k)).2
      else (e.searchTriple c (idBit e.store k)).2.searchFrom c n (k + 1) := rfl

theorem Engine.searchFrom_io {P : Prop} (c : Config) (n k : Nat) (e : Engine) (hP : P → e.lineDdr = false) :
    Io P (n * (2 * writeBitBound c + readBitBound c)) e (e.searchFrom c n k) := by
  induction n generalizing k e with
  | zero => exact Io.refl _ e
  | succ n ih =>
    have h1 := Engine.searchTriple_io c (idBit e.store k) e hP
    rw [Engine.searchFrom_succ, Nat.succ_mul]
    split
    · exact h1.mono (by omega)
    · split
      · exact h1.mono (by omega)
      · exact (h1.trans (ih (k + 1) _ fun hp => Engine.searchTriple_line c _ e (hP hp))).mono (by omega)

theorem Engine.searchFrom_line (c : Config) (n k : Nat) (e : Engine) (h : e.lineDdr = false) :
    (e.searchFrom c n k).lineDdr = false := by
  induction n generalizing k e with
  | zero => exact h
  | succ n ih =>
    have h1 := Engine.searchTriple_line c (idBit e.store k) e h
    rw [Engine.searchFrom_succ]
    split
    · exact h1
    · split
      · exact h1
      · exact ih _ _ h1

theorem Engine.search_io {P : Prop} (c : Config) (e : Engine) (hP : P → e.lineDdr = false) :
    Io P (searchBound c) e (e.search c) := Engine.searchFrom_io c 64 0 e hP

theorem Engine.alarmSearch_io {P : Prop} (c : Config) (e : Engine) (hP : P → e.lineDdr = false) :
    Io P (searchBound c) e (e.alarmSearch c) := by
  unfold Engine.alarmSearch
  split
  · exact Engine.search_io c e hP
  · exact Io.refl _ e

theorem Engine.alarmSearch_line (c : Config) (e : Engine) (h : e.lineDdr = false) :
    (e.alarmSearch c).lineDdr = false := by
  unfold Engine.alarmSearch
  split
  · exact Engine.searchFrom_line c 64 0 e h
  · exact h

/-- One round of the READ loop (R233). -/
theorem Engine.readRomFrom_succ (c : Config) (n k : Nat) (e : Engine) :
    e.readRomFrom c (n + 1) k =
      if (e.writeByte c (idByte e.store k)).error then e.writeByte c (idByte e.store k)
      else (e.writeByte c (idByte e.store k)).readRomFrom c n (k + 1) := rfl

theorem Engine.readRomFrom_io {P : Prop} (c : Config) (n k : Nat) (e : Engine) (hP : P → e.lineDdr = false) :
    Io P (n * (8 * writeBitBound c)) e (e.readRomFrom c n k) := by
  induction n generalizing k e with
  | zero => exact Io.refl _ e
  | succ n ih =>
    have h1 := Engine.writeByte_io c (idByte e.store k) e hP
    rw [Engine.readRomFrom_succ, Nat.succ_mul]
    split
    · exact h1.mono (by omega)
    · exact (h1.trans (ih (k + 1) _ fun hp => Engine.writeByte_line c _ e (hP hp))).mono (by omega)

theorem Engine.readRomFrom_line (c : Config) (n k : Nat) (e : Engine) (h : e.lineDdr = false) :
    (e.readRomFrom c n k).lineDdr = false := by
  induction n generalizing k e with
  | zero => exact h
  | succ n ih =>
    have h1 := Engine.writeByte_line c (idByte e.store k) e h
    rw [Engine.readRomFrom_succ]
    split
    · exact h1
    · exact ih _ _ h1

theorem Engine.readRom_io {P : Prop} (c : Config) (e : Engine) (hP : P → e.lineDdr = false) :
    Io P (64 * writeBitBound c) e (e.readRom c) := (Engine.readRomFrom_io c 8 0 e hP).mono (by omega)

/-- One round of the MATCH loop (R234). -/
theorem Engine.matchRomFrom_succ (c : Config) (n k : Nat) (e : Engine) :
    e.matchRomFrom c (n + 1) k =
      if (e.readByte c).2.error then (e.readByte c).2
      else if (e.readByte c).1 ≠ idByte e.store k then (e.readByte c).2
      else (e.readByte c).2.matchRomFrom c n (k + 1) := rfl

theorem Engine.matchRomFrom_app {P : Prop} (c : Config) (n k : Nat) (e : Engine) (hP : P → e.lineDdr = false) :
    App P c (n * (8 * readBitBound c)) e (e.matchRomFrom c n k) := by
  induction n generalizing k e with
  | zero => exact (Engine.callback_app c e hP).mono (Nat.zero_le _)
  | succ n ih =>
    have h1 := Engine.readByte_io c e hP
    rw [Engine.matchRomFrom_succ, Nat.succ_mul]
    split
    · exact (h1.app c).mono (by omega)
    · split
      · exact (h1.app c).mono (by omega)
      · exact (h1.trans_app (ih (k + 1) _ (by rw [Engine.readByte_line]; exact hP))).mono (by omega)

theorem Engine.matchRomFrom_line (c : Config) (n k : Nat) (e : Engine) (h : e.lineDdr = false) :
    (e.matchRomFrom c n k).lineDdr = false := by
  induction n generalizing k e with
  | zero => exact Engine.callback_line c e h
  | succ n ih =>
    have h1 : (e.readByte c).2.lineDdr = false := by rw [Engine.readByte_line, h]
    rw [Engine.matchRomFrom_succ]
    split
    · exact h1
    · split
      · exact h1
      · exact ih _ _ h1

theorem Engine.matchRom_app {P : Prop} (c : Config) (e : Engine) (hP : P → e.lineDdr = false) :
    App P c (64 * readBitBound c) e (e.matchRom c) := (Engine.matchRomFrom_app c 8 0 e hP).mono (by omega)

/-- A dispatched command takes at most the samples of the row its byte decodes to (R163). -/
theorem Engine.dispatch_app {P : Prop} (c : Config) (cmd : Byte) (e : Engine) (hP : P → e.lineDdr = false) :
    App P c (sampleBound c (decodeByte cmd)) e (e.dispatch c cmd) := by
  unfold Engine.dispatch decodeByte
  cases decodeCommand cmd with
  | search => exact (Engine.search_io c e hP).app c
  | alarmSearch => exact (Engine.alarmSearch_io c e hP).app c
  | readRom => exact (Engine.readRom_io c e hP).app c
  | matchRom => exact Engine.matchRom_app c e hP
  | skip => exact Engine.callback_app c e hP
  | ignored _ => exact (Io.refl _ e).app c

/-- A dispatched command that has no callback is bit and byte I/O and nothing else. -/
theorem Engine.dispatch_io {P : Prop} (c : Config) (cmd : Byte) (e : Engine) (hP : P → e.lineDdr = false)
    (h : mayRunCallback (decodeByte cmd) = false) : Io P (sampleBound c (decodeByte cmd)) e (e.dispatch c cmd) := by
  unfold Engine.dispatch
  unfold decodeByte at h ⊢
  cases hd : decodeCommand cmd with
  | search => exact Engine.search_io c e hP
  | alarmSearch => exact Engine.alarmSearch_io c e hP
  | readRom => exact Engine.readRom_io c e hP
  | matchRom => simp [hd, RomCommand.toInstr, mayRunCallback] at h
  | skip => simp [hd, RomCommand.toInstr, mayRunCallback] at h
  | ignored _ => exact Io.refl _ e

/-- No command takes more samples than SEARCH. -/
theorem sampleBound_decodeByte_le (c : Config) (cmd : Byte) : sampleBound c (decodeByte cmd) ≤ searchBound c := by
  unfold decodeByte searchBound
  cases decodeCommand cmd <;> simp only [RomCommand.toInstr, sampleBound, searchBound] <;> omega

theorem Engine.dispatch_line (c : Config) (cmd : Byte) (e : Engine) (h : e.lineDdr = false) :
    (e.dispatch c cmd).lineDdr = false := by
  unfold Engine.dispatch
  cases decodeCommand cmd with
  | search => exact Engine.searchFrom_line c 64 0 e h
  | alarmSearch => exact Engine.alarmSearch_line c e h
  | readRom => exact Engine.readRomFrom_line c 8 0 e h
  | matchRom => exact Engine.matchRomFrom_line c 8 0 e h
  | skip => exact Engine.callback_line c e h
  | ignored _ => exact h

end Sys2Proof.Machine
end

