-- ==== Sys2Proof/Laws/BusStateMachine.lean ====
section
/-! SUPPORT. Frames, the timer and the step: what a frame can do at most, what a tick can do, and what one step can be. -/

namespace Sys2Proof.Machine

/-! ### A frame -/

theorem Engine.frame_app {P : Prop} (c : Config) (e : Engine) (hP : P → e.lineDdr = false) :
    App P c (8 * readBitBound c + sampleBound c (decodeByte (e.readByte c).1)) e (e.frame c) := by
  have h1 := Engine.readByte_io c e hP
  simp only [Engine.frame]
  split
  · exact (h1.app c).mono (by omega)
  · exact h1.trans_app (Engine.dispatch_app c _ _ (by rw [Engine.readByte_line]; exact hP))

/-- A frame whose first slot has begun takes one start poll less (R163). -/
theorem Engine.frame_first_app {P : Prop} (c : Config) (e : Engine) (hs : e.slotStarted = true)
    (hP : P → e.lineDdr = false) :
    App P c (firstBitBound c + 7 * readBitBound c + sampleBound c (decodeByte (e.readByte c).1)) e (e.frame c) := by
  have h1 := Engine.readByte_first_io c e hs hP
  simp only [Engine.frame]
  split
  · exact (h1.app c).mono (by omega)
  · exact h1.trans_app (Engine.dispatch_app c _ _ (by rw [Engine.readByte_line]; exact hP))

/-- Such a frame of a command without a callback is bit and byte I/O and nothing else. -/
theorem Engine.frame_first_io {P : Prop} (c : Config) (e : Engine) (hs : e.slotStarted = true)
    (hP : P → e.lineDdr = false) (h : mayRunCallback (decodeByte (e.readByte c).1) = false) :
    Io P (firstBitBound c + 7 * readBitBound c + sampleBound c (decodeByte (e.readByte c).1)) e (e.frame c) := by
  have h1 := Engine.readByte_first_io c e hs hP
  simp only [Engine.frame]
  split
  · exact h1.mono (by omega)
  · exact h1.trans (Engine.dispatch_io c _ _ (by rw [Engine.readByte_line]; exact hP) h)

theorem Engine.frame_line (c : Config) (e : Engine) (h : e.lineDdr = false) : (e.frame c).lineDdr = false := by
  have h1 : (e.readByte c).2.lineDdr = false := by rw [Engine.readByte_line, h]
  simp only [Engine.frame]
  split
  · exact h1
  · exact Engine.dispatch_line c _ _ h1

/-- A frame leaves the registers of the state machine alone. -/
theorem Engine.frame_outside (c : Config) (e : Engine) : (e.frame c).outsideApp = e.outsideApp :=
  let ⟨_, h⟩ := Engine.frame_app (P := False) c e fun h => h.elim
  h.frame

/-- The command the byte decodes to, as `exec` runs it. -/
theorem exec_decodeByte (cmd : Byte) (s : State) :
    exec (decodeByte cmd) s = .next (s.onEngine fun c e => e.dispatch c cmd) := by
  unfold decodeByte Engine.dispatch
  cases decodeCommand cmd <;> rfl

/-! ### The tick -/

theorem Engine.tick_disarmed (c : Config) {e : Engine} (h : e.timerArmed = false) : e.softTimerTick c = e := by
  simp [Engine.softTimerTick, h]

theorem Engine.tick_counting {c : Config} {e : Engine} (h : e.timerArmed = true) (h2 : 2 ≤ e.timerCount)
    (hw : e.timerCount < 2 ^ c.timerCountBits) :
    e.softTimerTick c = { e with timerCount := e.timerCount - 1 } := by
  have hd := decr_of_pos (w := c.timerCountBits) (n := e.timerCount) (by omega) (by omega)
  have h0 : ¬(e.timerCount - 1 = 0) := by omega
  simp [Engine.softTimerTick, h, hd, h0]

theorem Engine.tick_expires {c : Config} {e : Engine} (h : e.timerArmed = true) (h1 : e.timerCount = 1) :
    e.softTimerTick c = Engine.onTimerExpiry c { e with timerCount := 0, timerArmed := false } := by
  simp [Engine.softTimerTick, h, h1]

/-! ### One step -/

/-- All that a step can be when it answers a next state: waiting, or the selected row on the focused engine. -/
theorem step_cases {s t : State} (h : step s = .next t) :
    configValid s.config = true ∧
      ((s.inputs = [] ∧ t = s) ∨
        ∃ d rest f, s.inputs = d :: rest ∧ State.focus d.bus { s with inputs := rest } = some f ∧
          (d.input.isEvent = true → f.engine.started = true) ∧ exec (rowOf d.input f.engine) f = .next t) := by
  unfold step at h
  split at h
  · rename_i hc
    refine ⟨hc, ?_⟩
    split at h
    · rename_i hi
      simp only [Host.Outcome.next.injEq] at h
      exact .inl ⟨hi, h.symm⟩
    · rename_i d rest hi
      split at h
      · rename_i f hf
        refine .inr ⟨d, rest, f, hi, hf, ?_⟩
        unfold deliver at h
        split at h
        · simp at h
        · rename_i hs
          refine ⟨fun he => ?_, h⟩
          simpa [he] using hs
      · simp at h
  · simp at h

/-- A step on the engine that already has the focus. -/
theorem step_next {s : State} {i : Input} {rest : List Delivery} (hc : configValid s.config = true)
    (hs : s.engine.started = true) (hi : s.inputs = ⟨s.engine.bus, i⟩ :: rest) :
    step s = exec (rowOf i s.engine) { s with inputs := rest } := by
  have hf : State.focus s.engine.bus { s with inputs := rest } = some { s with inputs := rest } := by
    simp [State.focus]
  simp only [step, hc, if_true, hi, hf, deliver, hs, Bool.not_true, Bool.and_false, Bool.false_eq_true, if_false]

/-! ### The row of a host operation -/

/-- In a legal stage, and for the first `init()` in any stage, a host operation selects its own row. -/
theorem hostRow_runs {op : HostOp} {e : Engine}
    (h : e.stage.isUnused = false ∨ op = .init ∧ e.started = false) : hostRow op e = op.toInstr := by
  rcases h with h | ⟨rfl, h⟩ <;> simp [hostRow, firstInit, h]

/-- Otherwise it selects the bad-stage row (R33). -/
theorem hostRow_faults {op : HostOp} {e : Engine} (h : e.stage.isUnused = true)
    (hi : op ≠ .init ∨ e.started = true) : hostRow op e = .eventBadStage := by
  rcases hi with hi | hi <;> simp [hostRow, firstInit, h, hi]

/-- What a host operation can select. -/
theorem hostRow_cases (op : HostOp) (e : Engine) : hostRow op e = op.toInstr ∨ hostRow op e = .eventBadStage := by
  unfold hostRow
  split
  · exact .inr rfl
  · exact .inl rfl

/-- A host operation needs no `init()` before it: the step runs the row it selects. -/
theorem step_host {s : State} {op : HostOp} {rest : List Delivery} (hc : configValid s.config = true)
    (hi : s.inputs = ⟨s.engine.bus, .host op⟩ :: rest) :
    step s = exec (hostRow op s.engine) { s with inputs := rest } := by
  have hf : State.focus s.engine.bus { s with inputs := rest } = some { s with inputs := rest } := by
    simp [State.focus]
  simp only [step, hc, if_true, hi, hf, deliver, Input.isEvent, Bool.false_and, Bool.false_eq_true, if_false, rowOf]

/-! ### Several steps -/

theorem core_run_next (M : Host.Core) {n : Nat} {s t : M.State} (h : M.step s = .next t) :
    M.run (n + 1) s = M.run n t := by
  rw [Host.Core.run, h]

theorem core_run_add (M : Host.Core) {a b : Nat} {s t : M.State} (h : M.run a s = .next t) :
    M.run (a + b) s = M.run b t := by
  induction a generalizing s with
  | zero =>
    rw [Host.Core.run, Host.Outcome.next.injEq] at h
    rw [h, Nat.zero_add]
  | succ a ih =>
    rw [Nat.add_right_comm, Host.Core.run]
    rw [Host.Core.run] at h
    cases hs : M.step s with
    | next u =>
      rw [hs] at h
      exact ih h
    | fault r => simp [hs] at h
    | refused r => simp [hs] at h

theorem runSteps_zero (s : State) : runSteps 0 s = .next s := rfl

theorem runSteps_next {n : Nat} {s t : State} (h : step s = .next t) : runSteps (n + 1) s = runSteps n t :=
  core_run_next core h

theorem runSteps_add {a b : Nat} {s t : State} (h : runSteps a s = .next t) : runSteps (a + b) s = runSteps b t :=
  core_run_add core h

/-- A tick above 1 counts down. -/
theorem step_tick {s : State} {n : Nat} {rest : List Delivery} (hc : configValid s.config = true)
    (hs : s.engine.started = true) (hu : s.engine.stage.isUnused = false) (ha : s.engine.timerArmed = true)
    (hn : s.engine.timerCount = n + 2) (hw : n + 2 < 2 ^ s.config.timerCountBits)
    (hi : s.inputs = ⟨s.engine.bus, .tick⟩ :: rest) :
    step s = .next { s with inputs := rest, engine := { s.engine with timerCount := n + 1 } } := by
  rw [step_next hc hs hi]
  have := Engine.tick_counting (c := s.config) ha (by omega) (by omega)
  simp [rowOf, tickRow, hu, exec, execTick, State.onEngine, this, hn]

/-- A tick at 1 runs the expiry. -/
theorem step_expiry {s : State} {rest : List Delivery} (hc : configValid s.config = true)
    (hs : s.engine.started = true) (hu : s.engine.stage.isUnused = false) (ha : s.engine.timerArmed = true)
    (hn : s.engine.timerCount = 1) (hi : s.inputs = ⟨s.engine.bus, .tick⟩ :: rest) :
    step s = .next { s with
      inputs := rest
      engine := Engine.onTimerExpiry s.config { s.engine with timerCount := 0, timerArmed := false } } := by
  rw [step_next hc hs hi]
  have := Engine.tick_expires (c := s.config) ha hn
  simp [rowOf, tickRow, hu, exec, execTick, State.onEngine, this]

end Sys2Proof.Machine
end

