-- ==== Sys2Proof/Tests/Slice0.lean ====
section
/-! SUPPORT. Own tests: the vectors of 95_test_vectors.md section 2 (their names are the spec's), the decoding of words
written out from the table of 30_encoding.md R106, ill-formed terms, and for every obligation with hypotheses concrete
states that meet them. Expected values are the spec's. -/

namespace Sys2Proof.Tests

open Sys2Proof.Machine

/-! ### Helpers -/

/-- Identifier ID_A of section 0. -/
def idA : Memory := provision [0x02#8, 0x1C#8, 0xB8#8, 0x01#8, 0x00#8, 0x00#8, 0x00#8, 0xA2#8]

/-- An engine in a stage, with a timer (`none`: off), the line driver and the draws. -/
def eng (stage : Stage) (timer : Option Nat) (ddr : Bit) (draws : List Bit) : Engine :=
  { Engine.afterInit 0 idA with
    stage := stage, timerArmed := timer.isSome, timerCount := timer.getD 0, lineDdr := ddr, draws := draws
    callbacks := [[]] }

/-- An engine in IDLE with the draws. -/
def idle (draws : List Bit) : Engine := eng .idle none false draws

/-- The state of one engine, with inputs for it. -/
def at1 (e : Engine) (inputs : List Input) : State :=
  { State.reset with engine := e, inputs := inputs.map fun i => ⟨0, i⟩ }

/-- One row run on one engine. -/
def run1 (i : Instr) (e : Engine) : Host.Outcome State Fault Refusal := exec i (at1 e [])

/-- One step on one engine. -/
def step1 (i : Input) (e : Engine) : Host.Outcome State Fault Refusal := step (at1 e [i])

/-- The outcome is a next state whose trace is the given one (oldest first) and whose engine passes a check. -/
def ran (o : Host.Outcome State Fault Refusal) (tr : List TraceEntry) (p : Engine → Bool) : Bool :=
  match o with
  | .next t => t.engine.trace == tr.reverse && p t.engine
  | .fault _ => false
  | .refused _ => false

/-- The outcome is a next state that passes a check. -/
def after (o : Host.Outcome State Fault Refusal) (p : Engine → Bool) : Bool :=
  match o with
  | .next t => p t.engine
  | .fault _ => false
  | .refused _ => false

/-- The outcome is the given refusal. -/
def stops (o : Host.Outcome State Fault Refusal) (r : Refusal) : Bool :=
  match o with
  | .refused q => q == r
  | .next _ => false
  | .fault _ => false

/-- The outcome is the given fault. -/
def faults (o : Host.Outcome State Fault Refusal) (r : Fault) : Bool :=
  match o with
  | .fault q => q == r
  | .next _ => false
  | .refused _ => false

/-- The state notation of section 0. -/
def shows (stage : Stage) (ign err slot : Bit) (timer : Option Nat) (ddr : Bit) (e : Engine) : Bool :=
  e.stage == stage && e.ignoreOneChange == ign && e.error == err && e.slotStarted == slot
    && (if e.timerArmed then some e.timerCount else none) == timer && e.lineDdr == ddr

/-- The newest result handed out. -/
def gave (v : Value) (e : Engine) : Bool := e.returned == [v]

/-! ### Well-formedness: each check refuses an ill-formed term -/

theorem test_ignored_is_not_a_named_byte :
    [0xF0#8, 0xEC#8, 0x33#8, 0x55#8, 0xCC#8].map (fun c => WellFormed (.ignored c)) = List.replicate 5 false := by decide

theorem test_poll_bound_zero_is_ill_formed : WellFormed (.poll true 0) = false ∧ WellFormed (.poll true 1) = true := by
  decide

/-! ### Decoding: words written out bit by bit from the table of R106 -/

theorem test_decode_search : decodeTableWord 8 0b11110000 = some .search := by decide
theorem test_decode_alarm_search : decodeTableWord 8 0b11101100 = some .alarmSearch := by decide
theorem test_decode_read : decodeTableWord 8 0b00110011 = some .readRom := by decide
theorem test_decode_match : decodeTableWord 8 0b01010101 = some .matchRom := by decide
theorem test_decode_skip : decodeTableWord 8 0b11001100 = some .skip := by decide
theorem test_decode_ignored : decodeTableWord 8 0b11001101 = some (.ignored 0b11001101#8) := by decide
theorem test_decode_no_byte_refused : decode [] = .error .noCommandByte := rfl

/-! ### 2.1 Bus state machine and soft timer -/

theorem test_SM1 : ran (step1 .pin (idle [false])) [.sample false, .tset 8]
    (shows .waitingResetMin false false false (some 8) false) = true := by decide
theorem test_SM2 : ran (step1 .pin (idle [true])) [.sample true] (shows .idle false false false none false) = true := by
  decide
theorem test_SM3 : ran (step1 .tick (idle [])) [] (shows .idle false false false none false) = true := by decide
theorem test_SM4 : ran (step1 .tick (eng .waitingResetMin (some 8) false [])) []
    (shows .waitingResetMin false false false (some 7) false) = true := by decide
theorem test_SM5 : ran (step1 .tick (eng .waitingResetMin (some 1) false [])) [.tset 8]
    (shows .waitingResetMax false false false (some 8) false) = true := by decide
theorem test_SM6 : ran (step1 .pin (eng .waitingResetMin (some 5) false [true])) [.sample true, .tcancel]
    (shows .idle false false false none false) = true := by decide
theorem test_SM7 : ran (step1 .pin (eng .waitingResetMin (some 5) false [false])) [.sample false]
    (shows .waitingResetMin false false false (some 5) false) = true := by decide
theorem test_SM8 : ran (step1 .tick (eng .waitingResetMax (some 1) false [])) []
    (shows .waitingResetMax false false false none false) = true := by decide
theorem test_SM9 : ran (step1 .pin (eng .waitingResetMax (some 3) false [true]))
    [.sample true, .delay .presenceDelay, .drive true, .tset 4]
    (shows .presencePulseOn false false false (some 4) true) = true := by decide
theorem test_SM10 : ran (step1 .pin (eng .waitingResetMax none false [true]))
    [.sample true, .delay .presenceDelay, .drive true, .tset 4]
    (shows .presencePulseOn false false false (some 4) true) = true := by decide
theorem test_SM11 : ran (step1 .pin (eng .waitingResetMax (some 3) false [false])) [.sample false, .tcancel]
    (shows .idle false false false none false) = true := by decide
theorem test_SM12 : ran (step1 .pin (eng .presencePulseOn (some 2) true [])) []
    (shows .presencePulseOn false false false (some 2) true) = true := by decide
theorem test_SM14 : ran (step1 .tick (eng .presencePulseOn (some 1) true [false, false, true]))
    [.drive false, .sample false, .sample false, .sample true, .tset 2]
    (fun e => shows .waitingFirstSignal true false false (some 2) false e && e.fsCount == 3) = true := by decide
theorem test_SM15 : ran (step1 .tick (eng .presencePulseOn (some 1) true [false, false, false, false]))
    [.drive false, .sample false, .sample false, .sample false, .sample false, .fault .presenceRelease]
    (shows .idle false false false none false) = true := by decide
theorem test_SM16 : ran (step1 .tick { eng .presencePulseOn (some 1) true [true] with error := true })
    [.drive false, .sample true, .tset 2]
    (shows .waitingFirstSignal true true false (some 2) false) = true := by decide
theorem test_SM17 : ran (step1 .tick { eng .presencePulseOn (some 1) true (List.replicate 4 false) with error := true })
    [.drive false, .sample false, .sample false, .sample false, .sample false, .fault .presenceRelease]
    (shows .idle false false false none false) = true := by decide
theorem test_SM18 :
    ran (step1 .pin { eng .waitingFirstSignal (some 2) false [] with ignoreOneChange := true, fsCount := 3 }) []
      (fun e => shows .waitingFirstSignal false false false (some 2) false e && e.fsCount == 3) = true := by decide
theorem test_SM20 : ran (step1 .tick { eng .waitingFirstSignal (some 1) false [] with fsCount := 3 }) [.tset 2]
    (fun e => shows .waitingFirstSignal false false false (some 2) false e && e.fsCount == 2) = true := by decide
theorem test_SM22 :
    ran (step1 .tick { eng .waitingFirstSignal (some 1) false [] with ignoreOneChange := true, fsCount := 1 }) []
      (shows .idle false false false none false) = true := by decide
theorem test_SM23 : ran (step1 .pin { eng .waitingFirstSignal (some 2) false (commandDraws 0x00#8) with fsCount := 3 })
    (.tcancel :: byteTrace true 0x00#8) (shows .idle false false false none false) = true := by decide
theorem test_SM24 : faults (step1 .tick (eng .unused5 none false [])) .badStage = true ∧
    faults (step1 .pin (eng .unused7 none false [])) .badStage = true ∧
    faults (step1 (.host .setAlarmOn) (eng .unused5 none false [])) .badStage = true := by decide

/-- RS1 (one tick short of the minimum): no PRESENCE. RS4 (one tick past the maximum): PRESENCE. -/
theorem test_RS1_RS4 :
    ran (runSteps 9 (at1 (idle [false, true]) (.pin :: List.replicate 7 .tick ++ [.pin])))
      [.sample false, .tset 8, .sample true, .tcancel] (shows .idle false false false none false) = true ∧
    ran (runSteps 19 (at1 (idle [false, true]) (.pin :: List.replicate 17 .tick ++ [.pin])))
      [.sample false, .tset 8, .tset 8, .sample true, .delay .presenceDelay, .drive true, .tset 4]
      (shows .presencePulseOn false false false (some 4) true) = true := by decide

/-! ### 2.2 Wait primitives -/

theorem test_PQ2 : ran (run1 (.poll false 3) (idle [true, true, false])) [.sample true, .sample true, .sample false]
    (gave (.polled true)) = true := by decide
theorem test_PQ4 : ran (run1 (.poll true 1) (idle [false])) [.sample false] (gave (.polled false)) = true := by decide
theorem test_PQ6 : ran (run1 (.delay .sample) (idle [])) [.delay .sample] (fun _ => true) = true := by decide

/-! ### 2.3 Bit operations -/

theorem test_BT3 : ran (run1 .readBit { idle [false, true] with slotStarted := true })
    [.delay .sample, .sample false, .sample true]
    (fun e => gave (.bit false) e && shows .idle false false false none false e) = true := by decide
theorem test_BT8 : ran (run1 .readBit (idle [false, false, false, false, false]))
    [.sample false, .delay .sample, .sample false, .sample false, .sample false, .sample false, .fault .rdRelease]
    (fun e => gave (.bit false) e && shows .idle false true false none false e) = true := by decide
theorem test_BT12 : ran (run1 (.writeBit false) (idle [false, true]))
    [.sample false, .drive true, .delay .txHold, .drive false, .sample true]
    (shows .idle false false false none false) = true := by decide
theorem test_BT14 : ran (run1 (.writeBit false) (idle [true, true, true]))
    [.sample true, .sample true, .sample true, .fault .wrStart] (shows .idle false true false none false) = true := by
  decide

/-! ### 2.4 Byte operations -/

theorem test_BY1 : after (run1 .readByte (idle [false, true, false, false, true, false, true, false, false, true,
      false, true, false, false, true, false, true, false, false, true]))
    (fun e => gave (.byte 0x55#8) e && e.draws == []) = true := by decide
theorem test_BY2 : after (run1 .readByte (idle [false, true, false, true, true, true, true]))
    (fun e => gave (.byte 0x03#8) e && e.error) = true := by decide
theorem test_BY6 : after (run1 (.writeByte 0x02#8) (idle (writtenDraws (byteSlots 0x02#8))))
    (fun e => countOf TraceEntry.isSink e.trace == 7 && !e.error) = true := by decide
theorem test_BY8 : ran (run1 (.writeByte 0x00#8) (idle [false, true, false, true, false, true, true, true, true]))
    (writeBitTrace false ++ writeBitTrace false ++ writeBitTrace false
      ++ [.sample true, .sample true, .sample true, .fault .wrStart])
    (shows .idle false true false none false) = true := by decide
theorem test_BY11 : after (run1 (.writeByteWithCrc8 0x1C#8 0xBC#8) (idle (writtenDraws (byteSlots 0x1C#8))))
    (gave (.byte 0xAF#8)) = true := by decide
theorem test_BY13 : after (run1 (.writeByteWithCrc8 0x00#8 0x5E#8) (idle [true, true, true]))
    (fun e => gave (.byte 0x5E#8) e && e.error) = true := by decide

/-! ### 2.5 CRC8 -/

theorem test_crc_rows :
    [(0x00#8, 0x01#8), (0x00#8, 0x80#8), (0xBC#8, 0x1C#8), (0xFF#8, 0x00#8), (0x12#8, 0x34#8), (0xA2#8, 0xA2#8)].map
      (fun p => crc8Update p.1 p.2) = [0x5E#8, 0x8C#8, 0xAF#8, 0x35#8, 0xFE#8, 0x00#8] := by decide
theorem test_CR3 : crc8 [0x28#8, 0xFF#8, 0x4C#8, 0x6B#8, 0x01#8, 0x16#8, 0x04#8] = 0x08#8 := by decide +kernel
theorem test_CR1_CR6 : idValid idA = true ∧
    idValid (provision [0x02#8, 0x1C#8, 0xB8#8, 0x01#8, 0x00#8, 0x00#8, 0x00#8, 0xA3#8]) = false := by decide +kernel
theorem test_crc8Update_row : after (run1 (.crc8Update 0x00#8 0xCC#8) (idle [])) (gave (.byte 0x69#8)) = true := by
  decide

/-! ### 2.6 ROM commands -/

theorem test_id_bits : (idBits idA 64).count true = 12 ∧
    idBits idA 16 = [false, true, false, false, false, false, false, false,
      false, false, true, true, true, false, false, false] := by decide +kernel
theorem test_RC1 : after (step1 .pin (eng .waitingFirstSignal (some 2) false (commandDraws 0xCC#8)))
    (fun e => countOf TraceEntry.isCallback e.trace == 1 && countOf TraceEntry.isSample e.trace == 19) = true := by
  decide
theorem test_RC5 : ran (step1 .pin (eng .waitingFirstSignal (some 2) false (commandDraws 0xEC#8)))
    (.tcancel :: byteTrace true 0xEC#8) (shows .idle false false false none false) = true := by decide
theorem test_RC7 : after (run1 .readRom (idle (writtenDraws (idBits idA 64))))
    (fun e => countOf TraceEntry.isSink e.trace == 52 && e.draws == [] && !e.error) = true := by decide +kernel
theorem test_RC9 : ran (step1 .pin (eng .waitingFirstSignal (some 2) false [true, false, true, true, true, true]))
    [.tcancel, .delay .sample, .sample true, .sample false, .delay .sample, .sample true,
      .sample true, .sample true, .sample true, .fault .rdStart] (shows .idle false false false none false) = true := by
  decide
theorem test_MA1 : after (run1 .matchRom (idle (bytesDraws (storeBytes idA 8))))
    (fun e => countOf TraceEntry.isCallback e.trace == 1 && countOf TraceEntry.isSample e.trace == 180) = true := by
  decide +kernel
theorem test_MA3 : ran (run1 .matchRom (idle (bytesDraws [0x03#8]))) (bytesTrace [0x03#8])
    (fun e => e.draws == [] && !e.error) = true := by decide
theorem test_SE2 : ran (run1 .search (idle (searchDraws [false, false])))
    (writeBitTrace false ++ writeBitTrace true ++ readBitTrace false false
      ++ writeBitTrace true ++ writeBitTrace false ++ readBitTrace false false)
    (shows .idle false false false none false) = true := by decide
theorem test_SE5 : after (run1 .search (idle (searchDraws (idBits idA 63 ++ [false]))))
    (fun e => countOf TraceEntry.isSample e.trace == 437 && countOf TraceEntry.isSink e.trace == 64) = true := by
  decide +kernel
theorem test_SE6 : ran (run1 .alarmSearch { idle (searchDraws [true]) with alarm := true })
    (writeBitTrace false ++ writeBitTrace true ++ readBitTrace false true) (fun e => e.alarm && !e.error) = true := by
  decide
theorem test_SE8 : ran (run1 .search (idle [false, true, false, true, true, true, true]))
    (writeBitTrace false ++ writeBitTrace true ++ [.sample true, .sample true, .sample true, .fault .rdStart])
    (fun e => e.error) = true := by decide
theorem test_ignored : ran (run1 (.ignored 0xFF#8) (idle [])) [] (shows .idle false false false none false) = true := by
  decide

/-! ### 2.7 Host operations and reset -/

theorem test_HO8 :
    ran (step1 (.host .init) { eng .waitingFirstSignal (some 2) false [] with alarm := true, ignoreOneChange := true })
      [.port false, .drive false, .tcancel]
      (fun e => shows .idle false false false none false e && !e.alarm && !e.linePort) = true := by decide
theorem test_HO7 : ran (step1 (.host .setAlarmOn) (eng .presencePulseOn (some 2) true [])) []
    (fun e => shows .presencePulseOn false false false (some 2) true e && e.alarm) = true := by decide
theorem test_HO3 : after (step1 (.host .setAlarmOff) { idle [] with alarm := true }) (fun e => !e.alarm) = true := by
  decide
theorem test_HO4 : after (step1 (.host .isError) (idle [])) (gave (.bit false)) = true := by decide
theorem test_HO5 : after (step1 (.host .setErrorOn) (idle [])) (fun e => e.error) = true := by decide
theorem test_HO6 : after (step1 (.host .setErrorOff) { idle [] with error := true }) (fun e => !e.error) = true := by
  decide

/-- The callback's actions run inside it (R290), and its framing only with `CALLBACK_IO` = true (R291). -/
theorem test_callback_actions :
    ran (run1 .callback { idle [false, true] with callbacks := [[.setAlarmOn, .writeBit true, .isError]] })
      (.callback :: writeBitTrace true) (fun e => e.alarm && gave (.bit false) e) = true ∧
    ran (exec .callback
        { at1 { idle [] with callbacks := [[.writeBit true]] } [] with config := { Config.c0 with callbackIo := false } })
      [.callback] (fun e => !e.error) = true := by decide

/-- A step on another bus works on that bus's engine (R330), and an event before `init()` is refused (R341). -/
theorem test_second_bus :
    after (step { at1 (idle []) [] with
        parked := [{ idle [false] with bus := 1 }], inputs := [⟨1, .pin⟩] })
      (fun e => e.bus == 1 && shows .waitingResetMin false false false (some 8) false e) = true ∧
    stops (step1 .pin { idle [] with started := false }) .eventBeforeInit = true := by decide

/-- The placed command byte runs as the first instruction after reset: 0xEC with `alarm` = 0 (RC5). -/
theorem test_fetch_word : ran (step (State.reset.withFetchWord 8 0xEC)) (.tcancel :: byteTrace true 0xEC#8)
    (shows .idle false false false none false) = true := by decide

/-! ### Witnesses: states and operands that meet every hypothesis of an obligation, clause by clause -/

/-- An engine that waits for the first slot with the draws of a command byte. -/
def waiting (draws : List Bit) : Engine := eng .waitingFirstSignal (some 2) false draws

/-- A PIN for bus 0, a tick for bus 0. -/
def pin0 : Delivery := ⟨0, .pin⟩
def tick0 : Delivery := ⟨0, .tick⟩

/-- The eight bytes of ID_A. -/
def bytesA : List Byte := [0x02#8, 0x1C#8, 0xB8#8, 0x01#8, 0x00#8, 0x00#8, 0x00#8, 0xA2#8]

theorem witness_EncodedCommandDecodesBack :
    (WellFormed (.ignored 0xCD#8) = true ∧ encode (.ignored 0xCD#8) = some 0xCD#8) ∧
    (WellFormed .search = true ∧ encode .search = some 0xF0#8) ∧ 0x00#8 ∉ namedCommandBytes := by decide

theorem witness_CommandFrameRunsItsInstruction :
    let s := at1 (waiting (byteDraws true 0xCC#8 ++ [])) [.pin]
    WellFormed .skip = true ∧ encode .skip = some 0xCC#8 ∧ configValid s.config = true ∧ s.engine.started = true ∧
      s.engine.stage = .waitingFirstSignal ∧ s.engine.ignoreOneChange = false ∧ s.engine.error = false ∧
      s.engine.draws = byteDraws true 0xCC#8 ++ [] ∧ s.inputs = ⟨s.engine.bus, .pin⟩ :: [] := by decide

theorem witness_WithFetchWordRunsTheCommand : configValid State.reset.config = true := by decide

/-- An event after `init()`, a host operation before it. -/
theorem witness_StepRunsTheSelectedRow :
    (let s := at1 (idle [false]) [.pin];
      configValid s.config = true ∧ s.inputs = pin0 :: [] ∧
        State.focus pin0.bus { s with inputs := [] } = some { s with inputs := [] } ∧
        (pin0.input.isEvent = true → s.engine.started = true)) ∧
    (let s := at1 { idle [] with started := false } [.host .init];
      let d : Delivery := ⟨0, .host .init⟩;
      configValid s.config = true ∧ s.inputs = d :: [] ∧
        State.focus d.bus { s with inputs := [] } = some { s with inputs := [] } ∧
        (d.input.isEvent = true → s.engine.started = true) ∧ s.engine.started = false) := by decide

theorem witness_StepRefusesOrWaits :
    configValid { Config.c0 with ticksPresence := 0 } = false ∧
    (configValid (at1 (idle []) []).config = true ∧ (at1 (idle []) []).inputs = []) ∧
    (∀ e ∈ (at1 (idle []) []).engine :: (at1 (idle []) []).parked, e.bus ≠ (Delivery.mk 7 .pin).bus) ∧
    (let s := at1 { idle [] with started := false } [.pin];
      s.inputs = pin0 :: [] ∧ State.focus pin0.bus { s with inputs := [] } = some { s with inputs := [] } ∧
        pin0.input.isEvent = true ∧ s.engine.started = false) := by decide

theorem witness_StageSelectsTheRow :
    [Stage.idle, .waitingResetMin, .waitingResetMax, .presencePulseOn, .waitingFirstSignal, .unused5].map
      (fun st => (eng st none false []).stage) =
      [Stage.idle, .waitingResetMin, .waitingResetMax, .presencePulseOn, .waitingFirstSignal, .unused5] ∧
    (waiting []).ignoreOneChange = false ∧ ({ waiting [] with ignoreOneChange := true } : Engine).ignoreOneChange = true ∧
    (eng .waitingResetMin (some 1) false []).timerArmed = true ∧
    (eng .waitingResetMin (some 1) false []).timerCount = 1 := by decide

/-- An event and `init()` of an initialised engine, a host operation before `init()`, a host operation in a legal stage,
the first `init()` in an unused one. -/
theorem witness_BadStageFaults :
    (∀ i ∈ [Input.tick, .host .init], let s := at1 (eng .unused6 none false []) [i];
      s.engine.stage.isUnused = true ∧ configValid s.config = true ∧ s.engine.started = true ∧
        s.inputs = ⟨s.engine.bus, i⟩ :: []) ∧
    (let s := at1 { eng .unused5 none false [] with started := false } [.host .setAlarmOn];
      s.engine.stage.isUnused = true ∧ s.inputs = ⟨s.engine.bus, .host .setAlarmOn⟩ :: [] ∧
        HostOp.setAlarmOn ≠ .init) ∧
    (let s := at1 (idle []) [.host .isError];
      s.inputs = ⟨s.engine.bus, .host .isError⟩ :: [] ∧ s.engine.stage.isUnused = false) ∧
    (let s := at1 { eng .unused7 none false [] with started := false } [.host .init];
      s.inputs = ⟨s.engine.bus, .host .init⟩ :: [] ∧ HostOp.init = .init ∧ s.engine.started = false) := by decide

theorem witness_EveryRowCompletes :
    WellFormed (.poll false 1) = true ∧ Instr.poll false 1 ≠ .eventBadStage ∧
      (at1 (idle []) []).engine.stage.isUnused = false := by decide

theorem witness_PendingErrorCostsOneFrame :
    let s := at1 { waiting [] with error := true } [.pin]
    configValid s.config = true ∧ s.engine.started = true ∧ s.engine.stage = .waitingFirstSignal ∧
      s.engine.ignoreOneChange = false ∧ s.engine.error = true ∧ s.inputs = ⟨s.engine.bus, .pin⟩ :: [] := by decide

theorem witness_IdentifierStoreIsReadOnly : bytesA.length = 8 ∧ 7 < bytesA.length ∧
    ∃ t, exec .search (at1 (idle []) []) = .next t := ⟨rfl, by decide, _, rfl⟩

theorem witness_IdentifierBitOrder : bytesA.length = 8 ∧ 7 < 8 ∧ 7 < bytesA.length ∧ 8 ≤ 8 := by decide

theorem witness_WaitsAreBoundedBySamples :
    (2 < 3 ∧ (at1 (idle [true, true, false]) []).engine.draws = List.replicate 2 (!false) ++ false :: []) ∧
    (1 ≤ 1 ∧ (at1 (idle [false]) []).engine.draws = List.replicate 1 (!true) ++ []) := by decide

/-- The first slot of a frame, a later slot whose start comes at the last sample, the three data cases at their
boundaries, and the missed start. -/
theorem witness_ReadBitFollowsTheSlot :
    (let s := at1 { idle ([] ++ true :: []) with slotStarted := true } [];
      s.engine.error = false ∧ s.engine.slotStarted = true ∧ s.engine.draws = [] ++ true :: []) ∧
    (let s := at1 (idle ([true, true, false] ++ true :: [])) [];
      s.engine.slotStarted = false ∧ 2 < s.config.nRdStart ∧ [true, true, false] = List.replicate 2 true ++ [false] ∧
        s.engine.draws = [true, true, false] ++ true :: []) ∧
    (let s := at1 (idle ([false] ++ false :: List.replicate 2 false ++ true :: [])) [];
      2 < s.config.nRdRelease ∧ s.engine.draws = [false] ++ false :: List.replicate 2 false ++ true :: []) ∧
    (let s := at1 (idle ([false] ++ false :: List.replicate 3 false ++ [])) [];
      s.engine.draws = [false] ++ false :: List.replicate s.config.nRdRelease false ++ []) ∧
    (let s := at1 (idle (List.replicate 3 true ++ [])) [];
      s.engine.error = false ∧ s.engine.slotStarted = false ∧
        s.engine.draws = List.replicate s.config.nRdStart true ++ []) := by decide

theorem witness_WriteBitFollowsTheSlot :
    ({ idle [] with error := true } : Engine).error = true ∧
    (let s := at1 (idle (List.replicate 2 true ++ false :: List.replicate 2 false ++ true :: [])) [];
      s.engine.error = false ∧ 2 < s.config.nWrStart ∧ 2 < s.config.nWrRelease ∧
        s.engine.draws = List.replicate 2 true ++ false :: List.replicate 2 false ++ true :: []) ∧
    (let s := at1 (idle (List.replicate 0 true ++ false :: List.replicate 3 false ++ [])) [];
      0 < s.config.nWrStart ∧
        s.engine.draws = List.replicate 0 true ++ false :: List.replicate s.config.nWrRelease false ++ []) ∧
    (let s := at1 (idle (List.replicate 3 true ++ [])) [];
      s.engine.error = false ∧ s.engine.draws = List.replicate s.config.nWrStart true ++ []) := by decide

theorem witness_StickyErrorMakesFramingANoOp : (at1 { idle [] with error := true } []).engine.error = true := by decide

theorem witness_ReadByteAssemblesLsbFirst :
    let s := at1 (idle (byteDraws false 0x55#8 ++ [])) []
    configValid s.config = true ∧ s.engine.error = false ∧
      s.engine.draws = byteDraws s.engine.slotStarted 0x55#8 ++ [] := by decide

/-- Slot starts missed in bit 0 of a later byte and in bit 7 of a command byte; releases missed in the slot a frame began
with and in bit 7 of a later byte. -/
theorem witness_ReadByteStopsAtAMissedSlot :
    (let s := at1 (idle (bitsDraws false ((byteSlots 0xFF#8).take 0) ++ missDraws Config.c0 false .rdStart ++ [])) [];
      0 < 8 ∧ (FaultSite.rdStart = .rdStart → s.engine.slotStarted = true → 1 ≤ 0) ∧
        s.engine.draws = bitsDraws s.engine.slotStarted ((byteSlots 0xFF#8).take 0)
          ++ missDraws s.config (s.engine.slotStarted && 0 == 0) .rdStart ++ []) ∧
    (let s := at1 { idle (bitsDraws true ((byteSlots 0xFF#8).take 7) ++ missDraws Config.c0 false .rdStart ++ []) with
        slotStarted := true } [];
      configValid s.config = true ∧ s.engine.error = false ∧ 7 < 8 ∧
        (FaultSite.rdStart = .rdStart → s.engine.slotStarted = true → 1 ≤ 7) ∧
        s.engine.draws = bitsDraws s.engine.slotStarted ((byteSlots 0xFF#8).take 7)
          ++ missDraws s.config (s.engine.slotStarted && 7 == 0) .rdStart ++ []) ∧
    (let s := at1 { idle (missDraws Config.c0 true .rdRelease ++ []) with slotStarted := true } [];
      configValid s.config = true ∧ s.engine.error = false ∧
        s.engine.draws = bitsDraws s.engine.slotStarted ((byteSlots 0x55#8).take 0)
          ++ missDraws s.config (s.engine.slotStarted && 0 == 0) .rdRelease ++ []) ∧
    (let s := at1 (idle (bitsDraws false ((byteSlots 0x55#8).take 7) ++ missDraws Config.c0 false .rdRelease ++ [])) [];
      s.engine.draws = bitsDraws s.engine.slotStarted ((byteSlots 0x55#8).take 7)
          ++ missDraws s.config (s.engine.slotStarted && 7 == 0) .rdRelease ++ []) := by decide

theorem witness_SentBitsAppearOnTheLine :
    let s := at1 (idle (writtenDraws [true, false] ++ [])) []
    configValid s.config = true ∧ s.engine.error = false ∧ s.engine.lineDdr = false ∧
      s.engine.draws = writtenDraws [true, false] ++ [] := by decide

/-- All 64 triples, the first triple disagreeing, the last one disagreeing. -/
theorem witness_SearchParticipatesInAPrefix :
    (let s := at1 (idle (searchDraws (idBits idA 64) ++ [])) [];
      configValid s.config = true ∧ s.engine.error = false ∧ s.engine.slotStarted = false ∧
        s.engine.draws = searchDraws (idBits s.engine.store 64) ++ []) ∧
    (let s := at1 (idle (searchDraws (idBits idA 0 ++ [!idBit idA 0]) ++ [])) [];
      0 < 64 ∧ s.engine.draws = searchDraws (idBits s.engine.store 0 ++ [!idBit s.engine.store 0]) ++ []) ∧
    (let s := at1 (idle (searchDraws (idBits idA 63 ++ [!idBit idA 63]) ++ [])) [];
      63 < 64 ∧ s.engine.draws = searchDraws (idBits s.engine.store 63 ++ [!idBit s.engine.store 63]) ++ []) :=
  ⟨⟨by decide, rfl, rfl, rfl⟩, ⟨by decide, rfl⟩, ⟨by decide, rfl⟩⟩

/-- What the draws of a search are that misses `site` in slot `p` of triple `j` of ID_A. -/
def missedSearch (j p : Nat) (site : FaultSite) : List Bit :=
  searchDraws (idBits idA j) ++ writtenDraws ([idBit idA j, !idBit idA j].take p) ++ missDraws Config.c0 false site ++ []

/-- The first triple and the last, each of the three slots, each of the four sites. -/
theorem witness_SearchAbortsOnAMissedDeadline :
    (∀ q ∈ [(0, FaultSite.wrStart), (1, .wrRelease), (2, .rdStart), (2, .rdRelease)],
      q.1 < 2 ∧ (q.2 = .wrStart ∨ q.2 = .wrRelease) ∨ q.1 = 2 ∧ (q.2 = .rdStart ∨ q.2 = .rdRelease)) ∧ 0 < 64 ∧ 63 < 64 ∧
    (∀ j p site, let s := at1 (idle (missedSearch j p site)) [];
      configValid s.config = true ∧ s.engine.error = false ∧ s.engine.slotStarted = false ∧ s.engine.lineDdr = false ∧
        s.engine.draws = searchDraws (idBits s.engine.store j)
          ++ writtenDraws ([idBit s.engine.store j, !idBit s.engine.store j].take p)
          ++ missDraws s.config false site ++ []) :=
  ⟨by decide, by decide, by decide, fun _ _ _ => ⟨(by decide : configValid Config.c0 = true), rfl, rfl, rfl, rfl⟩⟩

theorem witness_AlarmGatesTheSearch :
    (at1 { idle [] with alarm := true } []).engine.alarm = true ∧ (at1 (idle []) []).engine.alarm = false := by decide

theorem witness_ReadSendsTheIdentifier :
    let s := at1 (idle (writtenDraws (idBits idA 64) ++ [])) []
    configValid s.config = true ∧ s.engine.error = false ∧ s.engine.lineDdr = false ∧
      s.engine.draws = writtenDraws (idBits s.engine.store 64) ++ [] := ⟨by decide, rfl, rfl, rfl⟩

/-- The whole identifier, the first byte wrong, the last byte wrong; a start missed in the first bit of the first byte, a
release missed in the last bit of the last one. -/
theorem witness_MatchIsExact :
    (let s := at1 (idle (bytesDraws (storeBytes idA 8) ++ [])) [];
      configValid s.config = true ∧ s.engine.error = false ∧ s.engine.slotStarted = false ∧
        s.engine.draws = bytesDraws (storeBytes s.engine.store 8) ++ []) ∧
    (let s := at1 (idle (bytesDraws (storeBytes idA 0 ++ [0x03#8]) ++ [])) [];
      0 < 8 ∧ 0x03#8 ≠ idByte s.engine.store 0 ∧
        s.engine.draws = bytesDraws (storeBytes s.engine.store 0 ++ [0x03#8]) ++ []) ∧
    (let s := at1 (idle (bytesDraws (storeBytes idA 7 ++ [0xA3#8]) ++ [])) [];
      7 < 8 ∧ 0xA3#8 ≠ idByte s.engine.store 7 ∧
        s.engine.draws = bytesDraws (storeBytes s.engine.store 7 ++ [0xA3#8]) ++ []) ∧
    (let s := at1 (idle (missDraws Config.c0 false .rdStart ++ [])) [];
      configValid s.config = true ∧ s.engine.error = false ∧ s.engine.slotStarted = false ∧ 0 < 8 ∧
        s.engine.draws = bytesDraws (storeBytes s.engine.store 0) ++ bitsDraws false ((byteSlots 0x02#8).take 0)
          ++ missDraws s.config false .rdStart ++ []) ∧
    (let s := at1 (idle (bytesDraws (storeBytes idA 7) ++ bitsDraws false ((byteSlots 0x22#8).take 7)
        ++ missDraws Config.c0 false .rdRelease ++ [])) [];
      7 < 8 ∧ s.engine.draws = bytesDraws (storeBytes s.engine.store 7) ++ bitsDraws false ((byteSlots 0x22#8).take 7)
          ++ missDraws s.config false .rdRelease ++ []) :=
  ⟨⟨by decide, rfl, rfl, rfl⟩, ⟨by decide, by decide, rfl⟩, ⟨by decide, by decide, rfl⟩,
    ⟨by decide, rfl, rfl, by decide, rfl⟩, ⟨by decide, rfl⟩⟩

theorem witness_CallbackRunsItsActions :
    (at1 { idle [] with callbacks := [[.setAlarmOn]] } []).engine.callbacks = [.setAlarmOn] :: [] ∧
    State.reset.engine.callbacks = [] := by decide

theorem witness_UnknownCommandsAreIgnored : 0xF1#8 ∉ namedCommandBytes ∧ (at1 (idle []) []).engine.alarm = false := by
  decide

theorem witness_PinWhileClassifyingReset :
    configValid (at1 (idle [true]) []).config = true ∧ (at1 (idle [true]) []).engine.draws = true :: [] ∧
      (at1 (idle [false]) []).engine.draws = false :: [] := by decide

theorem witness_ResetMinimumElapses : configValid (at1 (eng .waitingResetMin none false []) []).config = true := by decide

theorem witness_ResetWindowExpiryIsANoOp :
    (let s := at1 (eng .waitingResetMax (some 1) false []) [];
      s.engine.stage = .waitingResetMax ∧ s.engine.timerArmed = true ∧ s.engine.timerCount = 1) ∧
    (let s := at1 (eng .waitingResetMax none false [true]) [];
      s.engine.stage = .waitingResetMax ∧ s.engine.timerArmed = false ∧ s.engine.draws = true :: []) := by decide

theorem witness_PresencePulseEnds :
    (let s := at1 (eng .presencePulseOn none true (List.replicate 3 false ++ true :: [])) [];
      configValid s.config = true ∧ 3 < s.config.nPresenceRelease ∧
        s.engine.draws = List.replicate 3 false ++ true :: []) ∧
    (let s := at1 (eng .presencePulseOn none true (List.replicate 4 false ++ [])) [];
      s.engine.draws = List.replicate s.config.nPresenceRelease false ++ []) := by decide

theorem witness_FirstSignalRetryCountsDown :
    (let s := at1 { waiting [] with fsCount := 2 } [];
      configValid s.config = true ∧ s.engine.fsCount < 2 ^ s.config.fsCountBits ∧ 2 ≤ s.engine.fsCount) ∧
    (let s := at1 { waiting [] with fsCount := 1 } [];
      s.engine.fsCount < 2 ^ s.config.fsCountBits ∧ s.engine.fsCount = 1) := by decide

theorem witness_FrameEndsClean : (at1 (waiting []) []).engine.lineDdr = false := by decide

theorem witness_TicksOnlyCountDown :
    ((at1 (idle []) []).engine.stage.isUnused = false ∧ (at1 (idle []) []).engine.timerArmed = false) ∧
    (let s := at1 (eng .waitingResetMin (some 8) false []) (List.replicate 7 .tick);
      configValid s.config = true ∧ s.engine.started = true ∧ s.engine.stage.isUnused = false ∧
        s.engine.timerArmed = true ∧ s.engine.timerCount = 7 + 1 ∧ 7 + 1 < 2 ^ s.config.timerCountBits ∧
        s.inputs = List.replicate 7 ⟨s.engine.bus, .tick⟩ ++ []) := by decide

/-- One tick short of the minimum, and the minimum. -/
theorem witness_ResetIsClassifiedByTicks :
    (let s := at1 (idle [false, true]) (.pin :: List.replicate 7 .tick ++ [.pin]);
      configValid s.config = true ∧ s.engine.started = true ∧ s.engine.stage = .idle ∧
        s.engine.draws = false :: true :: [] ∧
        s.inputs = ⟨s.engine.bus, .pin⟩ :: List.replicate 7 ⟨s.engine.bus, .tick⟩ ++ ⟨s.engine.bus, .pin⟩ :: [] ∧
        7 < s.config.ticksResetMin) ∧
    (let s := at1 (idle [false, true]) (.pin :: List.replicate 8 .tick ++ [.pin]);
      s.inputs = ⟨s.engine.bus, .pin⟩ :: List.replicate 8 ⟨s.engine.bus, .tick⟩ ++ ⟨s.engine.bus, .pin⟩ :: [] ∧
        s.config.ticksResetMin ≤ 8) := by decide

theorem witness_PresencePulseLastsItsTicks :
    let evs : List Input := [.pin, .tick, .tick, .pin, .tick]
    let s := at1 (eng .presencePulseOn (some 4) true []) (evs ++ [.tick])
    configValid s.config = true ∧ s.engine.started = true ∧ s.engine.stage = .presencePulseOn ∧
      s.engine.lineDdr = true ∧ s.engine.timerArmed = true ∧ s.engine.timerCount = s.config.ticksPresence ∧
      (∀ i ∈ evs, i = .pin ∨ i = .tick) ∧ evs.count .tick + 1 = s.config.ticksPresence ∧
      s.inputs = evs.map (fun i => ⟨s.engine.bus, i⟩) ++ ⟨s.engine.bus, .tick⟩ :: [] := by decide

/-- One tick short of the episode's length, and its length. -/
theorem witness_FirstSignalEpisodeLength :
    (let s := at1 { waiting [] with fsCount := 3 } (List.replicate 5 .tick);
      configValid s.config = true ∧ s.engine.started = true ∧ s.engine.stage = .waitingFirstSignal ∧
        s.engine.timerArmed = true ∧ s.engine.timerCount = s.config.ticksFsRetry ∧
        s.engine.fsCount = s.config.nFirstSignal ∧
        s.inputs = List.replicate 5 ⟨s.engine.bus, .tick⟩ ++ [] ∧
        5 < s.config.nFirstSignal * s.config.ticksFsRetry) ∧
    (let s := at1 { waiting [] with fsCount := 3 } (List.replicate 6 .tick);
      s.inputs = List.replicate 6 ⟨s.engine.bus, .tick⟩ ++ [] ∧
        6 = s.config.nFirstSignal * s.config.ticksFsRetry) := by decide

theorem witness_ResetSatisfiesTheInvariant :
    configValid Config.c0 = true ∧ Memory.wf idA = true ∧ Config.c0.numInstances = 1 := by decide

/-- A state with the invariant in which a whole step runs: the last tick of the presence pulse. -/
def presenceEnding : State :=
  at1 { eng .presencePulseOn (some 1) true [true] with fsCount := 3 } [.tick]

theorem presenceEnding_inv : presenceEnding.Inv where
  config := by decide
  fits := by
    intro e he
    obtain rfl : e = presenceEnding.engine := by simpa [presenceEnding, at1, State.reset] using he
    exact ⟨by decide, by decide, by decide⟩
  engines := by
    intro e he _
    obtain rfl : e = presenceEnding.engine := by simpa [presenceEnding, at1, State.reset] using he
    exact ⟨by decide, by decide, by decide, by decide, by decide, by decide, by decide, by decide, by decide, by decide,
      by decide, by decide⟩
  buses := by decide
  count := by decide

theorem witness_StepKeepsTheInvariant : presenceEnding.Inv ∧ ∃ t, step presenceEnding = .next t :=
  ⟨presenceEnding_inv, _, rfl⟩

theorem witness_ErrorIsZeroBetweenMacroSteps :
    presenceEnding.inputs = tick0 :: [] ∧
      State.focus tick0.bus { presenceEnding with inputs := [] } = some { presenceEnding with inputs := [] } ∧
      presenceEnding.engine.error = false ∧ tick0.input ≠ .host .setErrorOn ∧
      ∃ t, step presenceEnding = .next t := ⟨by decide, by decide, by decide, by decide, _, rfl⟩

/-- Two engines, and a step of the second one. -/
def twoEngines : State :=
  { at1 (idle []) [] with
    config := { Config.c0 with numInstances := 2 }
    parked := [{ idle [false] with bus := 1 }], inputs := [⟨1, .pin⟩] }

theorem witness_StepLeavesOtherEnginesAlone :
    twoEngines.inputs = ⟨1, .pin⟩ :: [] ∧ (∃ t, step twoEngines = .next t) ∧ 0 ≠ (Delivery.mk 1 .pin).bus :=
  ⟨by decide, ⟨_, rfl⟩, by decide⟩

theorem witness_OnlyEventsMoveTheStateMachine :
    (∃ t, exec .matchRom (at1 (idle []) []) = .next t) ∧ isStageRow .matchRom = false := ⟨⟨_, rfl⟩, by decide⟩

theorem witness_OnlyPresenceLeavesTheLineSunk :
    Instr.writeBit false ≠ .pinResetMax ∧ (at1 (idle []) []).engine.lineDdr = false ∧
      ∃ t, exec (.writeBit false) (at1 (idle []) []) = .next t := ⟨by decide, by decide, _, rfl⟩

theorem witness_LineIsNeverSampledWhileSunk :
    presenceEnding.Inv ∧ presenceEnding.inputs = tick0 :: [] ∧
      State.focus tick0.bus { presenceEnding with inputs := [] } = some { presenceEnding with inputs := [] } ∧
      ∃ t, step presenceEnding = .next t := ⟨presenceEnding_inv, by decide, by decide, _, rfl⟩

/-- A row that runs a callback, in a configuration whose callback does no framing; a row without one, in the default
configuration; the frame of a command without one. -/
theorem witness_SamplesAreBounded :
    (let s := { at1 (idle []) [] with config := { Config.c0 with callbackIo := false } };
      s.config.callbackIo = false ∧ ∃ t, exec .matchRom s = .next t) ∧
    (State.reset.config.callbackIo = true ∧ mayRunCallback .search = false ∧ ∃ t, exec .search (at1 (idle []) []) = .next t) ∧
    mayRunCallback (decodeByte 0x33#8) = false := ⟨⟨rfl, _, rfl⟩, ⟨rfl, rfl, _, rfl⟩, rfl⟩

/-- The three premises, each with `error` = 1 and a row that does not poll for the presence release. -/
theorem witness_AtMostOneFaultPerRow :
    (let s := { at1 { idle [] with error := true } [] with config := { Config.c0 with callbackIo := false } };
      s.config.callbackIo = false ∧ (∃ t, exec .skip s = .next t) ∧ s.engine.error = true ∧
        Instr.skip ≠ .expiryPresence ∧ (Instr.skip = .tick → s.engine.stage ≠ .presencePulseOn)) ∧
    (let s := at1 { eng .waitingResetMin (some 1) false [] with error := true } [];
      mayRunCallback .tick = false ∧ (∃ t, exec .tick s = .next t) ∧ s.engine.error = true ∧
        Instr.tick ≠ .expiryPresence ∧ (Instr.tick = .tick → s.engine.stage ≠ .presencePulseOn)) ∧
    (let s := at1 { waiting [] with error := true, callbacks := [[.readByte]] } [];
      .setErrorOff ∉ s.engine.nextCallback.1 ∧ (∃ t, exec .pinFirstSignalFrame s = .next t) ∧ s.engine.error = true ∧
        Instr.pinFirstSignalFrame ≠ .expiryPresence ∧
        (Instr.pinFirstSignalFrame = .tick → s.engine.stage ≠ .presencePulseOn)) :=
  ⟨⟨rfl, ⟨_, rfl⟩, rfl, by decide, by decide⟩, ⟨rfl, ⟨_, rfl⟩, rfl, by decide, by decide⟩,
    ⟨by decide, ⟨_, rfl⟩, rfl, by decide, by decide⟩⟩

theorem witness_AlarmIsTouchedOnlyByHostAndGate :
    (∃ t, exec .readBit (at1 (idle [false, true]) []) = .next t ∧ Instr.readBit ≠ .init ∧
      Instr.readBit ≠ .setAlarmOn ∧ Instr.readBit ≠ .setAlarmOff ∧
      countOf TraceEntry.isCallback t.engine.trace =
        countOf TraceEntry.isCallback (at1 (idle [false, true]) []).engine.trace) ∧
    mayReadAlarm .search = false ∧ (∃ t, exec .search (at1 (idle []) []) = .next t) ∧
    ∃ u, exec .search ((at1 (idle []) []).withAlarm true) = .next u :=
  ⟨⟨_, rfl, by decide, by decide, by decide, by decide⟩, rfl, ⟨_, rfl⟩, _, rfl⟩

end Sys2Proof.Tests
end

section
/-! Proofs for 00_scope.md: the step, one equation per branch. -/

namespace Sys2Proof.Machine

/-- Focusing fails exactly when neither the engine in front nor a parked one is on the bus. -/
theorem State.focus_eq_none {bus : Nat} {s : State} :
    s.focus bus = none ↔ ∀ e ∈ s.engine :: s.parked, e.bus ≠ bus := by
  rw [List.forall_mem_cons, ← takeBus_eq_none]
  by_cases hb : s.engine.bus = bus
  · simp [State.focus, hb]
  · cases ht : takeBus bus s.parked <;> simp [State.focus, hb, ht]

/-- R10: an invalid configuration is refused. -/
theorem step_of_invalid {s : State} (hc : configValid s.config = false) :
    step s = .refused .invalidConfiguration := by
  simp [step, hc]

/-- R81: with no input the block waits. -/
theorem step_of_no_inputs {s : State} (hc : configValid s.config = true) (hi : s.inputs = []) :
    step s = .next s := by
  simp [step, hc, hi]

/-- The oldest input is delivered to the engine of its bus. -/
theorem step_of_focus {s f : State} {d : Delivery} {rest : List Delivery} (hc : configValid s.config = true)
    (hi : s.inputs = d :: rest) (hf : State.focus d.bus { s with inputs := rest } = some f) :
    step s = deliver d.input f := by
  simp [step, hc, hi, hf]

/-- An input for a bus that has no engine is refused. -/
theorem step_of_no_focus {s : State} {d : Delivery} {rest : List Delivery} (hc : configValid s.config = true)
    (hi : s.inputs = d :: rest) (hf : State.focus d.bus { s with inputs := rest } = none) :
    step s = .refused .noSuchEngine := by
  simp [step, hc, hi, hf]

/-- R341: an event before `init()` is refused. -/
theorem deliver_event_of_not_started {i : Input} {s : State} (he : i.isEvent = true)
    (hs : s.engine.started = false) : deliver i s = .refused .eventBeforeInit := by
  simp [deliver, he, hs]

/-- Settles O6: each clause is one branch of `step`; a bus without an engine is one that cannot get the focus. -/
theorem stepRefusesOrWaits : Obligations.StepRefusesOrWaits := by
  refine ⟨fun s hc => step_of_invalid hc, fun s hc hi => step_of_no_inputs hc hi, ?_, ?_⟩
  · intro s d rest hc hi hbus
    exact step_of_no_focus hc hi (State.focus_eq_none.mpr hbus)
  · intro s f d rest hc hi hf he hs
    rw [step_of_focus hc hi hf]
    exact deliver_event_of_not_started he hs

end Sys2Proof.Machine
end

section
/-! Proofs for 10_state.md, part 1: what the rows are as operations of one engine, and which registers each leaves
alone. -/

namespace Sys2Proof.Machine

/-! ### A row as an operation of the engine in focus -/

/-- The operation a row runs on the engine in focus. The bad-stage event never completes and has none. -/
def rowEffect : Instr → Config → Engine → Engine
  | .search => Engine.search
  | .alarmSearch => Engine.alarmSearch
  | .readRom => Engine.readRom
  | .matchRom => Engine.matchRom
  | .skip => Engine.skipRom
  | .ignored _ => fun _ e => e.ignore
  | .tick => Engine.softTimerTick
  | .pinIdle => Engine.pinIdle
  | .pinResetMin => fun _ e => e.pinResetMin
  | .pinResetMax => Engine.pinResetMax
  | .pinPresence => fun _ e => e.pinPresence
  | .pinFirstSignalIgnored => fun _ e => e.pinFirstSignalIgnored
  | .pinFirstSignalFrame => Engine.pinFirstSignalFrame
  | .expiryIdle => fun _ e => e.expiryIdle
  | .expiryResetMin => Engine.expiryResetMin
  | .expiryResetMax => fun _ e => e.expiryResetMax
  | .expiryPresence => Engine.expiryPresence
  | .expiryFirstSignal => Engine.expiryFirstSignal
  | .eventBadStage => fun _ e => e
  | .frame => Engine.frame
  | .poll level n => fun _ e => (e.poll level n).2.give (.polled (e.poll level n).1)
  | .delay d => fun _ e => e.delay d
  | .readBit => fun c e => (e.readBit c).2.give (.bit (e.readBit c).1)
  | .writeBit b => fun c e => e.writeBit c b
  | .readByte => fun c e => (e.readByte c).2.give (.byte (e.readByte c).1)
  | .writeByte v => fun c e => e.writeByte c v
  | .writeByteWithCrc8 v crc => fun c e => (e.writeByteWithCrc8 c v crc).2.give (.byte (e.writeByteWithCrc8 c v crc).1)
  | .crc8Update crc v => fun _ e => e.give (.byte (crc8Update crc v))
  | .init => fun _ e => e.init
  | .setAlarmOn => fun _ e => e.setAlarm true
  | .setAlarmOff => fun _ e => e.setAlarm false
  | .isError => fun _ e => e.giveError
  | .setErrorOn => fun _ e => e.setError true
  | .setErrorOff => fun _ e => e.setError false
  | .callback => Engine.callback

/-- Whether a row stops instead of answering a next state: the bad-stage event, a tick in an unused stage (R159), and a
poll with bound 0 (R190 d). -/
def rowStops (i : Instr) (st : Stage) : Bool :=
  match i with
  | .eventBadStage => true
  | .tick => st.isUnused
  | .poll _ n => n == 0
  | _ => false

theorem exec_of_runs {i : Instr} {s : State} (h : rowStops i s.engine.stage = false) :
    exec i s = .next (s.onEngine (rowEffect i)) := by
  cases i with
  | eventBadStage => exact nomatch h
  | tick => exact if_neg (by simpa [rowStops] using h)
  | poll level n => exact if_neg (by simpa [rowStops] using h)
  | _ => rfl

theorem exec_of_stops {i : Instr} {s t : State} (h : rowStops i s.engine.stage = true) : exec i s ≠ .next t := by
  cases i with
  | eventBadStage => simp [exec, execEventBadStage]
  | tick => simp [exec, execTick, show s.engine.stage.isUnused = true from h]
  | poll level n => simp [exec, execPoll, show n = 0 by simpa [rowStops] using h]
  | _ => exact nomatch h

/-- All that a row can do to the machine: its operation on the engine in focus, and nothing else. -/
theorem exec_eq_next_iff {i : Instr} {s t : State} :
    exec i s = .next t ↔ rowStops i s.engine.stage = false ∧ t = s.onEngine (rowEffect i) := by
  cases h : rowStops i s.engine.stage with
  | false => simp [exec_of_runs h, eq_comm]
  | true => simp [exec_of_stops h]

/-- The expiry handler runs the expiry row of the stage (R144). -/
theorem Engine.onTimerExpiry_eq (c : Config) (e : Engine) : e.onTimerExpiry c = rowEffect (expiryRow e.stage) c e := by
  cases h : e.stage <;> simp only [Engine.onTimerExpiry, h] <;> rfl

/-- The engine an expiry row finds: its timer has just run out (R143). -/
def Engine.expired (e : Engine) : Engine := { e with timerCount := 0, timerArmed := false }

/-- All that a tick can do: nothing, count, or run the expiry row with the timer disarmed (R143). -/
theorem Engine.softTimerTick_cases (c : Config) (e : Engine) :
    e.softTimerTick c = e ∨
    (∃ n, n < 2 ^ c.timerCountBits ∧ e.softTimerTick c = { e with timerCount := n }) ∨
    e.softTimerTick c = rowEffect (expiryRow e.stage) c e.expired := by
  unfold Engine.softTimerTick
  split
  · dsimp only
    split
    · rename_i h0
      exact .inr (.inr (by rw [h0, Engine.onTimerExpiry_eq]; rfl))
    · exact .inr (.inl ⟨_, decr_lt _ _, rfl⟩)
  · exact .inl rfl

/-! ### Rows outside the state machine -/

theorem Io.outsideApp {P : Prop} {n : Nat} {e e' : Engine} (h : Io P n e e') : e'.outsideApp = e.outsideApp :=
  let ⟨_, a⟩ := h
  (a.app Config.c0).frame

theorem App.outsideApp {P : Prop} {c : Config} {n : Nat} {e e' : Engine} (h : App P c n e e') :
    e'.outsideApp = e.outsideApp :=
  let ⟨_, a⟩ := h
  a.frame

/-- Handing a result out is invisible to the specification. -/
theorem App.give {P : Prop} {c : Config} {n : Nat} {e e' : Engine} (h : App P c n e e') (v : Value) :
    App P c n e (e'.give v) :=
  let ⟨tr, a⟩ := h
  ⟨tr, { a with frame := a.frame, trace := a.trace, slot := a.slot, sunk := a.sunk, quiet := a.quiet }⟩

/-- An operation that records nothing and keeps `alarm`. -/
theorem App.silently {P : Prop} {c : Config} (n : Nat) {e e' : Engine} (hf : e'.outsideApp = e.outsideApp)
    (ht : e'.trace = e.trace) (hs : e'.slotStarted = e.slotStarted) (hl : e'.lineDdr = e.lineDdr)
    (ha : e'.alarm = e.alarm) : App P c n e e' :=
  ⟨[], {
    frame := hf, trace := ht, slot := hs.trans, rel := fun _ => rfl, sunk := hl.symm, before := Nat.zero_le n
    samples := fun _ => Nat.zero_le n, faults := fun _ => (Nat.zero_add _).trans_le (Bool.toNat_le_one' _)
    quiet := fun _ => ha }⟩

/-- Every row that does not work on the state machine's registers and is no alarm operation does what a command with its
callback may do. -/
theorem rowEffect_app {P : Prop} {i : Instr} (hi : isStageRow i = false) (hon : i ≠ .setAlarmOn)
    (hoff : i ≠ .setAlarmOff) (c : Config) (e : Engine) (hP : P → e.lineDdr = false) :
    App P c (sampleBound c i) e (rowEffect i c e) := by
  cases i with
  | search => exact (Engine.search_io c e hP).app c
  | alarmSearch => exact (Engine.alarmSearch_io c e hP).app c
  | readRom => exact (Engine.readRom_io c e hP).app c
  | matchRom => exact Engine.matchRom_app c e hP
  | skip => exact Engine.callback_app c e hP
  | ignored _ => exact (Io.refl _ e).app c
  | frame => exact (Engine.frame_app c e hP).mono (Nat.add_le_add_left (sampleBound_decodeByte_le c _) _)
  | poll level n => exact ((Engine.poll_io level n e hP).app c).give _
  | delay d => exact (Engine.delay_io d e).app c
  | readBit => exact ((Engine.readBit_io c e hP).app c).give _
  | writeBit b => exact (Engine.writeBit_io c b e hP).app c
  | readByte => exact ((Engine.readByte_io c e hP).app c).give _
  | writeByte v => exact (Engine.writeByte_io c v e hP).app c
  | writeByteWithCrc8 v crc =>
    refine App.give ?_ _
    rw [Engine.writeByteWithCrc8_engine]
    exact (Engine.writeByte_io c v e hP).app c
  | callback => exact Engine.callback_app c e hP
  | crc8Update _ _ | isError | setErrorOn | setErrorOff => exact App.silently _ rfl rfl rfl rfl rfl
  | setAlarmOn => exact absurd rfl hon
  | setAlarmOff => exact absurd rfl hoff
  | _ => exact nomatch hi

/-- No such row writes a register of the state machine, the store or the bus number. -/
theorem rowEffect_outsideApp {i : Instr} (hi : isStageRow i = false) (c : Config) (e : Engine) :
    (rowEffect i c e).outsideApp = e.outsideApp := by
  by_cases hon : i = .setAlarmOn
  · subst hon
    rfl
  by_cases hoff : i = .setAlarmOff
  · subst hoff
    rfl
  exact (rowEffect_app (P := False) hi hon hoff c e fun h => h.elim).outsideApp

/-! ### Rows of the state machine -/

/-- The registers that no event other than a frame writes. -/
def Engine.outsideStage (e : Engine) : Engine :=
  { e.outsideIo with
    slotStarted := e.slotStarted
    stage := .idle, ignoreOneChange := false, fsCount := 0, timerArmed := false, timerCount := 0 }

theorem Engine.pin_outsideStage (e : Engine) : e.pin.2.outsideStage = e.outsideStage := by
  obtain ⟨ds, k, h⟩ := e.pin_spec
  rw [h]
  rfl

theorem Engine.poll_outsideStage (level : Bit) (n : Nat) (e : Engine) :
    (e.poll level n).2.outsideStage = e.outsideStage := by
  obtain ⟨ds, k, tr, h, -, -⟩ := e.poll_spec level n
  rw [h]
  rfl

theorem Engine.pinIdle_outsideStage (c : Config) (e : Engine) : (e.pinIdle c).outsideStage = e.outsideStage := by
  have h := e.pin_outsideStage
  unfold Engine.pinIdle
  generalize e.pin = p at h ⊢
  dsimp only
  split <;> exact h

theorem Engine.pinResetMin_outsideStage (e : Engine) : e.pinResetMin.outsideStage = e.outsideStage := by
  have h := e.pin_outsideStage
  unfold Engine.pinResetMin
  generalize e.pin = p at h ⊢
  dsimp only
  split <;> exact h

theorem Engine.pinResetMax_outsideStage (c : Config) (e : Engine) :
    (e.pinResetMax c).outsideStage = e.outsideStage := by
  have h := e.pin_outsideStage
  unfold Engine.pinResetMax
  generalize e.pin = p at h ⊢
  dsimp only
  split <;> exact h

theorem Engine.expiryPresence_outsideStage (c : Config) (e : Engine) :
    (e.expiryPresence c).outsideStage = e.outsideStage := by
  have h := Engine.poll_outsideStage true c.nPresenceRelease (e.drive false)
  unfold Engine.expiryPresence
  generalize (e.drive false).poll true c.nPresenceRelease = p at h ⊢
  dsimp only
  split <;> exact h

theorem Engine.expiryFirstSignal_outsideStage (c : Config) (e : Engine) :
    (e.expiryFirstSignal c).outsideStage = e.outsideStage := by
  simp only [Engine.expiryFirstSignal]
  split <;> rfl

theorem expiryRow_outsideStage (st : Stage) (c : Config) (e : Engine) :
    (rowEffect (expiryRow st) c e).outsideStage = e.outsideStage := by
  cases st with
  | presencePulseOn => exact e.expiryPresence_outsideStage c
  | waitingFirstSignal => exact e.expiryFirstSignal_outsideStage c
  | _ => rfl

theorem Engine.softTimerTick_outsideStage (c : Config) (e : Engine) :
    (e.softTimerTick c).outsideStage = e.outsideStage := by
  obtain h | ⟨n, -, h⟩ | h := e.softTimerTick_cases c <;> rw [h]
  · rfl
  · exact expiryRow_outsideStage e.stage c e.expired

/-- Every event but a frame. -/
theorem rowEffect_outsideStage {i : Instr} (hi : isStageRow i = true) (hf : i ≠ .pinFirstSignalFrame)
    (h0 : i ≠ .init) (c : Config) (e : Engine) : (rowEffect i c e).outsideStage = e.outsideStage := by
  cases i with
  | tick => exact e.softTimerTick_outsideStage c
  | pinIdle => exact e.pinIdle_outsideStage c
  | pinResetMin => exact e.pinResetMin_outsideStage
  | pinResetMax => exact e.pinResetMax_outsideStage c
  | expiryPresence => exact e.expiryPresence_outsideStage c
  | expiryFirstSignal => exact e.expiryFirstSignal_outsideStage c
  | pinPresence | pinFirstSignalIgnored | expiryIdle | expiryResetMin | expiryResetMax | eventBadStage => rfl
  | pinFirstSignalFrame => exact absurd rfl hf
  | init => exact absurd rfl h0
  | _ => exact nomatch hi

/-- The engine in which a frame runs: out of the state machine, its first slot begun (R156). -/
def Engine.frameStart (e : Engine) : Engine := { e.timerCancel.goto .idle with slotStarted := true }

theorem Engine.pinFirstSignalFrame_eq (c : Config) (e : Engine) :
    e.pinFirstSignalFrame c = (e.frameStart.frame c).endFrame := rfl

theorem Engine.pinFirstSignalFrame_outsideApp (c : Config) (e : Engine) :
    (e.pinFirstSignalFrame c).outsideApp = e.frameStart.outsideApp := Engine.frame_outside c e.frameStart

/-- No row writes the identifier store (R75) or the bus number. -/
theorem rowEffect_store_bus (i : Instr) (c : Config) (e : Engine) :
    (rowEffect i c e).store = e.store ∧ (rowEffect i c e).bus = e.bus := by
  cases hi : isStageRow i with
  | false =>
    have h := rowEffect_outsideApp hi c e
    exact ⟨(congrArg Engine.store h :), (congrArg Engine.bus h :)⟩
  | true =>
    by_cases hf : i = .pinFirstSignalFrame
    · subst hf
      have h := e.pinFirstSignalFrame_outsideApp c
      exact ⟨(congrArg Engine.store h :), (congrArg Engine.bus h :)⟩
    by_cases h0 : i = .init
    · subst h0
      exact ⟨rfl, rfl⟩
    have h := rowEffect_outsideStage hi hf h0 c e
    exact ⟨(congrArg Engine.store h :), (congrArg Engine.bus h :)⟩

/-- Settles O54: a row is an operation of the engine in focus; none of them writes the store or the bus number, and
those of the rows outside the state machine keep its registers. -/
theorem onlyEventsMoveTheStateMachine : Obligations.OnlyEventsMoveTheStateMachine := by
  intro i s t h
  obtain ⟨-, rfl⟩ := exec_eq_next_iff.mp h
  obtain ⟨hstore, hbus⟩ := rowEffect_store_bus i s.config s.engine
  refine ⟨⟨hstore, hbus, rfl, rfl, rfl⟩, fun hi => ?_⟩
  have hout := rowEffect_outsideApp hi s.config s.engine
  exact ⟨(congrArg Engine.stage hout :), (congrArg Engine.ignoreOneChange hout :), (congrArg Engine.fsCount hout :),
    (congrArg Engine.timerArmed hout :), (congrArg Engine.timerCount hout :), (congrArg Engine.linePort hout :)⟩

end Sys2Proof.Machine
end

section
/-! Proofs for 10_state.md, part 2: the invariant of a run. -/

namespace Sys2Proof.Machine

/-! ### The invariant, stage by stage -/

/-- What the invariant says in each stage, `slot_started` and `line.port` aside. -/
def Engine.StageInv (c : Config) (e : Engine) : Prop :=
  match e.stage with
  | .idle => e.ignoreOneChange = false ∧ e.lineDdr = false ∧ e.timerArmed = false
  | .waitingResetMin => e.ignoreOneChange = false ∧ e.lineDdr = false ∧ e.timerArmed = true ∧
      1 ≤ e.timerCount ∧ e.timerCount ≤ c.ticksResetMin
  | .waitingResetMax => e.ignoreOneChange = false ∧ e.lineDdr = false ∧ (e.timerArmed = true → 1 ≤ e.timerCount)
  | .presencePulseOn => e.ignoreOneChange = false ∧ e.lineDdr = true ∧ e.timerArmed = true ∧
      1 ≤ e.timerCount ∧ e.timerCount ≤ c.ticksPresence
  | .waitingFirstSignal => e.lineDdr = false ∧ e.timerArmed = true ∧ 1 ≤ e.timerCount ∧
      e.timerCount ≤ c.ticksFsRetry ∧ 1 ≤ e.fsCount ∧ e.fsCount ≤ c.nFirstSignal
  | .unused5 | .unused6 | .unused7 => False

theorem Engine.inv_iff {c : Config} {e : Engine} :
    e.Inv c ↔ e.slotStarted = false ∧ e.linePort = false ∧ e.StageInv c := by
  constructor
  · rintro ⟨hslot, hignore, hline, htimer, hlegal, hport, harmed, hcounting, hmin, hpresence, hretry, hrounds⟩
    refine ⟨hslot, hport, ?_⟩
    cases hs : e.stage <;> simp_all [Engine.StageInv, Stage.isUnused]
  · rintro ⟨hslot, hport, h⟩
    cases hs : e.stage <;> simp only [Engine.StageInv, hs] at h <;> constructor <;> simp_all [Stage.isUnused]

/-- The invariant looks at no register that a command writes, `slot_started` and the line aside. -/
theorem Engine.Inv.congr {c : Config} {e e' : Engine} (h : e.Inv c) (ho : e'.outsideApp = e.outsideApp)
    (hs : e'.slotStarted = e.slotStarted) (hl : e'.lineDdr = e.lineDdr) : e'.Inv c := by
  have hstage : e'.stage = e.stage := (congrArg Engine.stage ho :)
  have hignore : e'.ignoreOneChange = e.ignoreOneChange := (congrArg Engine.ignoreOneChange ho :)
  have hfs : e'.fsCount = e.fsCount := (congrArg Engine.fsCount ho :)
  have harmed : e'.timerArmed = e.timerArmed := (congrArg Engine.timerArmed ho :)
  have hcount : e'.timerCount = e.timerCount := (congrArg Engine.timerCount ho :)
  have hport : e'.linePort = e.linePort := (congrArg Engine.linePort ho :)
  rw [Engine.inv_iff] at h ⊢
  simpa only [Engine.StageInv, hstage, hignore, hfs, harmed, hcount, hport, hs, hl] using h

/-- The end state of an episode: out of every stage, everything released. -/
theorem Engine.inv_of_idle {c : Config} {e : Engine} (hslot : e.slotStarted = false) (hport : e.linePort = false)
    (hstage : e.stage = .idle) (hignore : e.ignoreOneChange = false) (hline : e.lineDdr = false)
    (htimer : e.timerArmed = false) : e.Inv c :=
  Engine.inv_iff.mpr ⟨hslot, hport, by simp [Engine.StageInv, hstage, hignore, hline, htimer]⟩

theorem Engine.pin_inv {c : Config} {e : Engine} (h : e.Inv c) : e.pin.2.Inv c := by
  obtain ⟨ds, k, hp⟩ := e.pin_spec
  exact h.congr (by rw [hp]; rfl) (by rw [hp]) (by rw [hp])

theorem Engine.pin_stage (e : Engine) : e.pin.2.stage = e.stage := by
  obtain ⟨ds, k, hp⟩ := e.pin_spec
  rw [hp]

/-! ### The edges -/

section Edges
variable {c : Config} {e : Engine}

theorem Engine.pinIdle_inv (hc : ConfigFacts c) (h : e.Inv c) (hs : e.stage = .idle) : (e.pinIdle c).Inv c := by
  have hp := Engine.pin_inv h
  have hps := e.pin_stage.trans hs
  unfold Engine.pinIdle
  generalize e.pin = p at hp hps ⊢
  dsimp only
  split
  · exact hp
  · obtain ⟨hslot, hport, hst⟩ := Engine.inv_iff.mp hp
    simp only [Engine.StageInv, hps] at hst
    obtain ⟨hignore, hline, -⟩ := hst
    refine Engine.inv_iff.mpr ⟨hslot, hport, hignore, hline, rfl, ?_⟩
    simp [fit_of_lt hc.resetMin.2, hc.resetMin.1]

theorem Engine.pinResetMin_inv (h : e.Inv c) (hs : e.stage = .waitingResetMin) : e.pinResetMin.Inv c := by
  have hp := Engine.pin_inv h
  have hps := e.pin_stage.trans hs
  unfold Engine.pinResetMin
  generalize e.pin = p at hp hps ⊢
  dsimp only
  split
  · obtain ⟨hslot, hport, hst⟩ := Engine.inv_iff.mp hp
    simp only [Engine.StageInv, hps] at hst
    obtain ⟨hignore, hline, -⟩ := hst
    exact Engine.inv_of_idle hslot hport rfl hignore hline rfl
  · exact hp

theorem Engine.pinResetMax_inv (hc : ConfigFacts c) (h : e.Inv c) (hs : e.stage = .waitingResetMax) :
    (e.pinResetMax c).Inv c := by
  have hp := Engine.pin_inv h
  have hps := e.pin_stage.trans hs
  unfold Engine.pinResetMax
  generalize e.pin = p at hp hps ⊢
  obtain ⟨hslot, hport, hst⟩ := Engine.inv_iff.mp hp
  simp only [Engine.StageInv, hps] at hst
  obtain ⟨hignore, hline, -⟩ := hst
  dsimp only
  split
  · refine Engine.inv_iff.mpr ⟨hslot, hport, hignore, rfl, rfl, ?_⟩
    simp [fit_of_lt hc.presence.2, hc.presence.1]
  · exact Engine.inv_of_idle hslot hport rfl hignore hline rfl

theorem Engine.pinFirstSignalIgnored_inv (h : e.Inv c) (hs : e.stage = .waitingFirstSignal) :
    e.pinFirstSignalIgnored.Inv c := by
  obtain ⟨hslot, hport, hst⟩ := Engine.inv_iff.mp h
  refine Engine.inv_iff.mpr ⟨hslot, hport, ?_⟩
  simpa [Engine.StageInv, Engine.pinFirstSignalIgnored, hs] using hst

/-- A frame comes back with everything released, whatever its command and its callback did (R156). -/
theorem Engine.pinFirstSignalFrame_inv (h : e.Inv c) (hs : e.stage = .waitingFirstSignal)
    (hi : e.ignoreOneChange = false) : (e.pinFirstSignalFrame c).Inv c := by
  obtain ⟨-, hport, hst⟩ := Engine.inv_iff.mp h
  simp only [Engine.StageInv, hs] at hst
  have hout := e.pinFirstSignalFrame_outsideApp c
  exact Engine.inv_of_idle rfl ((congrArg Engine.linePort hout :).trans hport) (congrArg Engine.stage hout :)
    ((congrArg Engine.ignoreOneChange hout :).trans hi) (Engine.frame_line c e.frameStart hst.1)
    (congrArg Engine.timerArmed hout :)

/-- The row a PIN selects (R144). -/
theorem Engine.pinRow_inv (hc : ConfigFacts c) (h : e.Inv c) : (rowEffect (pinRow e) c e).Inv c := by
  cases hs : e.stage <;> simp only [pinRow, hs]
  case idle => exact Engine.pinIdle_inv hc h hs
  case waitingResetMin => exact Engine.pinResetMin_inv h hs
  case waitingResetMax => exact Engine.pinResetMax_inv hc h hs
  case waitingFirstSignal =>
    split
    · exact Engine.pinFirstSignalIgnored_inv h hs
    · rename_i hi
      exact Engine.pinFirstSignalFrame_inv h hs (by simpa using hi)
  case presencePulseOn | unused5 | unused6 | unused7 => exact h

end Edges

/-! ### The tick -/

section Tick
variable {c : Config} {e : Engine}

theorem Engine.expiryResetMin_inv (hc : ConfigFacts c) (h : e.Inv c) (hs : e.stage = .waitingResetMin) :
    (e.expired.expiryResetMin c).Inv c := by
  obtain ⟨hslot, hport, hst⟩ := Engine.inv_iff.mp h
  simp only [Engine.StageInv, hs] at hst
  obtain ⟨hignore, hline, -⟩ := hst
  refine Engine.inv_iff.mpr ⟨hslot, hport, hignore, hline, fun _ => ?_⟩
  simp [Engine.expiryResetMin, fit_of_lt hc.resetWindow.2, hc.resetWindow.1]

theorem Engine.expiryResetMax_inv (h : e.Inv c) (hs : e.stage = .waitingResetMax) :
    e.expired.expiryResetMax.Inv c := by
  obtain ⟨hslot, hport, hst⟩ := Engine.inv_iff.mp h
  refine Engine.inv_iff.mpr ⟨hslot, hport, ?_⟩
  simp only [Engine.StageInv, hs] at hst
  simp [Engine.StageInv, Engine.expiryResetMax, Engine.expired, hs, hst.1, hst.2.1]

/-- The pulse ends with the line released, on both paths (R153). -/
theorem Engine.expiryPresence_inv (hc : ConfigFacts c) (h : e.Inv c) (hs : e.stage = .presencePulseOn) :
    (e.expired.expiryPresence c).Inv c := by
  obtain ⟨hslot, hport, hst⟩ := Engine.inv_iff.mp h
  simp only [Engine.StageInv, hs] at hst
  obtain ⟨ds, k, tr, hp, -, -⟩ := (e.expired.drive false).poll_spec true c.nPresenceRelease
  unfold Engine.expiryPresence
  dsimp only
  rw [hp]
  split
  · refine Engine.inv_iff.mpr ⟨hslot, hport, rfl, rfl, ?_⟩
    simp [fit_of_lt hc.retry.2, hc.retry.1, fit_of_lt hc.rounds.2, hc.rounds.1]
  · exact Engine.inv_of_idle hslot hport rfl hst.1 rfl rfl

theorem Engine.expiryFirstSignal_inv (hc : ConfigFacts c) (h : e.Inv c) (hs : e.stage = .waitingFirstSignal) :
    (e.expired.expiryFirstSignal c).Inv c := by
  obtain ⟨hslot, hport, hst⟩ := Engine.inv_iff.mp h
  simp only [Engine.StageInv, hs] at hst
  obtain ⟨hline, -, -, -, hpos, hle⟩ := hst
  have hn : decr c.fsCountBits e.fsCount = e.fsCount - 1 :=
    decr_of_pos hpos (hle.trans hc.rounds.2.le)
  unfold Engine.expiryFirstSignal
  dsimp only [Engine.expired]
  rw [hn]
  split
  · exact Engine.inv_of_idle hslot hport rfl rfl hline rfl
  · refine Engine.inv_iff.mpr ⟨hslot, hport, ?_⟩
    have hround : 1 ≤ e.fsCount - 1 ∧ e.fsCount - 1 ≤ c.nFirstSignal := by omega
    simpa [Engine.StageInv, hs, hline, fit_of_lt hc.retry.2, hc.retry.1] using hround

/-- The row an expiry selects (R144). -/
theorem Engine.expiryRow_inv (hc : ConfigFacts c) (h : e.Inv c) (ha : e.timerArmed = true) :
    (rowEffect (expiryRow e.stage) c e.expired).Inv c := by
  cases hs : e.stage with
  | idle => exact absurd hs (h.timer ha)
  | waitingResetMin => exact Engine.expiryResetMin_inv hc h hs
  | waitingResetMax => exact Engine.expiryResetMax_inv h hs
  | presencePulseOn => exact Engine.expiryPresence_inv hc h hs
  | waitingFirstSignal => exact Engine.expiryFirstSignal_inv hc h hs
  | unused5 | unused6 | unused7 => exact absurd h.legal (by simp [hs, Stage.isUnused])

/-- A countdown that goes on keeps the invariant. -/
theorem Engine.Inv.countDown (h : e.Inv c) {n : Nat} (h1 : 1 ≤ n) (hn : n ≤ e.timerCount) :
    ({ e with timerCount := n } : Engine).Inv c :=
  { h with
    counting := fun _ => h1
    resetMinCount := fun hs => hn.trans (h.resetMinCount hs)
    presenceCount := fun hs => hn.trans (h.presenceCount hs)
    retryCount := fun hs => hn.trans (h.retryCount hs) }

theorem Engine.softTimerTick_inv (hc : ConfigFacts c) (hw : e.timerCount < 2 ^ c.timerCountBits) (h : e.Inv c) :
    (e.softTimerTick c).Inv c := by
  cases ha : e.timerArmed with
  | false =>
    rw [Engine.tick_disarmed c ha]
    exact h
  | true =>
    have hpos := h.counting ha
    by_cases h1 : e.timerCount = 1
    · rw [Engine.tick_expires ha h1, Engine.onTimerExpiry_eq]
      exact Engine.expiryRow_inv (e := e) hc h ha
    · rw [Engine.tick_counting ha (by omega) hw]
      exact h.countDown (by omega) (by omega)

end Tick

/-! ### Any input -/

theorem Engine.init_inv (c : Config) (e : Engine) : e.init.Inv c := Engine.inv_of_idle rfl rfl rfl rfl rfl rfl

/-- What an input makes of an engine that has the invariant, if it has seen `init()`. -/
theorem rowOf_inv {c : Config} {e : Engine} (hc : ConfigFacts c) (hw : e.timerCount < 2 ^ c.timerCountBits) {i : Input}
    (h : e.started = true → e.Inv c) (hi : i.isEvent = true → e.started = true) :
    (rowEffect (rowOf i e) c e).started = true → (rowEffect (rowOf i e) c e).Inv c := by
  cases i with
  | pin => exact fun _ => Engine.pinRow_inv hc (h (hi rfl))
  | tick =>
    intro _
    simp only [rowOf, tickRow]
    split
    · exact h (hi rfl)
    · exact Engine.softTimerTick_inv hc hw (h (hi rfl))
  | host op =>
    rcases hostRow_cases op e with hrow | hrow <;> rw [rowOf, hrow]
    · cases op with
      | init => exact fun _ => e.init_inv c
      | setAlarmOn | setAlarmOff | isError | setErrorOn | setErrorOff => exact fun hs => (h hs).congr rfl rfl rfl
    · exact h

/-! ### Widths -/

section Widths
variable {c : Config} {e : Engine}

/-- Other counts keep the widths if they fit them. -/
theorem Engine.Fits.of_counts {e' : Engine} (h : e.Fits c) (hst : e'.store = e.store)
    (hf : e'.fsCount = e.fsCount ∨ e'.fsCount < 2 ^ c.fsCountBits)
    (ht : e'.timerCount = e.timerCount ∨ e'.timerCount < 2 ^ c.timerCountBits) : e'.Fits c where
  fsCount := hf.elim (fun hf => hf ▸ h.fsCount) id
  timerCount := ht.elim (fun ht => ht ▸ h.timerCount) id
  store := hst ▸ h.store

theorem Engine.Fits.congr {e' : Engine} (h : e.Fits c) (ho : e'.outsideApp = e.outsideApp) : e'.Fits c :=
  h.of_counts (congrArg Engine.store ho :) (.inl (congrArg Engine.fsCount ho :))
    (.inl (congrArg Engine.timerCount ho :))

theorem Engine.Fits.timerSet (h : e.Fits c) (n : Nat) : (e.timerSet c n).Fits c :=
  h.of_counts rfl (.inl rfl) (.inr (fit_lt _ _))

theorem Engine.Fits.pin (h : e.Fits c) : e.pin.2.Fits c :=
  h.congr (Engine.pin_io (P := False) e fun h => h.elim).outsideApp

theorem Engine.Fits.poll (h : e.Fits c) (level : Bit) (n : Nat) : (e.poll level n).2.Fits c :=
  h.congr (Engine.poll_io (P := False) level n e fun h => h.elim).outsideApp

theorem Engine.pinIdle_fits (h : e.Fits c) : (e.pinIdle c).Fits c := by
  have hp := h.pin
  unfold Engine.pinIdle
  generalize e.pin = p at hp ⊢
  dsimp only
  split
  · exact hp
  · exact { hp.timerSet c.ticksResetMin with }

theorem Engine.pinResetMin_fits (h : e.Fits c) : e.pinResetMin.Fits c := by
  have hp := h.pin
  unfold Engine.pinResetMin
  generalize e.pin = p at hp ⊢
  dsimp only
  split <;> exact { hp with }

theorem Engine.pinResetMax_fits (h : e.Fits c) : (e.pinResetMax c).Fits c := by
  have hp := h.pin
  unfold Engine.pinResetMax
  generalize e.pin = p at hp ⊢
  dsimp only
  split
  · exact { hp.timerSet c.ticksPresence with }
  · exact { hp with }

theorem Engine.expiryPresence_fits (h : e.Fits c) : (e.expiryPresence c).Fits c := by
  have hp := Engine.Fits.poll (e := e.drive false) { h with } true c.nPresenceRelease
  unfold Engine.expiryPresence
  generalize (e.drive false).poll true c.nPresenceRelease = p at hp ⊢
  dsimp only
  split
  · exact { hp.timerSet c.ticksFsRetry with fsCount := fit_lt _ _ }
  · exact { hp with }

theorem Engine.expiryFirstSignal_fits (h : e.Fits c) : (e.expiryFirstSignal c).Fits c := by
  unfold Engine.expiryFirstSignal
  dsimp only
  split
  · exact { h with fsCount := decr_lt _ _ }
  · exact { h.timerSet c.ticksFsRetry with fsCount := decr_lt _ _ }

theorem expiryRow_fits (st : Stage) (h : e.Fits c) : (rowEffect (expiryRow st) c e).Fits c := by
  cases st with
  | waitingResetMin => exact { h.timerSet c.ticksResetWindow with }
  | presencePulseOn => exact Engine.expiryPresence_fits h
  | waitingFirstSignal => exact Engine.expiryFirstSignal_fits h
  | idle | waitingResetMax | unused5 | unused6 | unused7 => exact h

theorem Engine.softTimerTick_fits (h : e.Fits c) : (e.softTimerTick c).Fits c := by
  obtain ht | ⟨n, hn, ht⟩ | ht := e.softTimerTick_cases c <;> rw [ht]
  · exact h
  · exact { h with timerCount := hn }
  · exact expiryRow_fits (e := e.expired) e.stage { h with timerCount := Nat.two_pow_pos _ }

/-- Every row keeps the registers inside their widths and the store canonical (R30, R75). -/
theorem rowEffect_fits (i : Instr) (h : e.Fits c) : (rowEffect i c e).Fits c := by
  cases i with
  | tick => exact Engine.softTimerTick_fits h
  | pinIdle => exact Engine.pinIdle_fits h
  | pinResetMin => exact Engine.pinResetMin_fits h
  | pinResetMax => exact Engine.pinResetMax_fits h
  | pinFirstSignalFrame =>
    exact Engine.Fits.congr (e := e.frameStart) { h with } (e.pinFirstSignalFrame_outsideApp c)
  | expiryResetMin => exact expiryRow_fits .waitingResetMin h
  | expiryPresence => exact Engine.expiryPresence_fits h
  | expiryFirstSignal => exact Engine.expiryFirstSignal_fits h
  | pinPresence | pinFirstSignalIgnored | expiryIdle | expiryResetMax | eventBadStage | init => exact { h with }
  | _ => exact h.congr (rowEffect_outsideApp rfl c e)

end Widths

/-! ### The machine -/

/-- Giving another engine the focus changes nothing the invariant looks at. -/
theorem State.Inv.focus {s f : State} {bus : Nat} {inputs : List Delivery} (h : s.Inv)
    (hf : State.focus bus { s with inputs := inputs } = some f) : f.Inv := by
  obtain ⟨-, hconfig, -, hperm⟩ := State.focus_spec hf
  exact {
    config := hconfig ▸ h.config
    fits := fun e he => hconfig ▸ h.fits e (hperm.mem_iff.mp he)
    engines := fun e he => hconfig ▸ h.engines e (hperm.mem_iff.mp he)
    buses := (hperm.map Engine.bus).nodup_iff.mpr h.buses
    count := by rw [hperm.length_eq, hconfig]; exact h.count }

/-- An operation of the engine in focus keeps the invariant of the machine if it keeps that of the engine. -/
theorem State.Inv.onEngine {s : State} {f : Config → Engine → Engine} (h : s.Inv)
    (hbus : (f s.config s.engine).bus = s.engine.bus) (hfits : (f s.config s.engine).Fits s.config)
    (hinv : (f s.config s.engine).started = true → (f s.config s.engine).Inv s.config) : (s.onEngine f).Inv where
  config := h.config
  fits := List.forall_mem_cons.mpr ⟨hfits, (List.forall_mem_cons.mp h.fits).2⟩
  engines := List.forall_mem_cons.mpr ⟨hinv, (List.forall_mem_cons.mp h.engines).2⟩
  buses := by simpa [hbus] using h.buses
  count := h.count

/-- Settles O51: the step waits, or runs the selected row on the engine in focus; that row keeps the invariant of the
engine, and the machine's follows. -/
theorem stepKeepsTheInvariant : Obligations.StepKeepsTheInvariant := by
  intro s t h hstep
  obtain ⟨hconfig, ⟨-, rfl⟩ | ⟨d, rest, f, -, hf, hstarted, hexec⟩⟩ := step_cases hstep
  · exact h
  · have hfi := h.focus hf
    obtain ⟨-, rfl⟩ := exec_eq_next_iff.mp hexec
    have hfits := (List.forall_mem_cons.mp hfi.fits).1
    have hinv := (List.forall_mem_cons.mp hfi.engines).1
    exact hfi.onEngine (rowEffect_store_bus _ _ _).2 (rowEffect_fits _ hfits)
      (rowOf_inv (configValid_facts hfi.config) hfits.timerCount hinv hstarted)

theorem Engine.afterInit_inv (c : Config) (bus : Nat) (store : Memory) : (Engine.afterInit bus store).Inv c :=
  Engine.inv_of_idle rfl rfl rfl rfl rfl rfl

theorem Engine.afterInit_fits (c : Config) (bus : Nat) {store : Memory} (h : Memory.wf store = true) :
    (Engine.afterInit bus store).Fits c :=
  ⟨Nat.two_pow_pos _, Nat.two_pow_pos _, h⟩

/-- One engine at the end of `init()`. -/
theorem State.inv_of_afterInit {c : Config} (bus : Nat) {store : Memory} (inputs : List Delivery)
    (hc : configValid c = true) (hstore : Memory.wf store = true) (hn : c.numInstances = 1) :
    State.Inv { config := c, engine := Engine.afterInit bus store, parked := [], inputs := inputs } where
  config := hc
  fits := List.forall_mem_singleton.mpr (Engine.afterInit_fits c bus hstore)
  engines := List.forall_mem_singleton.mpr fun _ => Engine.afterInit_inv c bus store
  buses := List.nodup_singleton bus
  count := hn.symm

/-- Settles O50: an engine at the end of `init()` has everything released, and reset is the case of C0. -/
theorem resetSatisfiesTheInvariant : Obligations.ResetSatisfiesTheInvariant :=
  ⟨State.inv_of_afterInit 0 [] (by decide) rfl rfl,
    fun _ bus _ inputs hc hstore hn => State.inv_of_afterInit bus inputs hc hstore hn⟩

end Sys2Proof.Machine
end

section
/-! Proofs for 10_state.md, part 3: `error` between macro-steps, the unused stages, the numbers of the registers. -/

namespace Sys2Proof.Machine

/-! ### `error` after an event -/

section ErrorClear
variable {c : Config} {e : Engine}

/-- The presence-release poll may miss its deadline, but its `error` goes away at once (R153). -/
theorem Engine.expiryPresence_error (h : e.error = false) : (e.expiryPresence c).error = false := by
  have hp := (Engine.poll_error true c.nPresenceRelease (e.drive false)).trans h
  unfold Engine.expiryPresence
  generalize (e.drive false).poll true c.nPresenceRelease = p at hp ⊢
  dsimp only
  split
  · exact hp
  · rfl

theorem expiryRow_error (st : Stage) (h : e.error = false) : (rowEffect (expiryRow st) c e).error = false := by
  cases st with
  | presencePulseOn => exact Engine.expiryPresence_error h
  | waitingFirstSignal =>
    show (e.expiryFirstSignal c).error = false
    unfold Engine.expiryFirstSignal
    dsimp only
    split <;> exact h
  | idle | waitingResetMin | waitingResetMax | unused5 | unused6 | unused7 => exact h

theorem Engine.softTimerTick_error (h : e.error = false) : (e.softTimerTick c).error = false := by
  obtain ht | ⟨n, -, ht⟩ | ht := e.softTimerTick_cases c <;> rw [ht]
  · exact h
  · exact h
  · exact expiryRow_error e.stage h

/-- A frame may miss deadlines, but its end clears `error` (R156). -/
theorem pinRow_error (h : e.error = false) : (rowEffect (pinRow e) c e).error = false := by
  have hp := e.pin_error.trans h
  cases hs : e.stage <;> simp only [pinRow, hs, rowEffect]
  case idle | waitingResetMin | waitingResetMax =>
    simp only [Engine.pinIdle, Engine.pinResetMin, Engine.pinResetMax]
    split <;> exact hp
  case waitingFirstSignal =>
    split
    · exact h
    · rfl
  case presencePulseOn | unused5 | unused6 | unused7 => exact h

/-- What an input other than `set_error_on` makes of `error` = 0. -/
theorem rowOf_error {i : Input} (hi : i ≠ .host .setErrorOn) (h : e.error = false) :
    (rowEffect (rowOf i e) c e).error = false := by
  cases i with
  | pin => exact pinRow_error h
  | tick =>
    simp only [rowOf, tickRow]
    split
    · exact h
    · exact Engine.softTimerTick_error h
  | host op =>
    rcases hostRow_cases op e with hrow | hrow <;> rw [rowOf, hrow]
    · cases op with
      | setErrorOn => exact absurd rfl hi
      | init | setErrorOff => rfl
      | setAlarmOn | setAlarmOff | isError => exact h
    · exact h

end ErrorClear

/-- Settles O52: the step runs the selected row, and each such row ends with `error` = 0. -/
theorem errorIsZeroBetweenMacroSteps : Obligations.ErrorIsZeroBetweenMacroSteps := by
  intro s f t d rest hin hf herr hd hstep
  obtain ⟨-, ⟨hnil, -⟩ | ⟨d', rest', f', hin', hf', -, hexec⟩⟩ := step_cases hstep
  · simp [hin] at hnil
  · obtain ⟨rfl, rfl⟩ := List.cons.inj (hin.symm.trans hin')
    obtain rfl := Option.some.inj (hf.symm.trans hf')
    obtain ⟨-, rfl⟩ := exec_eq_next_iff.mp hexec
    exact rowOf_error hd herr

/-! ### The unused stages -/

/-- An event in an unused stage selects the bad-stage row (R33, R159). -/
theorem rowOf_event_of_unused {i : Input} {e : Engine} (hi : i.isEvent = true) (h : e.stage.isUnused = true) :
    rowOf i e = .eventBadStage := by
  cases i with
  | pin => cases hs : e.stage <;> simp [hs, Stage.isUnused] at h <;> simp only [rowOf, pinRow, hs]
  | tick => simp [rowOf, tickRow, h]
  | host op => simp [Input.isEvent] at hi

/-- So does every input of an engine that has seen `init()`. -/
theorem rowOf_of_unused {i : Input} {e : Engine} (h : e.stage.isUnused = true) (hs : e.started = true) :
    rowOf i e = .eventBadStage := by
  cases i with
  | pin => exact rowOf_event_of_unused rfl h
  | tick => exact rowOf_event_of_unused rfl h
  | host op => exact hostRow_faults h (.inr hs)

theorem exec_eventBadStage (s : State) : exec .eventBadStage s = .fault .badStage := rfl

/-- Settles O8: in an unused stage every input but the first `init()` selects the bad-stage row. -/
theorem badStageFaults : Obligations.BadStageFaults := by
  refine ⟨exec_eventBadStage, ?_, ?_, ?_, ?_⟩
  · intro s hu
    exact if_pos hu
  · intro s i rest hc hs hu hin
    rw [step_next hc hs hin, rowOf_of_unused hu hs, exec_eventBadStage]
  · intro s op rest hc hu hin hop
    rw [step_host hc hin, hostRow_faults hu (.inl hop), exec_eventBadStage]
  · intro s op rest hc hin hrun
    rw [step_host hc hin, hostRow_runs hrun]

/-! ### Numbers -/

/-- Every 3-bit number is the number of its stage. -/
theorem Stage.code_ofCode : ∀ v : BitVec 3, (Stage.ofCode v).code = v := by decide

/-- Four bits packed into a word, the last one lowest. -/
theorem getLsbD_packed : ∀ b3 b2 b1 b0 : Bool,
    let w : BitVec 4 := (BitVec.ofBool b3 ++ BitVec.ofBool b2) ++ (BitVec.ofBool b1 ++ BitVec.ofBool b0)
    w.getLsbD 0 = b0 ∧ w.getLsbD 1 = b1 ∧ w.getLsbD 2 = b2 ∧ w.getLsbD 3 = b3 := by decide

/-- The packed flags, bit by bit (R34). -/
theorem Engine.flags_bits (e : Engine) : e.flags.getLsbD 0 = e.ignoreOneChange ∧ e.flags.getLsbD 1 = e.alarm ∧
    e.flags.getLsbD 2 = e.error ∧ e.flags.getLsbD 3 = e.slotStarted :=
  getLsbD_packed e.slotStarted e.error e.alarm e.ignoreOneChange

/-- Settles O16: the codes are read off their tables. -/
theorem numbersOfStagesFlagsAndSites : Obligations.NumbersOfStagesFlagsAndSites :=
  ⟨rfl, Stage.code_ofCode, Engine.flags_bits, rfl⟩

end Sys2Proof.Machine
end

section
/-! Proofs for 10_state.md, part 4: `alarm`. -/

namespace Sys2Proof.Machine

/-! ### Who writes `alarm` -/

/-- A command leaves `alarm` alone unless a callback has run. -/
theorem App.alarm {P : Prop} {c : Config} {n : Nat} {e e' : Engine} (h : App P c n e e')
    (hcount : countOf TraceEntry.isCallback e'.trace = countOf TraceEntry.isCallback e.trace) : e'.alarm = e.alarm := by
  obtain ⟨tr, a⟩ := h
  rw [a.trace, countOf_append] at hcount
  exact a.quiet (by omega)

/-- Without a callback only `init()` and the alarm operations write `alarm`. -/
theorem rowEffect_alarm {i : Instr} (h0 : i ≠ .init) (hon : i ≠ .setAlarmOn) (hoff : i ≠ .setAlarmOff)
    {c : Config} {e : Engine}
    (hcount : countOf TraceEntry.isCallback (rowEffect i c e).trace = countOf TraceEntry.isCallback e.trace) :
    (rowEffect i c e).alarm = e.alarm := by
  cases hi : isStageRow i with
  | false => exact (rowEffect_app (P := False) hi hon hoff c e fun h => h.elim).alarm hcount
  | true =>
    by_cases hf : i = .pinFirstSignalFrame
    · subst hf
      have happ := Engine.frame_app (P := False) c e.frameStart fun h => h.elim
      exact happ.alarm hcount
    · exact (congrArg Engine.alarm (rowEffect_outsideStage hi hf h0 c e) :)

/-! ### Bit and byte I/O does not look at `alarm`

Each operation gives the same result and the same engine, but for `alarm`, whatever `alarm` is. -/

section Blind
variable (c : Config) (a : Bit) (e : Engine)

theorem Engine.pin_setAlarm : (e.setAlarm a).pin = (e.pin.1, e.pin.2.setAlarm a) := by
  cases hd : e.draws with
  | nil => rw [Engine.pin_free hd, Engine.pin_free (e := e.setAlarm a) hd]; rfl
  | cons v vs => rw [Engine.pin_scripted hd, Engine.pin_scripted (e := e.setAlarm a) hd]; rfl

theorem Engine.poll_setAlarm (level : Bit) (n : Nat) :
    (e.setAlarm a).poll level n = ((e.poll level n).1, (e.poll level n).2.setAlarm a) := by
  induction n generalizing e with
  | zero => rfl
  | succ n ih =>
    simp only [Engine.poll, Engine.pin_setAlarm]
    split
    · rfl
    · exact ih e.pin.2

theorem Engine.sampleSlot_setAlarm :
    (e.setAlarm a).sampleSlot c = ((e.sampleSlot c).1, (e.sampleSlot c).2.setAlarm a) := by
  have hdelay : (e.setAlarm a).delay .sample = (e.delay .sample).setAlarm a := rfl
  simp only [Engine.sampleSlot, hdelay, Engine.pin_setAlarm, Engine.poll_setAlarm]
  split
  · rfl
  · split <;> rfl

theorem Engine.readBit_setAlarm : (e.setAlarm a).readBit c = ((e.readBit c).1, (e.readBit c).2.setAlarm a) := by
  cases he : e.error with
  | true => rw [Engine.readBit_of_error c he, Engine.readBit_of_error c (e := e.setAlarm a) he]
  | false =>
    cases hs : e.slotStarted with
    | true =>
      rw [Engine.readBit_first c he hs, Engine.readBit_first c (e := e.setAlarm a) he hs]
      exact Engine.sampleSlot_setAlarm c a { e with slotStarted := false }
    | false =>
      rw [Engine.readBit_later c he hs, Engine.readBit_later c (e := e.setAlarm a) he hs, Engine.poll_setAlarm]
      split
      · exact Engine.sampleSlot_setAlarm c a _
      · rfl

theorem Engine.writeBit_setAlarm (b : Bit) : (e.setAlarm a).writeBit c b = (e.writeBit c b).setAlarm a := by
  have hheld : ∀ p : Engine, ((if b then p.setAlarm a else (p.setAlarm a).drive true).delay .txHold).drive false =
      (((if b then p else p.drive true).delay .txHold).drive false).setAlarm a := by
    intro p
    cases b <;> rfl
  simp only [Engine.writeBit, Engine.setAlarm_error, Engine.poll_setAlarm, hheld]
  split
  · rfl
  · cases (e.poll false c.nWrStart).1 with
    | false => rfl
    | true =>
      simp only [if_true, apply_ite (Engine.setAlarm a)]
      rfl

theorem Engine.readBits_setAlarm (n i : Nat) (acc : Byte) :
    (e.setAlarm a).readBits c n i acc = ((e.readBits c n i acc).1, (e.readBits c n i acc).2.setAlarm a) := by
  induction n generalizing i acc e with
  | zero => rfl
  | succ n ih =>
    simp only [Engine.readBits_succ, Engine.readBit_setAlarm, Engine.setAlarm_error]
    split
    · rfl
    · exact ih (e.readBit c).2 (i + 1) _

theorem Engine.readByte_setAlarm : (e.setAlarm a).readByte c = ((e.readByte c).1, (e.readByte c).2.setAlarm a) :=
  Engine.readBits_setAlarm c a e 8 0 _

theorem Engine.writeBits_setAlarm (v : Byte) (n i : Nat) :
    (e.setAlarm a).writeBits c v n i = (e.writeBits c v n i).setAlarm a := by
  induction n generalizing i e with
  | zero => rfl
  | succ n ih =>
    simp only [Engine.writeBits_succ, Engine.writeBit_setAlarm, Engine.setAlarm_error]
    split
    · rfl
    · exact ih (e.writeBit c (takeBit v i)) (i + 1)

theorem Engine.writeByte_setAlarm (v : Byte) : (e.setAlarm a).writeByte c v = (e.writeByte c v).setAlarm a :=
  Engine.writeBits_setAlarm c a e v 8 0

theorem Engine.writeByteWithCrc8_setAlarm (v crc : Byte) : (e.setAlarm a).writeByteWithCrc8 c v crc =
    ((e.writeByteWithCrc8 c v crc).1, (e.writeByteWithCrc8 c v crc).2.setAlarm a) := by
  simp only [Engine.writeByteWithCrc8, Engine.writeByte_setAlarm, Engine.setAlarm_error]
  split <;> rfl

theorem Engine.searchTriple_setAlarm (b : Bit) :
    (e.setAlarm a).searchTriple c b = ((e.searchTriple c b).1, (e.searchTriple c b).2.setAlarm a) := by
  simp only [Engine.searchTriple, Engine.writeBit_setAlarm, Engine.readBit_setAlarm]

theorem Engine.searchFrom_setAlarm (n k : Nat) :
    (e.setAlarm a).searchFrom c n k = (e.searchFrom c n k).setAlarm a := by
  induction n generalizing k e with
  | zero => rfl
  | succ n ih =>
    simp only [Engine.searchFrom_succ, Engine.setAlarm_store, Engine.searchTriple_setAlarm, Engine.setAlarm_error]
    split
    · rfl
    · split
      · rfl
      · exact ih _ (k + 1)

theorem Engine.readRomFrom_setAlarm (n k : Nat) :
    (e.setAlarm a).readRomFrom c n k = (e.readRomFrom c n k).setAlarm a := by
  induction n generalizing k e with
  | zero => rfl
  | succ n ih =>
    simp only [Engine.readRomFrom_succ, Engine.setAlarm_store, Engine.writeByte_setAlarm, Engine.setAlarm_error]
    split
    · rfl
    · exact ih _ (k + 1)

/-! ### Nor does the callback, which may write it -/

/-- Two engines that differ at most in `alarm`. -/
def Engine.SameButAlarm (e e' : Engine) : Prop := ∃ a, e' = e.setAlarm a

theorem Engine.framing_setAlarm {f : Engine → Engine} (hf : f (e.setAlarm a) = (f e).setAlarm a) :
    (e.framing c f).SameButAlarm ((e.setAlarm a).framing c f) := by
  refine ⟨a, ?_⟩
  unfold Engine.framing
  split
  · exact hf
  · rfl

theorem Engine.callbackOp_setAlarm (op : CallbackOp) :
    (e.callbackOp c op).SameButAlarm ((e.setAlarm a).callbackOp c op) := by
  cases op with
  | setAlarmOn => exact ⟨true, rfl⟩
  | setAlarmOff => exact ⟨false, rfl⟩
  | isError | setErrorOn | setErrorOff => exact ⟨a, rfl⟩
  | readBit =>
    exact Engine.framing_setAlarm c a e (f := rowEffect .readBit c)
      (by simp only [rowEffect, Engine.readBit_setAlarm]; rfl)
  | writeBit b => exact Engine.framing_setAlarm c a e (Engine.writeBit_setAlarm c a e b)
  | readByte =>
    exact Engine.framing_setAlarm c a e (f := rowEffect .readByte c)
      (by simp only [rowEffect, Engine.readByte_setAlarm]; rfl)
  | writeByte v => exact Engine.framing_setAlarm c a e (Engine.writeByte_setAlarm c a e v)
  | writeByteWithCrc8 v crc =>
    exact Engine.framing_setAlarm c a e (f := rowEffect (.writeByteWithCrc8 v crc) c)
      (by simp only [rowEffect, Engine.writeByteWithCrc8_setAlarm]; rfl)

theorem Engine.runCallback_setAlarm (ops : List CallbackOp) :
    (e.runCallback c ops).SameButAlarm ((e.setAlarm a).runCallback c ops) := by
  induction ops generalizing a e with
  | nil => exact ⟨a, rfl⟩
  | cons op ops ih =>
    obtain ⟨b, hb⟩ := Engine.callbackOp_setAlarm c a e op
    rw [Engine.runCallback, Engine.runCallback, hb]
    exact ih b (e.callbackOp c op)

theorem Engine.callback_setAlarm : (e.callback c).SameButAlarm ((e.setAlarm a).callback c) := by
  cases h : e.callbacks with
  | nil =>
    rw [Engine.callback_free c h, Engine.callback_free c (e := e.setAlarm a) h]
    exact Engine.runCallback_setAlarm c a _ _
  | cons ops rest =>
    rw [Engine.callback_scripted c h, Engine.callback_scripted c (e := e.setAlarm a) h]
    exact Engine.runCallback_setAlarm c a _ ops

theorem Engine.matchRomFrom_setAlarm (n k : Nat) :
    (e.matchRomFrom c n k).SameButAlarm ((e.setAlarm a).matchRomFrom c n k) := by
  induction n generalizing k e with
  | zero => exact Engine.callback_setAlarm c a e
  | succ n ih =>
    simp only [Engine.matchRomFrom_succ, Engine.setAlarm_store, Engine.readByte_setAlarm, Engine.setAlarm_error]
    split
    · exact ⟨a, rfl⟩
    · split
      · exact ⟨a, rfl⟩
      · exact ih _ (k + 1)

/-! ### Nor do the events -/

theorem Engine.pinIdle_setAlarm : (e.setAlarm a).pinIdle c = (e.pinIdle c).setAlarm a := by
  simp only [Engine.pinIdle, Engine.pin_setAlarm]
  split <;> rfl

theorem Engine.pinResetMin_setAlarm : (e.setAlarm a).pinResetMin = e.pinResetMin.setAlarm a := by
  simp only [Engine.pinResetMin, Engine.pin_setAlarm]
  split <;> rfl

theorem Engine.pinResetMax_setAlarm : (e.setAlarm a).pinResetMax c = (e.pinResetMax c).setAlarm a := by
  simp only [Engine.pinResetMax, Engine.pin_setAlarm]
  split <;> rfl

theorem Engine.expiryPresence_setAlarm : (e.setAlarm a).expiryPresence c = (e.expiryPresence c).setAlarm a := by
  have hdrive : (e.setAlarm a).drive false = (e.drive false).setAlarm a := rfl
  simp only [Engine.expiryPresence, hdrive, Engine.poll_setAlarm]
  split <;> rfl

theorem Engine.expiryFirstSignal_setAlarm :
    (e.setAlarm a).expiryFirstSignal c = (e.expiryFirstSignal c).setAlarm a := by
  unfold Engine.expiryFirstSignal
  rw [Engine.setAlarm_fsCount]
  generalize decr c.fsCountBits e.fsCount = n
  dsimp only
  split <;> rfl

theorem expiryRow_setAlarm (st : Stage) :
    rowEffect (expiryRow st) c (e.setAlarm a) = (rowEffect (expiryRow st) c e).setAlarm a := by
  cases st with
  | presencePulseOn => exact Engine.expiryPresence_setAlarm c a e
  | waitingFirstSignal => exact Engine.expiryFirstSignal_setAlarm c a e
  | idle | waitingResetMin | waitingResetMax | unused5 | unused6 | unused7 => rfl

theorem Engine.softTimerTick_setAlarm : (e.setAlarm a).softTimerTick c = (e.softTimerTick c).setAlarm a := by
  simp only [Engine.softTimerTick, Engine.onTimerExpiry_eq, Engine.setAlarm_timerArmed, Engine.setAlarm_timerCount]
  split
  · split
    · exact expiryRow_setAlarm c a { e with timerCount := _, timerArmed := false } e.stage
    · rfl
  · rfl

/-- A row that cannot dispatch 0xEC does not look at `alarm`. -/
theorem rowEffect_setAlarm {i : Instr} (hi : mayReadAlarm i = false) :
    (rowEffect i c e).SameButAlarm (rowEffect i c (e.setAlarm a)) := by
  cases i with
  | alarmSearch | frame | pinFirstSignalFrame => exact nomatch hi
  | search => exact ⟨a, Engine.searchFrom_setAlarm c a e 64 0⟩
  | readRom => exact ⟨a, Engine.readRomFrom_setAlarm c a e 8 0⟩
  | matchRom => exact Engine.matchRomFrom_setAlarm c a e 8 0
  | skip | callback => exact Engine.callback_setAlarm c a e
  | tick => exact ⟨a, Engine.softTimerTick_setAlarm c a e⟩
  | pinIdle => exact ⟨a, Engine.pinIdle_setAlarm c a e⟩
  | pinResetMin => exact ⟨a, Engine.pinResetMin_setAlarm a e⟩
  | pinResetMax => exact ⟨a, Engine.pinResetMax_setAlarm c a e⟩
  | expiryPresence => exact ⟨a, Engine.expiryPresence_setAlarm c a e⟩
  | expiryFirstSignal => exact ⟨a, Engine.expiryFirstSignal_setAlarm c a e⟩
  | poll level n => exact ⟨a, by simp only [rowEffect, Engine.poll_setAlarm]; rfl⟩
  | readBit => exact ⟨a, by simp only [rowEffect, Engine.readBit_setAlarm]; rfl⟩
  | writeBit b => exact ⟨a, Engine.writeBit_setAlarm c a e b⟩
  | readByte => exact ⟨a, by simp only [rowEffect, Engine.readByte_setAlarm]; rfl⟩
  | writeByte v => exact ⟨a, Engine.writeByte_setAlarm c a e v⟩
  | writeByteWithCrc8 v crc => exact ⟨a, by simp only [rowEffect, Engine.writeByteWithCrc8_setAlarm]; rfl⟩
  | init | setAlarmOff => exact ⟨false, rfl⟩
  | setAlarmOn => exact ⟨true, rfl⟩
  | _ => exact ⟨a, rfl⟩

end Blind

/-! ### The machine -/

/-- Changing `alarm` before such a row changes nothing but `alarm` after it. -/
theorem onEngine_withAlarm {i : Instr} (hi : mayReadAlarm i = false) (s : State) (a b : Bit) :
    ((s.withAlarm a).onEngine (rowEffect i)).withAlarm b = (s.onEngine (rowEffect i)).withAlarm b := by
  obtain ⟨a', ha⟩ := rowEffect_setAlarm s.config a s.engine hi
  exact (congrArg (fun e : Engine => ({ s with engine := e.setAlarm b } : State)) ha :)

/-- Settles O59: what a row without a callback writes, and that a row which cannot dispatch 0xEC commutes with a change
of `alarm`, up to `alarm`. -/
theorem alarmIsTouchedOnlyByHostAndGate : Obligations.AlarmIsTouchedOnlyByHostAndGate := by
  refine ⟨?_, fun i s a hi => ⟨?_, ?_⟩⟩
  · intro i s t h h0 hon hoff hcount
    obtain ⟨-, rfl⟩ := exec_eq_next_iff.mp h
    exact rowEffect_alarm h0 hon hoff hcount
  · intro t u ht hu
    obtain ⟨-, rfl⟩ := exec_eq_next_iff.mp ht
    obtain ⟨-, rfl⟩ := exec_eq_next_iff.mp hu
    exact (onEngine_withAlarm hi s a false).symm
  · simp only [exec_eq_next_iff, exists_and_left, exists_eq, and_true]
    rfl

end Sys2Proof.Machine
end

section
/-! Proofs for 20_memory.md: the identifier store, and no sample of a line that the engine sinks. -/

namespace Sys2Proof.Machine

/-! ### The identifier store -/

/-- Identifier bit `8 k + j` is bit `j` of byte `k`, in every store (R77). -/
theorem idBit_eq_getLsbD (m : Memory) {k j : Nat} (hj : j < 8) : idBit m (8 * k + j) = (idByte m k).getLsbD j := by
  have hdiv : (8 * k + j) / 8 = k := by omega
  have hmod : (8 * k + j) % 8 = j := by omega
  rw [idBit, hdiv, hmod]

theorem memRead_of_lt (m : Memory) {a : Nat} (h : a < 8) : memRead m a = .ok (idByte m a) := if_pos h

theorem memRead_of_ge (m : Memory) {a : Nat} (h : 8 ≤ a) : memRead m a = .error .badIdAddress :=
  if_neg (Nat.not_lt.mpr h)

/-- Settles O14: a provisioned store reads as its bytes, and a row is an operation of the engine that keeps the
store. -/
theorem identifierStoreIsReadOnly : Obligations.IdentifierStoreIsReadOnly := by
  refine ⟨fun id a hid ha => ⟨?_, provision_wf id⟩, fun i s t h a => ?_⟩
  · rw [memRead_of_lt _ (hid ▸ ha), idByte_provision hid.le ha]
  · obtain ⟨-, rfl⟩ := exec_eq_next_iff.mp h
    rw [State.onEngine_engine, (rowEffect_store_bus i s.config s.engine).1]

/-- Settles O15: a bit of the identifier is a bit of the byte that the provisioned store gives back. -/
theorem identifierBitOrder : Obligations.IdentifierBitOrder := by
  refine ⟨fun id k j hid hj hk => ?_, fun m _ ha => memRead_of_ge m ha⟩
  rw [idBit_eq_getLsbD _ hj, idByte_provision hid.le hk]

/-! ### The line while the engine sinks it -/

/-- An operation from `e` to `e'` takes no sample while the line is sunk, and the line ends as the last DRIVE it
recorded says (R83). -/
def Engine.SamplesReleased (e e' : Engine) : Prop :=
  ∃ new : List TraceEntry, e'.trace = new ++ e.trace ∧ samplesOnlyReleased e.lineDdr new = true ∧
    sunkAfter e.lineDdr new = e'.lineDdr

section Released
variable {c : Config} {e e1 e2 : Engine}

theorem Engine.SamplesReleased.trans (h1 : e.SamplesReleased e1) (h2 : e1.SamplesReleased e2) :
    e.SamplesReleased e2 := by
  obtain ⟨new1, htrace1, hrel1, hsunk1⟩ := h1
  obtain ⟨new2, htrace2, hrel2, hsunk2⟩ := h2
  refine ⟨new2 ++ new1, ?_, ?_, ?_⟩
  · rw [htrace2, htrace1, List.append_assoc]
  · rw [samplesOnlyReleased_append, hsunk1, hrel2, hrel1, Bool.and_self]
  · rw [sunkAfter_append, hsunk1, hsunk2]

/-- An operation that records nothing and leaves the line alone. -/
theorem Engine.SamplesReleased.silently (ht : e1.trace = e.trace) (hl : e1.lineDdr = e.lineDdr) :
    e.SamplesReleased e1 := ⟨[], ht, rfl, hl.symm⟩

/-- From a released line, whatever meets the specification of a command. -/
theorem App.samplesReleased {n : Nat} (h : App True c n e e1) : e.SamplesReleased e1 :=
  let ⟨tr, a⟩ := h
  ⟨tr, a.trace, a.rel trivial, a.sunk⟩

theorem Engine.pin_samplesReleased (h : e.lineDdr = false) : e.SamplesReleased e.pin.2 :=
  ((e.pin_io fun _ => h).app Config.c0).samplesReleased

/-- The invariant lets the line be sunk in PRESENCE_PULSE_ON only (R50). -/
theorem Engine.Inv.released (h : e.Inv c) (hs : e.stage ≠ .presencePulseOn) : e.lineDdr = false :=
  Bool.eq_false_iff.mpr fun hl => hs (h.line.mp hl)

theorem Engine.pinIdle_samplesReleased (h : e.lineDdr = false) : e.SamplesReleased (e.pinIdle c) := by
  have hp := Engine.pin_samplesReleased h
  unfold Engine.pinIdle
  generalize e.pin = p at hp ⊢
  dsimp only
  split
  · exact hp
  · exact hp.trans ⟨[.tset c.ticksResetMin], rfl, rfl, rfl⟩

theorem Engine.pinResetMin_samplesReleased (h : e.lineDdr = false) : e.SamplesReleased e.pinResetMin := by
  have hp := Engine.pin_samplesReleased h
  unfold Engine.pinResetMin
  generalize e.pin = p at hp ⊢
  dsimp only
  split
  · exact hp.trans ⟨[.tcancel], rfl, rfl, rfl⟩
  · exact hp

/-- The pulse sinks the line only after the last sample (R150). -/
theorem Engine.pinResetMax_samplesReleased (h : e.lineDdr = false) : e.SamplesReleased (e.pinResetMax c) := by
  have hp := Engine.pin_samplesReleased h
  unfold Engine.pinResetMax
  generalize e.pin = p at hp ⊢
  dsimp only
  split
  · exact hp.trans ⟨[.tset c.ticksPresence, .drive true, .delay .presenceDelay], rfl, rfl, rfl⟩
  · exact hp.trans ⟨[.tcancel], rfl, rfl, rfl⟩

theorem Engine.pinFirstSignalFrame_samplesReleased (h : e.lineDdr = false) :
    e.SamplesReleased (e.pinFirstSignalFrame c) := by
  have hstart : e.SamplesReleased e.frameStart := ⟨[.tcancel], rfl, rfl, rfl⟩
  have hframe := (Engine.frame_app c e.frameStart fun _ => h).samplesReleased
  exact (hstart.trans hframe).trans (.silently rfl rfl)

/-- The stage that may find the line sunk takes no sample (R151); every other stage finds it released. -/
theorem pinRow_samplesReleased (h : e.Inv c) : e.SamplesReleased (rowEffect (pinRow e) c e) := by
  have hline := h.released
  cases hs : e.stage <;> simp only [pinRow, hs, rowEffect]
  case idle => exact Engine.pinIdle_samplesReleased (hline (by simp [hs]))
  case waitingResetMin => exact Engine.pinResetMin_samplesReleased (hline (by simp [hs]))
  case waitingResetMax => exact Engine.pinResetMax_samplesReleased (hline (by simp [hs]))
  case waitingFirstSignal =>
    split
    · exact .silently rfl rfl
    · exact Engine.pinFirstSignalFrame_samplesReleased (hline (by simp [hs]))
  case presencePulseOn | unused5 | unused6 | unused7 => exact .silently rfl rfl

/-- The presence pulse ends before its release is polled (R153), whatever the line was. -/
theorem Engine.expiryPresence_samplesReleased : e.SamplesReleased (e.expiryPresence c) := by
  have hdrive : e.SamplesReleased (e.drive false) := ⟨[.drive false], rfl, rfl, rfl⟩
  have hp := hdrive.trans ((Engine.poll_io true c.nPresenceRelease (e.drive false) fun _ => rfl).app c).samplesReleased
  unfold Engine.expiryPresence
  generalize (e.drive false).poll true c.nPresenceRelease = p at hp ⊢
  dsimp only
  split
  · exact hp.trans ⟨[.tset c.ticksFsRetry], rfl, rfl, rfl⟩
  · exact hp.trans ⟨[.fault .presenceRelease], rfl, rfl, rfl⟩

theorem Engine.expiryFirstSignal_samplesReleased : e.SamplesReleased (e.expiryFirstSignal c) := by
  simp only [Engine.expiryFirstSignal]
  split
  · exact .silently rfl rfl
  · exact ⟨[.tset c.ticksFsRetry], rfl, rfl, rfl⟩

theorem expiryRow_samplesReleased (st : Stage) : e.SamplesReleased (rowEffect (expiryRow st) c e) := by
  cases st with
  | waitingResetMin => exact ⟨[.tset c.ticksResetWindow], rfl, rfl, rfl⟩
  | presencePulseOn => exact Engine.expiryPresence_samplesReleased
  | waitingFirstSignal => exact Engine.expiryFirstSignal_samplesReleased
  | idle | waitingResetMax | unused5 | unused6 | unused7 => exact .silently rfl rfl

theorem Engine.softTimerTick_samplesReleased : e.SamplesReleased (e.softTimerTick c) := by
  obtain h | ⟨n, -, h⟩ | h := e.softTimerTick_cases c <;> rw [h]
  · exact .silently rfl rfl
  · exact .silently rfl rfl
  · have hexpired : e.SamplesReleased e.expired := .silently rfl rfl
    exact hexpired.trans (expiryRow_samplesReleased e.stage)

/-- A host operation takes no sample; `init()` releases the line (R340). -/
theorem hostRow_samplesReleased (op : HostOp) : e.SamplesReleased (rowEffect (hostRow op e) c e) := by
  rcases hostRow_cases op e with h | h <;> rw [h]
  · cases op with
    | init => exact ⟨[.tcancel, .drive false, .port false], rfl, rfl, rfl⟩
    | setAlarmOn | setAlarmOff | isError | setErrorOn | setErrorOff => exact .silently rfl rfl
  · exact .silently rfl rfl

/-- What an input makes of an engine that has the invariant, if it has seen `init()`. -/
theorem rowOf_samplesReleased {i : Input} (h : e.started = true → e.Inv c) (hi : i.isEvent = true → e.started = true) :
    e.SamplesReleased (rowEffect (rowOf i e) c e) := by
  cases i with
  | pin => exact pinRow_samplesReleased (h (hi rfl))
  | tick =>
    simp only [rowOf, tickRow]
    split
    · exact .silently rfl rfl
    · exact Engine.softTimerTick_samplesReleased
  | host op => exact hostRow_samplesReleased op

end Released

/-- A step that answers a next state, once the engine of the input is known: the selected row on that engine. -/
theorem step_eq_onEngine {s f t : State} {d : Delivery} {rest : List Delivery} (hin : s.inputs = d :: rest)
    (hf : State.focus d.bus { s with inputs := rest } = some f) (hstep : step s = .next t) :
    (d.input.isEvent = true → f.engine.started = true) ∧ t = f.onEngine (rowEffect (rowOf d.input f.engine)) := by
  obtain ⟨-, ⟨hnil, -⟩ | ⟨d', rest', f', hin', hf', hstarted, hexec⟩⟩ := step_cases hstep
  · simp [hin] at hnil
  · obtain ⟨rfl, rfl⟩ := List.cons.inj (hin.symm.trans hin')
    obtain rfl := Option.some.inj (hf.symm.trans hf')
    exact ⟨hstarted, (exec_eq_next_iff.mp hexec).2⟩

/-- Settles O56: the step runs the selected row on the engine in focus, which has the invariant if it has seen
`init()`. -/
theorem lineIsNeverSampledWhileSunk : Obligations.LineIsNeverSampledWhileSunk := by
  intro s f t d rest hinv hin hf hstep
  obtain ⟨hstarted, rfl⟩ := step_eq_onEngine hin hf hstep
  have hengine := (List.forall_mem_cons.mp (hinv.focus hf).engines).1
  exact rowOf_samplesReleased hengine hstarted

end Sys2Proof.Machine
end

section
/-! Proofs for 30_encoding.md: the command byte, its decoding, and its slots on the wire. -/

namespace Sys2Proof.Machine

/-! ### Decoding a command byte -/

/-- Every byte outside the five named ones is IGNORED (R106). -/
theorem decodeByte_of_not_named {b : Byte} (h : b ∉ namedCommandBytes) : decodeByte b = .ignored b := by
  simp only [namedCommandBytes, List.mem_cons, List.not_mem_nil, or_false, not_or] at h
  simp [decodeByte, decodeCommand, h, RomCommand.toInstr]

/-- The byte of a well-formed instruction decodes to the instruction (R106). -/
theorem decodeByte_of_encode {i : Instr} {b : Byte} (hi : WellFormed i = true) (hb : encode i = some b) :
    decodeByte b = i := by
  cases i with
  | ignored c =>
    obtain rfl := Option.some.inj hb
    exact decodeByte_of_not_named (by simpa [WellFormed] using hi)
  | search | alarmSearch | readRom | matchRom | skip =>
    obtain rfl := Option.some.inj hb
    decide
  | _ => exact nomatch hb

/-- No byte is illegal (R107, R111): each decodes to a well-formed instruction, whose byte it is. -/
theorem encode_decodeByte (b : Byte) : WellFormed (decodeByte b) = true ∧ encode (decodeByte b) = some b := by
  by_cases h : b ∈ namedCommandBytes
  · have hnamed : ∀ v ∈ namedCommandBytes, WellFormed (decodeByte v) = true ∧ encode (decodeByte v) = some v := by
      decide
    exact hnamed b h
  · rw [decodeByte_of_not_named h]
    exact ⟨by simpa [WellFormed] using h, rfl⟩

/-- The word of eight bits that a byte makes holds the byte. -/
theorem ofNat_toNat_mod (b : Byte) : BitVec.ofNat 8 (b.toNat % 2 ^ 8) = b := by
  rw [Nat.mod_eq_of_lt b.isLt, BitVec.ofNat_toNat, BitVec.setWidth_eq]

theorem decodeTableWord_toNat (b : Byte) : decodeTableWord 8 b.toNat = some (decodeByte b) := by
  rw [decodeTableWord, ofNat_toNat_mod]
  rfl

/-! ### Bits into a byte -/

/-- The accumulator of `read_byte` after bits received from bit `i` on (R200). -/
def putBits : Nat → Byte → List Bit → Byte
  | _, acc, [] => acc
  | i, acc, b :: bs => putBits (i + 1) (putBit acc i b) bs

theorem getLsbD_putBit (acc : Byte) (i : Nat) (b : Bit) {j : Nat} (hj : j < 8) :
    (putBit acc i b).getLsbD j = (acc.getLsbD j || (decide (j = i) && b)) := by
  obtain h | rfl | h := Nat.lt_trichotomy j i
  · simp [putBit, h, h.ne]
  · simp [putBit, hj]
  · simp [putBit, h.ne', Nat.sub_ne_zero_of_lt h]

/-- Bit `j` of the byte is the bit received as number `j - i`, if there was one. -/
theorem getLsbD_putBits (bs : List Bit) (i : Nat) (acc : Byte) {j : Nat} (hj : j < 8) :
    (putBits i acc bs).getLsbD j = (acc.getLsbD j || (decide (i ≤ j) && bs.getD (j - i) false)) := by
  induction bs generalizing i acc with
  | nil => simp [putBits]
  | cons b bs ih =>
    rw [putBits, ih, getLsbD_putBit _ _ _ hj]
    obtain h | rfl | h := Nat.lt_trichotomy j i
    · simp [h.ne, h.not_ge, Nat.not_le.mpr (Nat.lt_succ_of_lt h)]
    · simp
    · have hsub : j - i = (j - (i + 1)) + 1 := by omega
      simp [h.ne', h.le, Nat.succ_le_of_lt h, hsub]

theorem getD_byteSlots (v : Byte) {j : Nat} (hj : j < 8) : (byteSlots v).getD j false = v.getLsbD j := by
  interval_cases j <;> rfl

/-- The bits of a byte, least-significant first, make the byte (R104). -/
theorem putBits_byteSlots (v : Byte) : putBits 0 0x00#8 (byteSlots v) = v := by
  refine BitVec.eq_of_getLsbD_eq fun j hj => ?_
  rw [getLsbD_putBits _ _ _ hj, Nat.sub_zero, getD_byteSlots _ hj]
  simp

/-! ### Well-behaved slots -/

theorem seen_append (a b old : List TraceEntry) : seen (a ++ b) old = seen b (seen a old) := by
  simp [seen]

theorem seen_cons (t : TraceEntry) (a old : List TraceEntry) : seen (t :: a) old = seen a (t :: old) :=
  seen_append [t] a old

/-- An engine after slots it has read: the draws left are `ds`, and the slots added `tr` to the trace. -/
def Engine.afterSlots (ds : List Bit) (tr : List TraceEntry) (e : Engine) : Engine :=
  { e with slotStarted := false, draws := ds, trace := seen tr e.trace }

section Slots
variable {c : Config} {e : Engine} {ds : List Bit} {first b : Bit}

/-- A poll met at its first sample. -/
theorem Engine.poll_first {level : Bit} {n : Nat} (hn : 1 ≤ n) (hd : e.draws = level :: ds) :
    e.poll level n = (true, { e with draws := ds, trace := .sample level :: e.trace }) :=
  Engine.poll_hit (j := 0) hn hd

/-- The sample of a slot and, for a 0, its release at the first sample. -/
theorem Engine.sampleSlot_wellBehaved (hc : ConfigFacts c) (hd : e.draws = readBitDraws true b ++ ds) :
    e.sampleSlot c = (b, { e with draws := ds, trace := seen (readBitTrace true b) e.trace }) := by
  cases b with
  | true =>
    have hp := Engine.pin_scripted (e := e.delay .sample) (v := true) (vs := ds) hd
    simp only [Engine.sampleSlot, hp, if_true]
    rfl
  | false =>
    have hp := Engine.pin_scripted (e := e.delay .sample) (v := false) (vs := true :: ds) hd
    simp only [Engine.sampleSlot, hp, Bool.false_eq_true, if_false]
    rw [Engine.poll_first hc.rdRelease rfl, if_pos rfl]
    rfl

/-- A well-behaved slot gives its bit, the first of a frame or a later one (R122, R195). -/
theorem Engine.readBit_wellBehaved (hc : ConfigFacts c) (he : e.error = false) (hs : e.slotStarted = first)
    (hd : e.draws = readBitDraws first b ++ ds) :
    e.readBit c = (b, e.afterSlots ds (readBitTrace first b)) := by
  cases first with
  | true =>
    rw [Engine.readBit_first c he hs, Engine.sampleSlot_wellBehaved (e := { e with slotStarted := false }) hc hd]
    rfl
  | false =>
    have hp := Engine.poll_first (ds := readBitDraws true b ++ ds) hc.rdStart hd
    rw [Engine.readBit_later c he hs, hp, if_pos rfl, Engine.sampleSlot_wellBehaved hc rfl]
    simp [Engine.afterSlots, hs, readBitTrace, seen]

/-- One round of `read_byte` over a well-behaved slot. -/
theorem Engine.readBits_slot (hc : ConfigFacts c) (he : e.error = false) (hs : e.slotStarted = first)
    (hd : e.draws = readBitDraws first b ++ ds) (n i : Nat) (acc : Byte) :
    e.readBits c (n + 1) i acc =
      (e.afterSlots ds (readBitTrace first b)).readBits c n (i + 1) (putBit acc i b) := by
  rw [Engine.readBits_succ, Engine.readBit_wellBehaved hc he hs hd, if_neg (by simp [Engine.afterSlots, he])]

/-- Bits in well-behaved slots one after another, the first of a frame among them or not. -/
theorem Engine.readBits_wellBehaved (hc : ConfigFacts c) (he : e.error = false) (hs : e.slotStarted = first)
    (bs : List Bit) (hd : e.draws = bitsDraws first (b :: bs) ++ ds) (i : Nat) (acc : Byte) :
    e.readBits c (bs.length + 1) i acc =
      (putBits i acc (b :: bs), e.afterSlots ds (bitsTrace first (b :: bs))) := by
  induction bs generalizing e first b i acc with
  | nil =>
    have hslot : e.draws = readBitDraws first b ++ ds := by simpa [bitsDraws] using hd
    rw [List.length_nil, Engine.readBits_slot hc he hs hslot, bitsTrace, bitsTrace, List.append_nil]
    rfl
  | cons b' bs ih =>
    have hslot : e.draws = readBitDraws first b ++ (bitsDraws false (b' :: bs) ++ ds) := by
      rw [hd, bitsDraws, List.append_assoc]
    have hrest := ih (e := e.afterSlots (bitsDraws false (b' :: bs) ++ ds) (readBitTrace first b)) he rfl rfl
    rw [List.length_cons, Engine.readBits_slot hc he hs hslot, hrest]
    simp only [Engine.afterSlots, bitsTrace, seen_append, putBits]

/-- The byte that well-behaved slots carry, the command byte of a frame or a later one (R122, R200). -/
theorem Engine.readByte_wellBehaved {v : Byte} (hc : ConfigFacts c) (he : e.error = false)
    (hs : e.slotStarted = first) (hd : e.draws = byteDraws first v ++ ds) :
    e.readByte c = (v, e.afterSlots ds (byteTrace first v)) := by
  have hbits : e.readByte c = (putBits 0 0x00#8 (byteSlots v), e.afterSlots ds (byteTrace first v)) :=
    Engine.readBits_wellBehaved hc he hs _ hd 0 0x00#8
  rw [hbits, putBits_byteSlots]

/-! ### The frame of a command byte -/

/-- The engine that has received a command byte: out of the state machine, the slots of the byte read (R156, R160). -/
def Engine.afterCommandByte (b : Byte) (ds : List Bit) (e : Engine) : Engine :=
  e.frameStart.afterSlots ds (byteTrace true b)

/-- A frame whose command byte arrives in time runs the command and ends (R156, R160). -/
theorem Engine.pinFirstSignalFrame_wellBehaved {cmd : Byte} (hc : ConfigFacts c) (he : e.error = false)
    (hd : e.draws = byteDraws true cmd ++ ds) :
    e.pinFirstSignalFrame c = ((e.afterCommandByte cmd ds).dispatch c cmd).endFrame := by
  have hread : e.frameStart.readByte c = (cmd, e.afterCommandByte cmd ds) :=
    Engine.readByte_wellBehaved hc he rfl hd
  have herror : (e.afterCommandByte cmd ds).error = false := he
  rw [Engine.pinFirstSignalFrame_eq, Engine.frame]
  simp only [hread, herror, Bool.false_eq_true, if_false]

end Slots

/-! ### The obligations -/

/-- Settles O3: the byte decodes to the instruction, so what the frame dispatches on the engine after the byte is what
`exec` runs there. -/
theorem commandFrameRunsItsInstruction : Obligations.CommandFrameRunsItsInstruction := by
  intro i b s ds rest hi hb hconfig hstarted hstage hignore herror hdraws hinputs
  obtain rfl := decodeByte_of_encode hi hb
  have hrow : rowOf .pin s.engine = .pinFirstSignalFrame := by simp [rowOf, pinRow, hstage, hignore]
  have hframe := Engine.pinFirstSignalFrame_wellBehaved (configValid_facts hconfig) herror hdraws
  refine ⟨_, exec_decodeByte b _, ?_⟩
  rw [step_next hconfig hstarted hinputs, hrow, exec_of_runs rfl, State.onEngine, rowEffect, hframe]
  simp only [Engine.afterCommandByte, Engine.afterSlots, seen_cons]
  rfl

/-- Settles O2: the two directions of the table of R106, and the bytes outside it. -/
theorem encodedCommandDecodesBack : Obligations.EncodedCommandDecodesBack := by
  refine ⟨fun i b rest hi hb => ?_, encode_decodeByte, fun b => decodeByte_of_not_named⟩
  rw [decode, decodeByte_of_encode hi hb]

/-- Settles O1: the bytes and slots of R105 and R106 as written out there. -/
theorem writtenCommandWordsDecode : Obligations.WrittenCommandWordsDecode := by
  unfold Obligations.WrittenCommandWordsDecode
  decide

/-- The placement puts the draws of the byte before the others (log 10). -/
theorem withFetchWord_draws (b : Byte) (s : State) :
    (s.withFetchWord 8 b.toNat).engine.draws = byteDraws true b ++ s.engine.draws := by
  rw [State.withFetchWord, ofNat_toNat_mod]
  rfl

/-- Settles O4: the placed state meets the hypotheses of O3, with the byte's own instruction. -/
theorem withFetchWordRunsTheCommand : Obligations.WithFetchWordRunsTheCommand := by
  intro b s hconfig
  obtain ⟨hwf, hencode⟩ := encode_decodeByte b
  exact ⟨decodeTableWord_toNat b, commandFrameRunsItsInstruction _ b (s.withFetchWord 8 b.toNat) _ _ hwf hencode
    hconfig rfl rfl rfl rfl (withFetchWord_draws b s) rfl⟩

end Sys2Proof.Machine
end

section
/-! Proofs for 40_bus_state_machine.md, part 1: the samples of a row are bounded (R163). -/

namespace Sys2Proof.Machine

section Samples
variable {c : Config} {e e1 e2 : Engine} {n m : Nat} {may : Bool}

/-! ### Pieces of a row without a callback -/

/-- From `e` to `e'` at most `n` samples are taken and no callback runs. -/
def Engine.SampledQuietly (n : Nat) (e e' : Engine) : Prop :=
  ∃ new : List TraceEntry, e'.trace = new ++ e.trace ∧ countOf TraceEntry.isSample new ≤ n ∧
    countOf TraceEntry.isCallback new = 0

/-- Entries that are neither samples nor callbacks. -/
theorem Engine.SampledQuietly.entries (new : List TraceEntry) (ht : e1.trace = new ++ e.trace)
    (hs : countOf TraceEntry.isSample new = 0) (hcb : countOf TraceEntry.isCallback new = 0) :
    e.SampledQuietly n e1 := ⟨new, ht, hs.trans_le (Nat.zero_le n), hcb⟩

theorem Engine.SampledQuietly.silently (ht : e1.trace = e.trace) : e.SampledQuietly n e1 := .entries [] ht rfl rfl

theorem Engine.SampledQuietly.trans (h1 : e.SampledQuietly n e1) (h2 : e1.SampledQuietly m e2) :
    e.SampledQuietly (n + m) e2 := by
  obtain ⟨new1, ht1, hs1, hcb1⟩ := h1
  obtain ⟨new2, ht2, hs2, hcb2⟩ := h2
  refine ⟨new2 ++ new1, by rw [ht2, ht1, List.append_assoc], ?_, ?_⟩
  · rw [countOf_append]; omega
  · rw [countOf_append]; omega

theorem Engine.SampledQuietly.mono (h : e.SampledQuietly n e1) (hnm : n ≤ m) : e.SampledQuietly m e1 :=
  let ⟨new, ht, hs, hcb⟩ := h
  ⟨new, ht, hs.trans hnm, hcb⟩

/-- Entries that are neither samples nor callbacks, after such a piece. -/
theorem Engine.SampledQuietly.then_entries (h : e.SampledQuietly n e1) (new : List TraceEntry)
    (ht : e2.trace = new ++ e1.trace) (hs : countOf TraceEntry.isSample new = 0)
    (hcb : countOf TraceEntry.isCallback new = 0) : e.SampledQuietly n e2 :=
  h.trans (.entries (n := 0) new ht hs hcb)

theorem Io.sampledQuietly {P : Prop} (h : Io P n e e1) : e.SampledQuietly n e1 :=
  let ⟨tr, a⟩ := h
  ⟨tr, a.trace, a.samples, a.callbacks⟩

theorem Engine.pin_sampledQuietly (e : Engine) : e.SampledQuietly 1 e.pin.2 :=
  (e.pin_io (P := False) nofun).sampledQuietly

/-! ### Rows without a callback -/

theorem Engine.pinIdle_sampledQuietly : e.SampledQuietly 1 (e.pinIdle c) := by
  have hp := e.pin_sampledQuietly
  unfold Engine.pinIdle
  generalize e.pin = p at hp ⊢
  dsimp only
  split
  · exact hp
  · exact hp.then_entries [.tset c.ticksResetMin] rfl rfl rfl

theorem Engine.pinResetMin_sampledQuietly : e.SampledQuietly 1 e.pinResetMin := by
  have hp := e.pin_sampledQuietly
  unfold Engine.pinResetMin
  generalize e.pin = p at hp ⊢
  dsimp only
  split
  · exact hp.then_entries [.tcancel] rfl rfl rfl
  · exact hp

theorem Engine.pinResetMax_sampledQuietly : e.SampledQuietly 1 (e.pinResetMax c) := by
  have hp := e.pin_sampledQuietly
  unfold Engine.pinResetMax
  generalize e.pin = p at hp ⊢
  dsimp only
  split
  · exact hp.then_entries [.tset c.ticksPresence, .drive true, .delay .presenceDelay] rfl rfl rfl
  · exact hp.then_entries [.tcancel] rfl rfl rfl

theorem Engine.expiryPresence_sampledQuietly : e.SampledQuietly c.nPresenceRelease (e.expiryPresence c) := by
  have hdrive : e.SampledQuietly 0 (e.drive false) := .entries [.drive false] rfl rfl rfl
  have hp := hdrive.trans (Engine.poll_io true c.nPresenceRelease (e.drive false) fun _ : True => rfl).sampledQuietly
  rw [Nat.zero_add] at hp
  unfold Engine.expiryPresence
  generalize (e.drive false).poll true c.nPresenceRelease = p at hp ⊢
  dsimp only
  split
  · exact hp.then_entries [.tset c.ticksFsRetry] rfl rfl rfl
  · exact hp.then_entries [.fault .presenceRelease] rfl rfl rfl

theorem Engine.expiryFirstSignal_sampledQuietly : e.SampledQuietly 0 (e.expiryFirstSignal c) := by
  simp only [Engine.expiryFirstSignal]
  split
  · exact .silently rfl
  · exact .entries [.tset c.ticksFsRetry] rfl rfl rfl

theorem expiryRow_sampledQuietly (st : Stage) :
    e.SampledQuietly (sampleBound c (expiryRow st)) (rowEffect (expiryRow st) c e) := by
  cases st with
  | waitingResetMin => exact .entries [.tset c.ticksResetWindow] rfl rfl rfl
  | presencePulseOn => exact Engine.expiryPresence_sampledQuietly
  | waitingFirstSignal => exact Engine.expiryFirstSignal_sampledQuietly
  | idle | waitingResetMax | unused5 | unused6 | unused7 => exact .silently rfl

/-- No expiry takes more samples than the presence release. -/
theorem sampleBound_expiryRow_le (c : Config) (st : Stage) : sampleBound c (expiryRow st) ≤ c.nPresenceRelease := by
  cases st <;> simp [expiryRow, sampleBound]

theorem Engine.softTimerTick_sampledQuietly : e.SampledQuietly c.nPresenceRelease (e.softTimerTick c) := by
  obtain h | ⟨k, -, h⟩ | h := e.softTimerTick_cases c <;> rw [h]
  · exact .silently rfl
  · exact .silently rfl
  · exact (expiryRow_sampledQuietly (e := e.expired) e.stage).mono (sampleBound_expiryRow_le c e.stage)

/-- A row that cannot run the callback takes at most its bound of samples (R163). -/
theorem rowEffect_sampledQuietly {i : Instr} (hi : mayRunCallback i = false) (c : Config) (e : Engine) :
    e.SampledQuietly (sampleBound c i) (rowEffect i c e) := by
  have hP : False → e.lineDdr = false := nofun
  cases i with
  | search => exact (Engine.search_io c e hP).sampledQuietly
  | alarmSearch => exact (Engine.alarmSearch_io c e hP).sampledQuietly
  | readRom => exact (Engine.readRom_io c e hP).sampledQuietly
  | poll level n => exact (Engine.poll_io level n e hP).sampledQuietly
  | readBit => exact (Engine.readBit_io c e hP).sampledQuietly
  | writeBit b => exact (Engine.writeBit_io c b e hP).sampledQuietly
  | readByte => exact (Engine.readByte_io c e hP).sampledQuietly
  | writeByte v => exact (Engine.writeByte_io c v e hP).sampledQuietly
  | writeByteWithCrc8 v crc =>
    have hw := (Engine.writeByte_io c v e hP).sampledQuietly
    rw [← Engine.writeByteWithCrc8_engine c v crc e] at hw
    exact hw
  | tick => exact Engine.softTimerTick_sampledQuietly
  | pinIdle => exact Engine.pinIdle_sampledQuietly
  | pinResetMin => exact Engine.pinResetMin_sampledQuietly
  | pinResetMax => exact Engine.pinResetMax_sampledQuietly
  | expiryResetMin => exact expiryRow_sampledQuietly .waitingResetMin
  | expiryPresence => exact expiryRow_sampledQuietly .presencePulseOn
  | expiryFirstSignal => exact expiryRow_sampledQuietly .waitingFirstSignal
  | delay d => exact .entries [.delay d] rfl rfl rfl
  | init => exact .entries [.tcancel, .drive false, .port false] rfl rfl rfl
  | ignored _ | pinPresence | pinFirstSignalIgnored | expiryIdle | expiryResetMax | eventBadStage | crc8Update _ _
  | setAlarmOn | setAlarmOff | isError | setErrorOn | setErrorOff => exact .silently rfl
  | matchRom | skip | frame | pinFirstSignalFrame | callback => exact nomatch hi

/-! ### Rows that may run the callback -/

/-- From `e` to `e'` at most `n` samples come before the callback, and in all where `CALLBACK_IO` = 0 or no callback
may run. -/
def Engine.SampledAtMost (c : Config) (may : Bool) (n : Nat) (e e' : Engine) : Prop :=
  ∃ new : List TraceEntry, e'.trace = new ++ e.trace ∧ samplesBeforeCallback new ≤ n ∧
    (c.callbackIo = false ∨ may = false → countOf TraceEntry.isSample new ≤ n)

theorem Engine.SampledQuietly.sampledAtMost (h : e.SampledQuietly n e1) : e.SampledAtMost c may n e1 :=
  let ⟨new, ht, hs, hcb⟩ := h
  ⟨new, ht, (samplesBeforeCallback_of_noCallback hcb).trans_le hs, fun _ => hs⟩

theorem App.sampledAtMost {P : Prop} (h : App P c n e e1) (hmay : may = true) : e.SampledAtMost c may n e1 :=
  let ⟨new, a⟩ := h
  ⟨new, a.trace, a.before, fun hq => hq.elim a.samples fun hno => by simp [hmay] at hno⟩

/-- What runs before the callback counts in any case. -/
theorem Engine.SampledQuietly.trans_sampledAtMost (h1 : e.SampledQuietly n e1) (h2 : e1.SampledAtMost c may m e2) :
    e.SampledAtMost c may (n + m) e2 := by
  obtain ⟨new1, ht1, hs1, hcb1⟩ := h1
  obtain ⟨new2, ht2, hbefore2, hs2⟩ := h2
  refine ⟨new2 ++ new1, by rw [ht2, ht1, List.append_assoc], ?_, fun hq => ?_⟩
  · rw [samplesBeforeCallback_append hcb1]; omega
  · have := hs2 hq
    rw [countOf_append]; omega

/-- A frame whose first slot has begun, by its command (R163). -/
theorem Engine.frame_sampledAtMost (c : Config) (e : Engine) (hs : e.slotStarted = true) :
    e.SampledAtMost c (mayRunCallback (decodeByte (e.readByte c).1))
      (firstBitBound c + 7 * readBitBound c + sampleBound c (decodeByte (e.readByte c).1)) (e.frame c) := by
  have hP : False → e.lineDdr = false := nofun
  cases h : mayRunCallback (decodeByte (e.readByte c).1) with
  | false => exact (Engine.frame_first_io c e hs hP h).sampledQuietly.sampledAtMost
  | true => exact (Engine.frame_first_app c e hs hP).sampledAtMost rfl

/-- The row that runs it adds no sample: it cancels the timer before, and clears two flags after (R156). -/
theorem Engine.pinFirstSignalFrame_sampledAtMost (c : Config) (e : Engine) :
    e.SampledAtMost c (mayRunCallback (decodeByte (e.frameStart.readByte c).1))
      (firstBitBound c + 7 * readBitBound c + sampleBound c (decodeByte (e.frameStart.readByte c).1))
      (e.pinFirstSignalFrame c) := by
  have hstart : e.SampledQuietly 0 e.frameStart := .entries [.tcancel] rfl rfl rfl
  have hframe := hstart.trans_sampledAtMost (Engine.frame_sampledAtMost c e.frameStart rfl)
  rw [Nat.zero_add] at hframe
  exact hframe

/-- A greater bound, for a row that may run a callback. -/
theorem Engine.SampledAtMost.weaken (h : e.SampledAtMost c may n e1) (hnm : n ≤ m) : e.SampledAtMost c true m e1 :=
  let ⟨new, ht, hbefore, hs⟩ := h
  ⟨new, ht, hbefore.trans hnm, fun hq => (hs (.inl (hq.resolve_right nofun))).trans hnm⟩

/-- Every row, before its callback and in all (R163). -/
theorem rowEffect_sampledAtMost (i : Instr) (c : Config) (e : Engine) :
    e.SampledAtMost c (mayRunCallback i) (sampleBound c i) (rowEffect i c e) := by
  cases h : mayRunCallback i with
  | false => exact (rowEffect_sampledQuietly h c e).sampledAtMost
  | true =>
    cases i with
    | pinFirstSignalFrame =>
      exact (e.pinFirstSignalFrame_sampledAtMost c).weaken
        (Nat.add_le_add_left (sampleBound_decodeByte_le c _) _)
    | matchRom | skip | frame | callback =>
      exact (rowEffect_app (P := False) (by decide) (by decide) (by decide) c e nofun).sampledAtMost rfl
    | _ => exact nomatch h

end Samples

/-- Bit and byte I/O hands no result out (R46). -/
theorem Io.returned {P : Prop} {n : Nat} {e e' : Engine} (h : Io P n e e') : e'.returned = e.returned :=
  (congrArg Engine.returned h.frame :)

theorem Engine.readByte_returned (c : Config) (e : Engine) : (e.readByte c).2.returned = e.returned :=
  (Engine.readByte_io (P := False) c e nofun).returned

/-- Settles O57: a row is its operation on the engine in focus, whose samples are bounded piece by piece; a frame is
bounded by its command byte and the command that the byte decodes to. -/
theorem samplesAreBounded : Obligations.SamplesAreBounded := by
  refine ⟨fun i s t h => ?_, fun s => ?_⟩
  · obtain ⟨-, rfl⟩ := exec_eq_next_iff.mp h
    exact rowEffect_sampledAtMost i s.config s.engine
  · obtain ⟨new, htrace, hbefore, hall⟩ := s.engine.pinFirstSignalFrame_sampledAtMost s.config
    refine ⟨_, _, (s.engine.frameStart.readByte s.config).1, new, rfl, ?_, rfl, htrace, hbefore, hall⟩
    exact congrArg _ (s.engine.frameStart.readByte_returned s.config)

end Sys2Proof.Machine
end

section
/-! Proofs for 40_bus_state_machine.md, part 2: which row an input selects, and what the rows of the state
machine do. -/

namespace Sys2Proof.Machine

/-! ### Selecting a row -/

/-- An input that needs no `init()`, or comes after it, runs the row it selects (R142, R341). -/
theorem deliver_of_started {i : Input} {s : State} (h : i.isEvent = true → s.engine.started = true) :
    deliver i s = exec (rowOf i s.engine) s := by
  refine if_neg fun hrefused => ?_
  obtain ⟨hevent, hstarted⟩ := (Bool.and_eq_true _ _).mp hrefused
  simp [h hevent] at hstarted

/-- Settles O5: the step delivers the oldest input to the engine in focus. -/
theorem stepRunsTheSelectedRow : Obligations.StepRunsTheSelectedRow := by
  intro s f d rest hc hi hf hs
  rw [step_of_focus hc hi hf, deliver_of_started hs]

/-- In a legal stage a tick is an operation of the engine in focus. -/
theorem exec_tick {s : State} (hu : s.engine.stage.isUnused = false) :
    exec .tick s = .next (s.onEngine Engine.softTimerTick) := exec_of_runs hu

/-- In a legal stage the expiry row answers a next state. -/
theorem rowStops_expiryRow {st : Stage} (hu : st.isUnused = false) (st' : Stage) :
    rowStops (expiryRow st) st' = false := by
  cases st with
  | idle | waitingResetMin | waitingResetMax | presencePulseOn | waitingFirstSignal => rfl
  | unused5 | unused6 | unused7 => exact nomatch hu

/-- In an unused stage it is the bad-stage row. -/
theorem expiryRow_of_unused {st : Stage} (hu : st.isUnused = true) : expiryRow st = .eventBadStage := by
  cases st with
  | idle | waitingResetMin | waitingResetMax | presencePulseOn | waitingFirstSignal => exact nomatch hu
  | unused5 | unused6 | unused7 => rfl

/-- The tick that takes the countdown to 0 runs the expiry row with the timer disarmed (R143, R144). -/
theorem exec_tick_expires {s : State} (ha : s.engine.timerArmed = true) (h1 : s.engine.timerCount = 1) :
    exec .tick s = exec (expiryRow s.engine.stage) { s with engine := s.engine.expired } := by
  cases hu : s.engine.stage.isUnused with
  | false =>
    rw [exec_tick hu, exec_of_runs (rowStops_expiryRow hu _), State.onEngine, Engine.tick_expires ha h1,
      Engine.onTimerExpiry_eq]
    rfl
  | true =>
    rw [expiryRow_of_unused hu]
    exact if_pos hu

/-- Settles O7: a PIN by the table of stages, and the expiring tick. -/
theorem stageSelectsTheRow : Obligations.StageSelectsTheRow := by
  refine ⟨fun e => ?_, fun s => exec_tick_expires⟩
  refine ⟨fun h => ?_, fun h => ?_, fun h => ?_, fun h => ?_, fun h hi => ?_, fun h hi => ?_, ?_⟩
  case refine_7 => rintro (h | h | h) <;> simp only [rowOf, pinRow, h]
  all_goals simp [rowOf, pinRow, *]

/-! ### Every row -/

/-- A well-formed row other than the bad-stage event stops in no legal stage. -/
theorem rowStops_of_wellFormed {i : Instr} {st : Stage} (hi : WellFormed i = true) (hbad : i ≠ .eventBadStage)
    (hu : st.isUnused = false) : rowStops i st = false := by
  cases i with
  | eventBadStage => exact absurd rfl hbad
  | tick => exact hu
  | poll level n =>
    have hn : 1 ≤ n := of_decide_eq_true hi
    exact beq_eq_false_iff_ne.mpr (by omega)
  | _ => rfl

/-- Settles O9: such a row is an operation of the engine in focus, which keeps the store and the bus number. -/
theorem everyRowCompletes : Obligations.EveryRowCompletes := by
  intro i s hi hbad hu
  obtain ⟨hstore, hbus⟩ := rowEffect_store_bus i s.config s.engine
  exact ⟨_, exec_of_runs (rowStops_of_wellFormed hi hbad hu), rfl, rfl, rfl, hbus,
    fun a => congrArg (memRead · a) hstore⟩

/-! ### Classifying a RESET -/

section Classify
variable {c : Config} {e : Engine} {ds : List Bit}

theorem Engine.pinIdle_low (hc : ConfigFacts c) (hd : e.draws = false :: ds) :
    e.pinIdle c = { e with
      draws := ds, stage := .waitingResetMin, timerArmed := true, timerCount := c.ticksResetMin
      trace := [.tset c.ticksResetMin, .sample false] ++ e.trace } := by
  simp [Engine.pinIdle, Engine.pin_scripted hd, Engine.timerSet, Engine.goto, Engine.emit, fit_of_lt hc.resetMin.2]

theorem Engine.pinIdle_high (hd : e.draws = true :: ds) :
    e.pinIdle c = { e with draws := ds, trace := .sample true :: e.trace } := by
  simp [Engine.pinIdle, Engine.pin_scripted hd]

theorem Engine.pinResetMin_low (hd : e.draws = false :: ds) :
    e.pinResetMin = { e with draws := ds, trace := .sample false :: e.trace } := by
  simp [Engine.pinResetMin, Engine.pin_scripted hd]

theorem Engine.pinResetMin_high (hd : e.draws = true :: ds) :
    e.pinResetMin = { e with
      draws := ds, stage := .idle, timerArmed := false, trace := [.tcancel, .sample true] ++ e.trace } := by
  simp [Engine.pinResetMin, Engine.pin_scripted hd, Engine.timerCancel, Engine.goto, Engine.emit]

theorem Engine.pinResetMax_low (hd : e.draws = false :: ds) :
    e.pinResetMax c = { e with
      draws := ds, stage := .idle, timerArmed := false, trace := [.tcancel, .sample false] ++ e.trace } := by
  simp [Engine.pinResetMax, Engine.pin_scripted hd, Engine.timerCancel, Engine.goto, Engine.emit]

theorem Engine.pinResetMax_high (hc : ConfigFacts c) (hd : e.draws = true :: ds) :
    e.pinResetMax c = { e with
      draws := ds, stage := .presencePulseOn, lineDdr := true, timerArmed := true, timerCount := c.ticksPresence
      trace := [.tset c.ticksPresence, .drive true, .delay .presenceDelay, .sample true] ++ e.trace } := by
  simp [Engine.pinResetMax, Engine.pin_scripted hd, Engine.delay, Engine.drive, Engine.timerSet, Engine.goto,
    Engine.emit, fit_of_lt hc.presence.2]

end Classify

/-- Settles O36: each of the three rows by the level it samples. -/
theorem pinWhileClassifyingReset : Obligations.PinWhileClassifyingReset := by
  intro s v ds hconfig hd
  have hc := configValid_facts hconfig
  rw [exec_of_runs rfl, exec_of_runs rfl, exec_of_runs rfl]
  cases v with
  | true =>
    simp [State.onEngine, rowEffect, Engine.pinIdle_high hd, Engine.pinResetMin_high hd, Engine.pinResetMax_high hc hd]
  | false =>
    simp [State.onEngine, rowEffect, Engine.pinIdle_low hc hd, Engine.pinResetMin_low hd, Engine.pinResetMax_low hd]

/-- Settles O37: both rows are no operation. -/
theorem ignoredEventsChangeNothing : Obligations.IgnoredEventsChangeNothing := fun _ => ⟨rfl, rfl⟩

/-- Settles O38: the row writes the flag. -/
theorem spuriousEdgeIsConsumed : Obligations.SpuriousEdgeIsConsumed := fun _ => rfl

/-- R148: the window countdown is armed with its value. -/
theorem Engine.expiryResetMin_eq {c : Config} (hc : ConfigFacts c) (e : Engine) :
    e.expiryResetMin c = { e with
      stage := .waitingResetMax, timerArmed := true, timerCount := c.ticksResetWindow
      trace := .tset c.ticksResetWindow :: e.trace } := by
  simp [Engine.expiryResetMin, Engine.timerSet, Engine.goto, Engine.emit, fit_of_lt hc.resetWindow.2]

/-- Settles O39: the row is that operation on the engine in focus. -/
theorem resetMinimumElapses : Obligations.ResetMinimumElapses := by
  intro s hconfig
  rw [exec_of_runs rfl, State.onEngine, rowEffect, Engine.expiryResetMin_eq (configValid_facts hconfig)]

/-- Settles O40: the expiry row is no operation, and the stage it leaves still classifies a rising edge. -/
theorem resetWindowExpiryIsANoOp : Obligations.ResetWindowExpiryIsANoOp := by
  refine ⟨fun s => rfl, fun s hs ha h1 => ?_, fun s ds hs _ hd => ?_⟩
  · rw [exec_tick_expires ha h1, hs]
    rfl
  · have hrow : rowOf .pin s.engine = .pinResetMax := by simp only [rowOf, pinRow, hs]
    refine ⟨_, by rw [hrow, exec_of_runs rfl], ?_⟩
    simp [rowEffect, Engine.pinResetMax, Engine.pin_scripted hd]

/-! ### The end of the presence pulse, and the wait for the first slot -/

section Presence
variable {c : Config} {e : Engine} {ds : List Bit}

/-- R153: the master lets go within the bound. -/
theorem Engine.expiryPresence_released (hc : ConfigFacts c) {k : Nat} (hk : k < c.nPresenceRelease)
    (hd : e.draws = List.replicate k false ++ true :: ds) :
    e.expiryPresence c = { e with
      lineDdr := false, draws := ds, stage := .waitingFirstSignal, ignoreOneChange := true
      fsCount := c.nFirstSignal, timerArmed := true, timerCount := c.ticksFsRetry
      trace := seen (.drive false :: List.replicate k (.sample false)
        ++ [.sample true, .tset c.ticksFsRetry]) e.trace } := by
  have hp := Engine.poll_hit (level := true) (e := e.drive false) hk hd
  rw [Engine.expiryPresence, hp]
  simp [Engine.timerSet, Engine.drive, Engine.emit, fit_of_lt hc.retry.2,
    fit_of_lt hc.rounds.2, seen]

/-- R153, R303: the line stays low. -/
theorem Engine.expiryPresence_stuck (hd : e.draws = List.replicate c.nPresenceRelease false ++ ds) :
    e.expiryPresence c = { e with
      lineDdr := false, draws := ds, stage := .idle, error := false
      trace := seen (.drive false :: List.replicate c.nPresenceRelease (.sample false)
        ++ [.fault .presenceRelease]) e.trace } := by
  have hp := Engine.poll_timeout (level := true) (e := e.drive false) hd
  rw [Engine.expiryPresence, hp]
  simp [Engine.shortCircuit, Engine.deadlineMiss, Engine.drive, Engine.emit, seen]

/-- R158: rounds are left. -/
theorem Engine.expiryFirstSignal_retry (hc : ConfigFacts c) (h2 : 2 ≤ e.fsCount)
    (hw : e.fsCount < 2 ^ c.fsCountBits) :
    e.expiryFirstSignal c = { e with
      fsCount := e.fsCount - 1, timerArmed := true, timerCount := c.ticksFsRetry
      trace := .tset c.ticksFsRetry :: e.trace } := by
  have hn : decr c.fsCountBits e.fsCount = e.fsCount - 1 := decr_of_pos (by omega) hw.le
  have hleft : ¬e.fsCount - 1 = 0 := by omega
  simp [Engine.expiryFirstSignal, hn, hleft, Engine.timerSet, Engine.emit, fit_of_lt hc.retry.2]

/-- R158: the last round is over. -/
theorem Engine.expiryFirstSignal_giveUp (h1 : e.fsCount = 1) :
    e.expiryFirstSignal c = { e with fsCount := 0, ignoreOneChange := false, stage := .idle } := by
  simp [Engine.expiryFirstSignal, h1]

end Presence

/-- Settles O41: the two outcomes of the release poll. -/
theorem presencePulseEnds : Obligations.PresencePulseEnds := by
  refine ⟨fun s k ds hconfig hk hd => ?_, fun s ds hd => ?_⟩
  · rw [exec_of_runs rfl, State.onEngine, rowEffect, Engine.expiryPresence_released (configValid_facts hconfig) hk hd]
  · rw [exec_of_runs rfl, State.onEngine, rowEffect, Engine.expiryPresence_stuck hd]

/-- Settles O42: the two outcomes of the decrement. -/
theorem firstSignalRetryCountsDown : Obligations.FirstSignalRetryCountsDown := by
  refine fun s hconfig hw => ⟨fun h2 => ?_, fun h1 => ?_⟩
  · rw [exec_of_runs rfl, State.onEngine, rowEffect, Engine.expiryFirstSignal_retry (configValid_facts hconfig) h2 hw]
  · rw [exec_of_runs rfl, State.onEngine, rowEffect, Engine.expiryFirstSignal_giveUp h1]

/-! ### The frame -/

/-- R160: the frame is its byte and, unless a deadline was missed, the row the byte decodes to. -/
theorem exec_frame (s : State) :
    exec .frame s =
      if (s.engine.readByte s.config).2.error then .next (s.onEngine fun c e => (e.readByte c).2)
      else exec (decodeByte (s.engine.readByte s.config).1) (s.onEngine fun c e => (e.readByte c).2) := by
  rw [exec_of_runs rfl, exec_decodeByte, State.onEngine, rowEffect, Engine.frame]
  split <;> rfl

/-- Settles O43: the state after the byte, with the result the row `read_byte` hands out for it. -/
theorem frameDispatchesTheByteRead : Obligations.FrameDispatchesTheByteRead := by
  intro s
  have hret := s.engine.readByte_returned s.config
  refine ⟨s.onEngine fun c e => (e.readByte c).2, (s.engine.readByte s.config).1, ?_, hret, exec_frame s⟩
  rw [exec_of_runs rfl, ← hret]
  rfl

/-- Settles O44: the row is the frame between its two ends. -/
theorem firstEdgeRunsTheFrame : Obligations.FirstEdgeRunsTheFrame := fun _ => ⟨_, rfl, rfl⟩

/-- Settles O45: what a frame leaves alone is as its start set it, and its end clears the two flags. -/
theorem frameEndsClean : Obligations.FrameEndsClean := by
  intro s hline
  have hout := s.engine.pinFirstSignalFrame_outsideApp s.config
  exact ⟨_, exec_of_runs rfl, (congrArg Engine.stage hout :), (congrArg Engine.timerArmed hout :), rfl, rfl,
    Engine.frame_line s.config s.engine.frameStart hline, (congrArg Engine.ignoreOneChange hout :),
    (congrArg Engine.fsCount hout :), (congrArg Engine.linePort hout :)⟩

end Sys2Proof.Machine
end

section
/-! Proofs for 40_bus_state_machine.md, part 3: runs of many steps. -/

namespace Sys2Proof.Machine

/-! ### Counting down -/

/-- A run followed by one more step. -/
theorem runSteps_then_step {n : Nat} {s t u : State} (hrun : runSteps n s = .next t) (h : step t = .next u) :
    runSteps (n + 1) s = .next u := (runSteps_add hrun).trans (runSteps_next h)

/-- The machine after ticks that only counted. -/
def State.counted (m : Nat) (rest : List Delivery) (s : State) : State :=
  { s with inputs := rest, engine := { s.engine with timerCount := m } }

/-- From a count of `m + 1 + n`, `n` ticks only count down to `m + 1` (R143). -/
theorem runSteps_ticks {s : State} {m n : Nat} {rest : List Delivery} (hc : configValid s.config = true)
    (hs : s.engine.started = true) (hu : s.engine.stage.isUnused = false) (ha : s.engine.timerArmed = true)
    (hn : s.engine.timerCount = m + 1 + n) (hw : m + 1 + n < 2 ^ s.config.timerCountBits)
    (hi : s.inputs = List.replicate n ⟨s.engine.bus, .tick⟩ ++ rest) :
    runSteps n s = .next (s.counted (m + 1) rest) := by
  induction n generalizing s with
  | zero =>
    rw [runSteps_zero, State.counted, ← show s.inputs = rest from hi, ← show s.engine.timerCount = m + 1 from hn]
  | succ n ih =>
    have hstep := step_tick (n := m + n) hc hs hu ha (by omega) (by omega) hi
    refine (runSteps_next hstep).trans (ih hc hs hu ha ?_ ?_ rfl)
    · exact Nat.add_right_comm m n 1
    · exact (Nat.lt_succ_self _).trans hw

/-- Settles O46: a disarmed timer ignores the tick, and the countdown is the case that ends at 1. -/
theorem ticksOnlyCountDown : Obligations.TicksOnlyCountDown := by
  refine ⟨fun s hu ha => ?_, fun s n rest hc hs hu ha hn hw hi => ?_⟩
  · rw [exec_tick hu, State.onEngine, Engine.tick_disarmed _ ha]
  · exact runSteps_ticks (m := 0) hc hs hu ha (by omega) (by omega) hi

/-! ### The presence pulse -/

/-- An edge during the presence pulse only takes its input (R151). -/
theorem step_pin_presence {s : State} {rest : List Delivery} (hc : configValid s.config = true)
    (hs : s.engine.started = true) (hst : s.engine.stage = .presencePulseOn)
    (hi : s.inputs = ⟨s.engine.bus, .pin⟩ :: rest) : step s = .next { s with inputs := rest } := by
  have hrow : rowOf .pin s.engine = .pinPresence := by simp only [rowOf, pinRow, hst]
  rw [step_next hc hs hi, hrow, exec_of_runs rfl]
  rfl

/-- During the presence pulse edges change nothing, and ticks above 1 only count down (R151, R152). -/
theorem runSteps_presence {s : State} {m : Nat} {evs : List Input} {rest : List Delivery}
    (hc : configValid s.config = true) (hs : s.engine.started = true) (hst : s.engine.stage = .presencePulseOn)
    (ha : s.engine.timerArmed = true) (hevs : ∀ i ∈ evs, i = .pin ∨ i = .tick)
    (hn : s.engine.timerCount = m + 1 + evs.count .tick)
    (hw : m + 1 + evs.count .tick < 2 ^ s.config.timerCountBits)
    (hi : s.inputs = evs.map (fun i => ⟨s.engine.bus, i⟩) ++ rest) :
    runSteps evs.length s = .next (s.counted (m + 1) rest) := by
  induction evs generalizing s with
  | nil =>
    rw [List.length_nil, runSteps_zero, State.counted, ← show s.inputs = rest from hi,
      ← show s.engine.timerCount = m + 1 from hn]
  | cons i evs ih =>
    obtain ⟨hfirst, hrest⟩ := List.forall_mem_cons.mp hevs
    obtain rfl | rfl := hfirst
    · have hcount : (Input.pin :: evs).count .tick = evs.count .tick := List.count_cons_of_ne (by decide)
      rw [hcount] at hn hw
      exact (runSteps_next (step_pin_presence hc hs hst hi)).trans (ih hc hs hst ha hrest hn hw rfl)
    · rw [List.count_cons_self] at hn hw
      have hstep := step_tick (n := m + evs.count .tick) hc hs (by rw [hst]; rfl) ha (by omega) (by omega) hi
      refine (runSteps_next hstep).trans (ih hc hs hst ha hrest ?_ ?_ rfl)
      · exact Nat.add_right_comm m _ 1
      · exact (Nat.lt_succ_self _).trans hw

/-- The end of the pulse releases the line first and does not sink it again (R153). -/
theorem Engine.expiryPresence_released_once (c : Config) (e : Engine) : ∃ new,
    (e.expiryPresence c).trace = new ++ .drive false :: e.trace ∧ countOf TraceEntry.isSink new = 0 ∧
      (e.expiryPresence c).lineDdr = false ∧
      ((e.expiryPresence c).stage = .waitingFirstSignal ∨ (e.expiryPresence c).stage = .idle) := by
  obtain ⟨ds, k, tr, hp, -, hsamples⟩ := (e.drive false).poll_spec true c.nPresenceRelease
  have hsink : countOf TraceEntry.isSink tr = 0 := countOf_eq_zero_of_samples hsamples fun _ => rfl
  unfold Engine.expiryPresence
  dsimp only
  rw [hp]
  split
  · exact ⟨.tset c.ticksFsRetry :: tr, rfl, hsink, rfl, .inl rfl⟩
  · exact ⟨.fault .presenceRelease :: tr, rfl, hsink, rfl, .inr rfl⟩

/-- Settles O48: the inputs before the last tick, however many of them have come, leave the pulse on, and that tick ends
it. -/
theorem presencePulseLastsItsTicks : Obligations.PresencePulseLastsItsTicks := by
  intro s evs rest hc hs hst hline ha hcount hevs hticks hi
  obtain ⟨-, hwidth⟩ := (configValid_facts hc).presence
  refine ⟨fun n hn => ?_, ?_⟩
  · have hsplit : (evs.take n).count .tick + (evs.drop n).count .tick = evs.count .tick := by
      rw [← List.count_append, List.take_append_drop]
    have hrun := runSteps_presence (m := (evs.drop n).count .tick) (evs := evs.take n)
      (rest := (evs.drop n).map (fun i => ⟨s.engine.bus, i⟩) ++ ⟨s.engine.bus, .tick⟩ :: rest) hc hs hst ha
      (fun i h => hevs i (List.mem_of_mem_take h)) (by omega) (by omega)
      (by rw [hi, ← List.append_assoc, ← List.map_append, List.take_append_drop])
    rw [List.length_take_of_le hn] at hrun
    exact ⟨_, hrun, hline, hst, rfl⟩
  · have hrun := runSteps_presence (m := 0) hc hs hst ha hevs (by omega) (by omega) hi
    have hlast := step_expiry (s := s.counted 1 (⟨s.engine.bus, .tick⟩ :: rest)) hc hs
      (show s.engine.stage.isUnused = false by rw [hst]; rfl) ha rfl rfl
    obtain ⟨new, htrace, hsink, hreleased, hstage⟩ := s.engine.expired.expiryPresence_released_once s.config
    have hexp : Engine.onTimerExpiry s.config s.engine.expired = s.engine.expired.expiryPresence s.config := by
      rw [Engine.onTimerExpiry_eq, show s.engine.expired.stage = .presencePulseOn from hst]
      rfl
    rw [← hexp] at htrace hreleased hstage
    exact ⟨_, new, runSteps_then_step hrun hlast, rfl, hreleased, hstage, htrace, hsink⟩

/-! ### The wait for the first slot -/

/-- The machine after `j` retries: a round begins, `f` rounds are left with it, and each retry has armed the timer. -/
def State.retried (f j : Nat) (rest : List Delivery) (s : State) : State :=
  { s with
    inputs := rest
    engine := { s.engine with
      fsCount := f, timerCount := s.config.ticksFsRetry
      trace := List.replicate j (.tset s.config.ticksFsRetry) ++ s.engine.trace } }

/-- The machine waits for the first slot: a round begins, and `f` rounds are left with it. -/
structure State.Waiting (f : Nat) (s : State) : Prop where
  config : configValid s.config = true
  started : s.engine.started = true
  stage : s.engine.stage = .waitingFirstSignal
  armed : s.engine.timerArmed = true
  round : s.engine.timerCount = s.config.ticksFsRetry
  rounds : s.engine.fsCount = f
  width : f < 2 ^ s.config.fsCountBits

section Waiting
variable {s : State} {f n : Nat} {rest : List Delivery}

theorem State.Waiting.legal (h : s.Waiting f) : s.engine.stage.isUnused = false := by rw [h.stage]; rfl

/-- Ticks of the first round, but for its last one. -/
theorem State.Waiting.run_ticks (h : s.Waiting f) (hn : n < s.config.ticksFsRetry)
    (hi : s.inputs = List.replicate n ⟨s.engine.bus, .tick⟩ ++ rest) :
    runSteps n s = .next (s.counted (s.config.ticksFsRetry - n) rest) := by
  obtain ⟨m, hm⟩ := Nat.exists_eq_add_of_lt hn
  have hround : s.config.ticksFsRetry = m + 1 + n := by omega
  have hwidth := (configValid_facts h.config).retry.2
  have hrun := runSteps_ticks (m := m) h.config h.started h.legal h.armed (h.round.trans hround) (by omega) hi
  rw [hrun, hround, Nat.add_sub_cancel]

/-- The ticks of a whole round end in the expiry row (R158). -/
theorem State.Waiting.run_round (h : s.Waiting f)
    (hi : s.inputs = List.replicate s.config.ticksFsRetry ⟨s.engine.bus, .tick⟩ ++ rest) :
    runSteps s.config.ticksFsRetry s = .next { s with
      inputs := rest, engine := s.engine.expired.expiryFirstSignal s.config } := by
  obtain ⟨m, hm⟩ : ∃ m, s.config.ticksFsRetry = m + 1 :=
    Nat.exists_eq_add_of_le' (configValid_facts h.config).retry.1
  rw [hm, List.replicate_succ', List.append_assoc] at hi
  have hrun := h.run_ticks (n := m) (by omega) hi
  rw [hm, Nat.add_sub_cancel_left] at hrun
  have hlast := step_expiry (s := s.counted 1 (⟨s.engine.bus, .tick⟩ :: rest)) h.config h.started h.legal h.armed
    rfl rfl
  have hexp : Engine.onTimerExpiry s.config s.engine.expired = s.engine.expired.expiryFirstSignal s.config := by
    rw [Engine.onTimerExpiry_eq, show s.engine.expired.stage = .waitingFirstSignal from h.stage]
    rfl
  rw [hm, runSteps_then_step hrun hlast, ← hexp]
  rfl

/-- A round that is not the last. -/
theorem State.Waiting.run_retry (h : s.Waiting (f + 2))
    (hi : s.inputs = List.replicate s.config.ticksFsRetry ⟨s.engine.bus, .tick⟩ ++ rest) :
    runSteps s.config.ticksFsRetry s = .next (s.retried (f + 1) 1 rest) := by
  have hrounds : s.engine.expired.fsCount = f + 2 := h.rounds
  rw [h.run_round hi, Engine.expiryFirstSignal_retry (configValid_facts h.config) (by omega)
    (hrounds ▸ h.width), hrounds]
  obtain ⟨-, -, -, harmed, -, -, -⟩ := h
  simp [State.retried, Engine.expired, harmed]

theorem State.Waiting.retried (h : s.Waiting f) {f' : Nat} (hf : f' ≤ f) (j : Nat) (rest : List Delivery) :
    (s.retried f' j rest).Waiting f' :=
  ⟨h.config, h.started, h.stage, h.armed, rfl, rfl, hf.trans_lt h.width⟩

/-- `j` rounds that are not the last. -/
theorem State.Waiting.run_retries {j : Nat} (h : s.Waiting (f + 1 + j))
    (hi : s.inputs = List.replicate (j * s.config.ticksFsRetry) ⟨s.engine.bus, .tick⟩ ++ rest) :
    runSteps (j * s.config.ticksFsRetry) s = .next (s.retried (f + 1) j rest) := by
  induction j generalizing f rest with
  | zero =>
    rw [Nat.zero_mul] at hi ⊢
    rw [runSteps_zero, State.retried, ← h.round, ← show s.engine.fsCount = f + 1 from h.rounds,
      ← show s.inputs = rest from hi]
    rfl
  | succ j ih =>
    rw [Nat.succ_mul, List.replicate_add, List.append_assoc] at hi
    have hle : f + 1 + 1 ≤ f + 1 + (j + 1) := by omega
    rw [Nat.succ_mul, runSteps_add (ih (f := f + 1) (by rw [Nat.add_right_comm]; exact h) hi)]
    exact (h.retried hle j _).run_retry rfl

/-- `j` such rounds and some ticks of the next one, but for its last. -/
theorem State.Waiting.run_short {j r : Nat} (h : s.Waiting (f + 1 + j)) (hr : r < s.config.ticksFsRetry)
    (hi : s.inputs = List.replicate (j * s.config.ticksFsRetry + r) ⟨s.engine.bus, .tick⟩ ++ rest) :
    runSteps (j * s.config.ticksFsRetry + r) s =
      .next ((s.retried (f + 1) j rest).counted (s.config.ticksFsRetry - r) rest) := by
  rw [List.replicate_add, List.append_assoc] at hi
  rw [runSteps_add (h.run_retries hi)]
  exact (h.retried (by omega) j _).run_ticks hr rfl

/-- All rounds: the last one gives up (R158). -/
theorem State.Waiting.run_all {j : Nat} (h : s.Waiting (0 + 1 + j))
    (hi : s.inputs = List.replicate ((j + 1) * s.config.ticksFsRetry) ⟨s.engine.bus, .tick⟩ ++ rest) :
    runSteps ((j + 1) * s.config.ticksFsRetry) s = .next { s with
      inputs := rest
      engine := { s.engine with
        fsCount := 0, timerCount := 0, timerArmed := false, ignoreOneChange := false, stage := .idle
        trace := List.replicate j (.tset s.config.ticksFsRetry) ++ s.engine.trace } } := by
  rw [Nat.succ_mul, List.replicate_add, List.append_assoc] at hi
  rw [Nat.succ_mul, runSteps_add (h.run_retries hi)]
  refine ((h.retried (by omega) j _).run_round rfl).trans ?_
  rw [Engine.expiryFirstSignal_giveUp rfl]
  rfl

end Waiting

/-- Settles O49: a smaller number of ticks is some whole rounds and a part of one, and the exact number all rounds. -/
theorem firstSignalEpisodeLength : Obligations.FirstSignalEpisodeLength := by
  intro s k rest hc hs hst ha hn hf hi
  obtain ⟨hpos, hwidth⟩ := (configValid_facts hc).rounds
  have hwait : s.Waiting s.config.nFirstSignal := ⟨hc, hs, hst, ha, hn, hf, hwidth⟩
  refine ⟨fun hk => ?_, ?_⟩
  · have hretry : 0 < s.config.ticksFsRetry := (configValid_facts hc).retry.1
    have hround : k / s.config.ticksFsRetry < s.config.nFirstSignal := Nat.div_lt_of_lt_mul (by rwa [Nat.mul_comm])
    obtain ⟨f, hrounds⟩ := Nat.exists_eq_add_of_lt hround
    rw [← Nat.div_add_mod' k s.config.ticksFsRetry] at hi ⊢
    rw [show s.config.nFirstSignal = f + 1 + k / s.config.ticksFsRetry by omega] at hwait
    exact ⟨_, hwait.run_short (Nat.mod_lt k hretry) hi, rfl, hst, rfl, rfl⟩
  · rintro rfl
    obtain ⟨j, hj⟩ := Nat.exists_eq_add_of_le' hpos
    rw [show s.config.nFirstSignal = 0 + 1 + j by omega] at hwait
    rw [hj] at hi ⊢
    exact ⟨_, hwait.run_all hi, rfl, rfl, rfl, rfl, rfl, rfl⟩

end Sys2Proof.Machine
end

section
/-! Proofs for 41_bit_byte_io.md, part 1: the waits and the bit operations, one equation per path of a slot. -/

namespace Sys2Proof.Machine

/-! ### The rows, one equation each -/

theorem exec_poll (level : Bit) {n : Nat} (hn : 1 ≤ n) (s : State) :
    exec (.poll level n) s = .next { s with
      engine := (s.engine.poll level n).2.give (.polled (s.engine.poll level n).1) } := if_neg (by omega)

theorem exec_readBit (s : State) :
    exec .readBit s = .next { s with
      engine := (s.engine.readBit s.config).2.give (.bit (s.engine.readBit s.config).1) } := rfl

theorem exec_writeBit (b : Bit) (s : State) :
    exec (.writeBit b) s = .next { s with engine := s.engine.writeBit s.config b } := rfl

theorem exec_readByte (s : State) :
    exec .readByte s = .next { s with
      engine := (s.engine.readByte s.config).2.give (.byte (s.engine.readByte s.config).1) } := rfl

theorem exec_writeByte (v : Byte) (s : State) :
    exec (.writeByte v) s = .next { s with engine := s.engine.writeByte s.config v } := rfl

theorem exec_writeByteWithCrc8 (v crc : Byte) (s : State) :
    exec (.writeByteWithCrc8 v crc) s = .next { s with
      engine := (s.engine.writeByteWithCrc8 s.config v crc).2.give
        (.byte (s.engine.writeByteWithCrc8 s.config v crc).1) } := rfl

/-- Settles O17: the two outcomes of a poll, and the rows' own refusal and trace entry. -/
theorem waitsAreBoundedBySamples : Obligations.WaitsAreBoundedBySamples := by
  refine ⟨fun s level n j ds hj hd => ?_, fun s level n ds hn hd => ?_, fun s level => rfl, fun s d => rfl⟩
  · rw [exec_poll level (by omega), Engine.poll_hit hj hd]
    rfl
  · rw [exec_poll level hn, Engine.poll_timeout hd]
    rfl

section Slots
variable {c : Config} {e : Engine} {ds start : List Bit} {b : Bit} {j k : Nat}

/-! ### `read_bit` -/

/-- The sample is 1: the slot is over (R195). -/
theorem Engine.sampleSlot_one (hd : e.draws = true :: ds) :
    e.sampleSlot c = (true, { e with draws := ds, trace := seen [.delay .sample, .sample true] e.trace }) := by
  have hp := Engine.pin_scripted (e := e.delay .sample) hd
  simp only [Engine.sampleSlot, hp, if_true]
  rfl

/-- The sample is 0: the release poll is next (R195). -/
theorem Engine.sampleSlot_zero (hd : e.draws = false :: ds) :
    e.sampleSlot c =
      let q := { e with draws := ds, trace := seen [.delay .sample, .sample false] e.trace }.poll true c.nRdRelease
      if q.1 then (false, q.2) else (false, q.2.deadlineMiss .rdRelease) := by
  have hp := Engine.pin_scripted (e := e.delay .sample) hd
  simp only [Engine.sampleSlot, hp, Bool.false_eq_true, if_false]
  rfl

/-- A 0 released in time (R195). -/
theorem Engine.sampleSlot_released (hk : k < c.nRdRelease)
    (hd : e.draws = false :: List.replicate k false ++ true :: ds) :
    e.sampleSlot c = (false, { e with
      draws := ds
      trace := seen ([.delay .sample, .sample false] ++ List.replicate k (.sample false)
        ++ [.sample true]) e.trace }) := by
  rw [Engine.sampleSlot_zero hd, Engine.poll_hit hk rfl, if_pos rfl]
  simp [seen]

/-- A 0 that is not released in time (R195, D14). -/
theorem Engine.sampleSlot_stuck (hd : e.draws = false :: List.replicate c.nRdRelease false ++ ds) :
    e.sampleSlot c = (false, { e with
      draws := ds, error := true
      trace := seen ([.delay .sample, .sample false] ++ List.replicate c.nRdRelease (.sample false)
        ++ [.fault .rdRelease]) e.trace }) := by
  rw [Engine.sampleSlot_zero hd, Engine.poll_timeout rfl, if_neg Bool.false_ne_true]
  simp [seen, Engine.deadlineMiss, Engine.emit]

/-- What the samples before the data sample of a read slot may be: none in the first slot of a frame, and otherwise
fewer than `N_RD_START` highs and the low (R193, R195). -/
def Engine.SlotStart (c : Config) (start : List Bit) (e : Engine) : Prop :=
  (e.slotStarted = true → start = []) ∧
  (e.slotStarted = false → ∃ j, j < c.nRdStart ∧ start = List.replicate j true ++ [false])

/-- A slot that starts in time is sampled, with `slot_started` = 0 (R195). -/
theorem Engine.readBit_started (he : e.error = false) (hs : e.SlotStart c start) (hd : e.draws = start ++ ds) :
    e.readBit c = Engine.sampleSlot c (e.afterSlots ds (start.map TraceEntry.sample)) := by
  obtain ⟨hfirst, hlater⟩ := hs
  cases hslot : e.slotStarted with
  | true =>
    obtain rfl := hfirst hslot
    obtain rfl : e.draws = ds := hd
    exact Engine.readBit_first c he hslot
  | false =>
    obtain ⟨j, hj, rfl⟩ := hlater hslot
    have hp := Engine.poll_hit (level := false) (e := e) (ds := ds) hj (by simpa using hd)
    rw [Engine.readBit_later c he hslot, hp, if_pos rfl]
    simp [Engine.afterSlots, hslot, seen]

/-- A later slot whose start does not come (R195). -/
theorem Engine.readBit_noStart (he : e.error = false) (hs : e.slotStarted = false)
    (hd : e.draws = List.replicate c.nRdStart true ++ ds) :
    e.readBit c = (false, { e with
      draws := ds, error := true
      trace := seen (List.replicate c.nRdStart (.sample true) ++ [.fault .rdStart]) e.trace }) := by
  rw [Engine.readBit_later c he hs, Engine.poll_timeout hd, if_neg Bool.false_ne_true]
  simp [seen, Engine.deadlineMiss, Engine.emit]

/-- The environment starts each slot at the first sample (R122). -/
theorem Engine.slotStart_wellBehaved (hc : ConfigFacts c) (e : Engine) :
    e.SlotStart c (if e.slotStarted then [] else [false]) :=
  ⟨fun h => if_pos h, fun h => ⟨0, hc.rdStart, if_neg (by simp [h])⟩⟩

/-- A read slot that misses its deadline: the bit is 0 and `error` is set (R195, D14). The first slot of a frame has no
start to miss. -/
theorem Engine.readBit_missed {site : FaultSite} (hc : ConfigFacts c) (he : e.error = false)
    (hsite : site = .rdStart ∨ site = .rdRelease) (hfirst : site = .rdStart → e.slotStarted = false)
    (hd : e.draws = missDraws c e.slotStarted site ++ ds) :
    e.readBit c = (false, { e.afterSlots ds (missTrace c e.slotStarted false site) with error := true }) := by
  obtain rfl | rfl := hsite
  · rw [Engine.readBit_noStart he (hfirst rfl) hd]
    simp [Engine.afterSlots, hfirst rfl, missTrace]
  · have hstart : e.draws = (if e.slotStarted then [] else [false])
        ++ (false :: List.replicate c.nRdRelease false ++ ds) := by
      rw [hd, missDraws, List.append_assoc]
    rw [Engine.readBit_started he (e.slotStart_wellBehaved hc) hstart, Engine.sampleSlot_stuck rfl]
    cases hslot : e.slotStarted <;> simp [Engine.afterSlots, missTrace, seen]

/-! ### `write_bit` -/

/-- The part of `write_bit` between its two polls: a 0 sinks the line, the hold, the release (R198). -/
def Engine.holdBit (b : Bit) (e : Engine) : Engine :=
  ((if b then e else e.drive true).delay .txHold).drive false

theorem Engine.holdBit_eq (b : Bit) (e : Engine) : e.holdBit b = { e with
    lineDdr := false
    trace := seen ((if b then [] else [.drive true]) ++ [.delay .txHold, .drive false]) e.trace } := by
  cases b <;> rfl

/-- A slot that starts in time is held and then released (R198). -/
theorem Engine.writeBit_started (he : e.error = false) (hj : j < c.nWrStart)
    (hd : e.draws = List.replicate j true ++ false :: ds) :
    e.writeBit c b =
      let q := Engine.poll true c.nWrRelease (Engine.holdBit b { e with
        draws := ds, trace := seen (List.replicate j (.sample true) ++ [.sample false]) e.trace })
      if q.1 then q.2 else q.2.deadlineMiss .wrRelease := by
  have hp := Engine.poll_hit (level := false) (e := e) hj hd
  rw [Engine.writeBit, if_neg (by simp [he]), hp, if_pos rfl]
  simp [Engine.holdBit, seen]

/-- A slot that starts and is released in time (R198). -/
theorem Engine.writeBit_released (he : e.error = false) (hj : j < c.nWrStart) (hk : k < c.nWrRelease)
    (hd : e.draws = List.replicate j true ++ false :: List.replicate k false ++ true :: ds) :
    e.writeBit c b = { e with
      lineDdr := false, draws := ds
      trace := seen (List.replicate j (.sample true) ++ .sample false :: (if b then [] else [.drive true])
        ++ [.delay .txHold, .drive false] ++ List.replicate k (.sample false) ++ [.sample true]) e.trace } := by
  rw [Engine.writeBit_started he hj (by simpa using hd), Engine.holdBit_eq, Engine.poll_hit hk rfl, if_pos rfl]
  simp [seen]

/-- A slot that is not released in time: the line is left released (R198 b). -/
theorem Engine.writeBit_stuck (he : e.error = false) (hj : j < c.nWrStart)
    (hd : e.draws = List.replicate j true ++ false :: List.replicate c.nWrRelease false ++ ds) :
    e.writeBit c b = { e with
      lineDdr := false, draws := ds, error := true
      trace := seen (List.replicate j (.sample true) ++ .sample false :: (if b then [] else [.drive true])
        ++ [.delay .txHold, .drive false] ++ List.replicate c.nWrRelease (.sample false)
        ++ [.fault .wrRelease]) e.trace } := by
  rw [Engine.writeBit_started he hj (by simpa using hd), Engine.holdBit_eq, Engine.poll_timeout rfl,
    if_neg Bool.false_ne_true]
  simp [seen, Engine.deadlineMiss, Engine.emit]

/-- A slot whose start does not come: the line is never driven (R198). -/
theorem Engine.writeBit_noStart (he : e.error = false) (hd : e.draws = List.replicate c.nWrStart true ++ ds) :
    e.writeBit c b = { e with
      draws := ds, error := true
      trace := seen (List.replicate c.nWrStart (.sample true) ++ [.fault .wrStart]) e.trace } := by
  rw [Engine.writeBit, if_neg (by simp [he]), Engine.poll_timeout hd, if_neg Bool.false_ne_true]
  simp [seen, Engine.deadlineMiss, Engine.emit]

/-- An engine after slots it has written: the draws left are `ds`, and the slots added `tr` to the trace. -/
def Engine.afterWritten (ds : List Bit) (tr : List TraceEntry) (e : Engine) : Engine :=
  { e with lineDdr := false, draws := ds, trace := seen tr e.trace }

/-- A well-behaved slot carries the bit sent (R122, R198). -/
theorem Engine.writeBit_wellBehaved (hc : ConfigFacts c) (he : e.error = false)
    (hd : e.draws = writeBitDraws ++ ds) :
    e.writeBit c b = e.afterWritten ds (writeBitTrace b) := by
  rw [Engine.writeBit_released (j := 0) (k := 0) he hc.wrStart hc.wrRelease hd]
  simp [Engine.afterWritten, writeBitTrace]

end Slots

/-! ### The obligations on bits -/

/-- Settles O18: a slot that starts in time and its three endings, and a slot that does not start. -/
theorem readBitFollowsTheSlot : Obligations.ReadBitFollowsTheSlot := by
  refine ⟨fun s start ds he hfirst hlater => ⟨fun hd => ?_, fun k hk hd => ?_, fun hd => ?_⟩,
    fun s ds he hs hd => ?_⟩
  · rw [exec_readBit, Engine.readBit_started he ⟨hfirst, hlater⟩ hd, Engine.sampleSlot_one rfl]
    simp only [seen_append]
    rfl
  · have hd' : s.engine.draws = start ++ (false :: List.replicate k false ++ true :: ds) := by simpa using hd
    rw [exec_readBit, Engine.readBit_started he ⟨hfirst, hlater⟩ hd', Engine.sampleSlot_released hk rfl]
    simp only [seen_append]
    rfl
  · have hd' : s.engine.draws = start ++ (false :: List.replicate s.config.nRdRelease false ++ ds) := by simpa using hd
    rw [exec_readBit, Engine.readBit_started he ⟨hfirst, hlater⟩ hd', Engine.sampleSlot_stuck rfl]
    simp only [seen_append]
    rfl
  · rw [exec_readBit, Engine.readBit_noStart he hs hd]
    rfl

/-- Settles O19: the pending error, and the three endings of a slot. -/
theorem writeBitFollowsTheSlot : Obligations.WriteBitFollowsTheSlot := by
  refine ⟨fun s b he => ?_, fun s b j k ds he hj hk hd => ?_, fun s b j ds he hj hd => ?_, fun s b ds he hd => ?_⟩
  · rw [exec_writeBit, Engine.writeBit_of_error _ _ he]
  · rw [exec_writeBit, Engine.writeBit_released he hj hk hd]
  · rw [exec_writeBit, Engine.writeBit_stuck he hj hd]
  · rw [exec_writeBit, Engine.writeBit_noStart he hd]

end Sys2Proof.Machine
end

section
/-! Proofs for 41_bit_byte_io.md, part 2: bytes, and the line left released. -/

namespace Sys2Proof.Machine

/-! ### Reading a byte -/

/-- A 0 leaves the accumulator of `read_byte` as it is (R200). -/
@[simp] theorem putBit_false (acc : Byte) (i : Nat) : putBit acc i false = acc := by simp [putBit]

/-- The first `n` bits of a byte make the byte modulo `2 ^ n` (R200 a). -/
theorem putBits_take_byteSlots (v : Byte) (n : Nat) :
    putBits 0 0x00#8 ((byteSlots v).take n) = BitVec.ofNat 8 (v.toNat % 2 ^ n) := by
  refine BitVec.eq_of_getLsbD_eq fun j hj => ?_
  have hbit : ((byteSlots v).take n).getD j false = (decide (j < n) && v.getLsbD j) := by
    rw [← getD_byteSlots v hj]
    by_cases hn : j < n <;> simp [List.getD_eq_getElem?_getD, hn]
  have hmod : (BitVec.ofNat 8 (v.toNat % 2 ^ n)).getLsbD j = (decide (j < n) && v.getLsbD j) := by
    rw [BitVec.getLsbD_ofNat, Nat.testBit_mod_two_pow, BitVec.testBit_toNat]
    simp [hj]
  rw [getLsbD_putBits _ _ _ hj, Nat.sub_zero, hbit, hmod]
  simp

/-- With an error pending the first round ends the loop (R192, D15). -/
theorem Engine.readBits_of_error (c : Config) (n i : Nat) (acc : Byte) {e : Engine} (he : e.error = true) :
    e.readBits c n i acc = (acc, e) := by
  cases n with
  | zero => rfl
  | succ n => rw [Engine.readBits_succ, Engine.readBit_of_error c he, if_pos he, putBit_false]

/-- Well-behaved slots and then one that misses its deadline: the bits before it are kept, and the loop ends
(R200 a). -/
theorem Engine.readBits_missed {c : Config} {e : Engine} {ds : List Bit} {site : FaultSite} (hc : ConfigFacts c)
    (he : e.error = false) (hsite : site = .rdStart ∨ site = .rdRelease) (bs : List Bit)
    (hfirst : site = .rdStart → e.slotStarted = true → bs ≠ [])
    (hd : e.draws = bitsDraws e.slotStarted bs ++ missDraws c (e.slotStarted && bs.isEmpty) site ++ ds)
    (m i : Nat) (acc : Byte) :
    e.readBits c (bs.length + (m + 1)) i acc =
      (putBits i acc bs, { e.afterSlots ds (bitsTrace e.slotStarted bs
        ++ missTrace c (e.slotStarted && bs.isEmpty) false site) with error := true }) := by
  induction bs generalizing e i acc with
  | nil =>
    have hstart : site = .rdStart → e.slotStarted = false := fun h =>
      Bool.eq_false_iff.mpr fun hslot => hfirst h hslot rfl
    have hmiss : e.draws = missDraws c e.slotStarted site ++ ds := by simpa [bitsDraws] using hd
    rw [List.length_nil, Nat.zero_add, Engine.readBits_succ, Engine.readBit_missed hc he hsite hstart hmiss,
      if_pos rfl, putBit_false]
    simp [putBits, bitsTrace]
  | cons b bs ih =>
    have hslot : e.draws = readBitDraws e.slotStarted b ++ (bitsDraws false bs ++ missDraws c false site ++ ds) := by
      simpa [bitsDraws] using hd
    have hlen : (b :: bs).length + (m + 1) = bs.length + (m + 1) + 1 := by rw [List.length_cons]; omega
    have hrest := ih (e := e.afterSlots (bitsDraws false bs ++ missDraws c false site ++ ds)
      (readBitTrace e.slotStarted b)) he nofun rfl (i + 1) (putBit acc i b)
    rw [hlen, Engine.readBits_slot hc he rfl hslot, hrest]
    simp [Engine.afterSlots, bitsTrace, seen_append, putBits]

/-- Settles O21: the byte that the slots carry. -/
theorem readByteAssemblesLsbFirst : Obligations.ReadByteAssemblesLsbFirst := by
  intro s v ds hconfig he hd
  rw [exec_readByte, Engine.readByte_wellBehaved (configValid_facts hconfig) he rfl hd]
  rfl

/-- Settles O22: the loop over the `n` bits before the missed slot, and the byte they make. -/
theorem readByteStopsAtAMissedSlot : Obligations.ReadByteStopsAtAMissedSlot := by
  intro s v n site ds hconfig he hn hsite hfirst hd
  have hlen : ((byteSlots v).take n).length = n := List.length_take_of_le hn.le
  have hempty : ((byteSlots v).take n).isEmpty = (n == 0) := by cases n <;> rfl
  have hbits : site = .rdStart → s.engine.slotStarted = true → (byteSlots v).take n ≠ [] := fun h hslot =>
    List.ne_nil_of_length_pos (by rw [hlen]; exact hfirst h hslot)
  rw [← hempty] at hd ⊢
  have hread := Engine.readBits_missed (configValid_facts hconfig) he hsite _ hbits hd (7 - n) 0 0x00#8
  rw [hlen, show n + (7 - n + 1) = 8 by omega, putBits_take_byteSlots] at hread
  rw [exec_readByte, Engine.readByte, hread]
  rfl

/-! ### Writing a byte -/

/-- With an error pending nothing is sent (R192). -/
theorem Engine.writeBits_of_error (c : Config) (v : Byte) (n i : Nat) {e : Engine} (he : e.error = true) :
    e.writeBits c v n i = e := by
  cases n with
  | zero => rfl
  | succ n => rw [Engine.writeBits_succ, Engine.writeBit_of_error c _ he, if_pos he]

/-- One round of `sendBits`: the row `write_bit` always answers a next state. -/
theorem sendBits_cons (b : Bit) (bs : List Bit) (s : State) :
    sendBits (b :: bs) s =
      if (s.engine.writeBit s.config b).error then .next { s with engine := s.engine.writeBit s.config b }
      else sendBits bs { s with engine := s.engine.writeBit s.config b } := rfl

/-- The loop of `write_byte` is `write_bit` of its bits, until `error` is set (R202). -/
theorem sendBits_takeBits (v : Byte) (n i : Nat) (s : State) :
    sendBits ((List.range' i n).map (takeBit v)) s = .next { s with engine := s.engine.writeBits s.config v n i } := by
  induction n generalizing i s with
  | zero => rfl
  | succ n ih =>
    rw [List.range'_succ, List.map_cons, sendBits_cons, ih, Engine.writeBits_succ]
    split <;> rfl

/-- Settles O23: the slots of a byte are its bits 0 to 7. -/
theorem writeByteSendsLsbFirst : Obligations.WriteByteSendsLsbFirst := fun s v =>
  ⟨_, rfl, sendBits_takeBits v 8 0 s⟩

/-- Settles O24, by induction on the bits sent. -/
theorem sentBitsAppearOnTheLine : Obligations.SentBitsAppearOnTheLine := by
  intro s bs ds hconfig he hline hd
  induction bs generalizing s with
  | nil =>
    obtain rfl : s.engine.draws = ds := hd
    rfl
  | cons b bs ih =>
    have hslot : s.engine.draws = writeBitDraws ++ (writtenDraws bs ++ ds) := hd
    have hsent := Engine.writeBit_wellBehaved (b := b) (configValid_facts hconfig) he hslot
    have hrest := ih { s with engine := s.engine.afterWritten (writtenDraws bs ++ ds) (writeBitTrace b) }
      hconfig he rfl rfl
    rw [sendBits_cons, hsent, if_neg (by simp [Engine.afterWritten, he]), hrest]
    simp [Engine.afterWritten, writtenTrace, seen_append, hline]

/-- Settles O25: the engine after `write_byte_with_crc8` is that of `write_byte`, and the CRC is chosen by its
`error`. -/
theorem writeByteWithCrc8FoldsTheCrc : Obligations.WriteByteWithCrc8FoldsTheCrc := by
  refine fun s v crc => ⟨_, exec_writeByte v s, ?_⟩
  rw [exec_writeByteWithCrc8, Engine.writeByteWithCrc8]
  dsimp only
  split <;> rfl

/-! ### Rules of every framing row -/

/-- Settles O20: the first bit of each operation finds the error. -/
theorem stickyErrorMakesFramingANoOp : Obligations.StickyErrorMakesFramingANoOp := by
  intro s b v crc he
  have hread := Engine.readBits_of_error s.config 8 0 0x00#8 he
  have hwrite := Engine.writeBits_of_error s.config v 8 0 he
  refine ⟨?_, ?_, ?_, ?_, ?_⟩
  · rw [exec_readBit, Engine.readBit_of_error _ he]
    rfl
  · rw [exec_writeBit, Engine.writeBit_of_error _ _ he]
  · rw [exec_readByte, Engine.readByte, hread]
    rfl
  · rw [exec_writeByte, Engine.writeByte, hwrite]
  · rw [exec_writeByteWithCrc8, Engine.writeByteWithCrc8, Engine.writeByte, hwrite]
    dsimp only
    rw [if_pos he]
    rfl

/-! ### The line -/

section Line
variable {c : Config} {e : Engine}

theorem Engine.pinIdle_line (c : Config) (e : Engine) : (e.pinIdle c).lineDdr = e.lineDdr := by
  unfold Engine.pinIdle
  dsimp only
  split <;> exact e.pin_line

theorem Engine.pinResetMin_line (e : Engine) : e.pinResetMin.lineDdr = e.lineDdr := by
  unfold Engine.pinResetMin
  dsimp only
  split <;> exact e.pin_line

/-- The end of the presence pulse releases the line on both ways out (R153). -/
theorem Engine.expiryPresence_line (c : Config) (e : Engine) : (e.expiryPresence c).lineDdr = false := by
  unfold Engine.expiryPresence
  dsimp only
  split <;> exact Engine.poll_line true c.nPresenceRelease (e.drive false)

theorem Engine.expiryFirstSignal_line (c : Config) (e : Engine) : (e.expiryFirstSignal c).lineDdr = e.lineDdr := by
  unfold Engine.expiryFirstSignal
  dsimp only
  split <;> rfl

theorem expiryRow_line (st : Stage) (h : e.lineDdr = false) : (rowEffect (expiryRow st) c e).lineDdr = false := by
  cases st with
  | presencePulseOn => exact e.expiryPresence_line c
  | waitingFirstSignal => exact (e.expiryFirstSignal_line c).trans h
  | _ => exact h

theorem Engine.softTimerTick_line (h : e.lineDdr = false) : (e.softTimerTick c).lineDdr = false := by
  obtain heq | ⟨n, -, heq⟩ | heq := e.softTimerTick_cases c <;> rw [heq]
  · exact h
  · exact h
  · exact expiryRow_line (e := e.expired) e.stage h

/-- A released line stays released through every row but the PIN that starts the presence pulse (R51, R206). -/
theorem rowEffect_line {i : Instr} (hi : i ≠ .pinResetMax) (h : e.lineDdr = false) :
    (rowEffect i c e).lineDdr = false := by
  cases i with
  | search => exact Engine.searchFrom_line c 64 0 e h
  | alarmSearch => exact Engine.alarmSearch_line c e h
  | readRom => exact Engine.readRomFrom_line c 8 0 e h
  | matchRom => exact Engine.matchRomFrom_line c 8 0 e h
  | skip | callback => exact Engine.callback_line c e h
  | tick => exact Engine.softTimerTick_line h
  | pinIdle => exact (e.pinIdle_line c).trans h
  | pinResetMin => exact e.pinResetMin_line.trans h
  | pinResetMax => exact absurd rfl hi
  | pinFirstSignalFrame => exact Engine.frame_line c e.frameStart h
  | expiryPresence => exact e.expiryPresence_line c
  | expiryFirstSignal => exact (e.expiryFirstSignal_line c).trans h
  | frame => exact Engine.frame_line c e h
  | poll level n => exact (e.poll_line level n).trans h
  | readBit => exact (e.readBit_line c).trans h
  | writeBit b => exact Engine.writeBit_line c b e h
  | readByte => exact (e.readByte_line c).trans h
  | writeByte v => exact Engine.writeByte_line c v e h
  | writeByteWithCrc8 v crc =>
    have hcrc := Engine.writeByteWithCrc8_engine c v crc e
    exact (congrArg Engine.lineDdr hcrc).trans (Engine.writeByte_line c v e h)
  | init => rfl
  | _ => exact h

end Line

/-- Settles O55: a row is its operation on the engine in focus. -/
theorem onlyPresenceLeavesTheLineSunk : Obligations.OnlyPresenceLeavesTheLineSunk := by
  intro i s t hi hline h
  obtain ⟨-, rfl⟩ := exec_eq_next_iff.mp h
  exact rowEffect_line hi hline

end Sys2Proof.Machine
end

section
/-! Proofs for 42_rom_commands.md, part 1: SEARCH, ALARM SEARCH, SKIP and the ignored bytes. -/

namespace Sys2Proof.Machine

/-! ### The rows, one equation each -/

theorem exec_search (s : State) :
    exec .search s = .next { s with engine := s.engine.search s.config } := rfl

theorem exec_alarmSearch (s : State) :
    exec .alarmSearch s = .next { s with engine := s.engine.alarmSearch s.config } := rfl

theorem exec_callback (s : State) :
    exec .callback s = .next { s with engine := s.engine.callback s.config } := rfl

/-- SKIP is the callback and nothing else (R235). -/
theorem exec_skip (s : State) : exec .skip s = exec .callback s := rfl

/-- With `alarm` = 0 ALARM SEARCH does nothing (R232). -/
theorem exec_alarmSearch_of_off {s : State} (h : s.engine.alarm = false) : exec .alarmSearch s = .next s := by
  rw [exec_alarmSearch, Engine.alarmSearch, if_neg (by simp [h])]
  rfl

/-- With `alarm` = 1 ALARM SEARCH is SEARCH (R232). -/
theorem exec_alarmSearch_of_on {s : State} (h : s.engine.alarm = true) : exec .alarmSearch s = exec .search s := by
  rw [exec_alarmSearch, Engine.alarmSearch, if_pos h, exec_search]

/-- Settles O33: SKIP is the callback, which records one CALLBACK entry. -/
theorem skipRunsTheCallbackOnce : Obligations.SkipRunsTheCallbackOnce := fun s =>
  ⟨_, (exec_skip s).trans (exec_callback s), exec_callback s, Engine.callback_count s.config s.engine⟩

/-- Settles O30: `alarm` chooses between the search and nothing. -/
theorem alarmGatesTheSearch : Obligations.AlarmGatesTheSearch := fun s =>
  ⟨fun h => ⟨_, (exec_alarmSearch_of_on h).trans (exec_search s), exec_search s⟩, exec_alarmSearch_of_off⟩

/-- Settles O35: a byte outside the named five is IGNORED, which does nothing, and 0xEC is ALARM SEARCH. -/
theorem unknownCommandsAreIgnored : Obligations.UnknownCommandsAreIgnored := by
  have hec : decodeByte 0xEC#8 = .alarmSearch := by decide
  refine ⟨fun b => decodeByte_of_not_named, fun s c => rfl, fun s h => ?_⟩
  rw [hec]
  exact exec_alarmSearch_of_off h

/-! ### One triple -/

section Triples
variable {c : Config} {e : Engine} {ds : List Bit} {b sel : Bit} {site : FaultSite}

/-- Two well-behaved slots in a row carry the two bits sent (R122, R198). -/
theorem Engine.writeBit_pair_wellBehaved {b' : Bit} (hc : ConfigFacts c) (he : e.error = false)
    (hd : e.draws = writtenDraws [b, b'] ++ ds) :
    (e.writeBit c b).writeBit c b' = e.afterWritten ds (writtenTrace [b, b']) := by
  have hfirst : e.writeBit c b = e.afterWritten (writeBitDraws ++ ds) (writeBitTrace b) :=
    Engine.writeBit_wellBehaved hc he hd
  have hsecond : (e.writeBit c b).draws = writeBitDraws ++ ds := by rw [hfirst]; rfl
  rw [Engine.writeBit_wellBehaved hc (by rw [hfirst]; exact he) hsecond, hfirst]
  simp [Engine.afterWritten, writtenTrace, seen_append]

/-- A triple of well-behaved slots: bit and complement are sent, and the selection is what the master sent (R231). -/
theorem Engine.searchTriple_wellBehaved (hc : ConfigFacts c) (he : e.error = false) (hs : e.slotStarted = false)
    (hd : e.draws = searchDraws [sel] ++ ds) :
    e.searchTriple c b = (sel, e.afterWritten ds (searchTrace [(b, sel)])) := by
  have hsent : (e.writeBit c b).writeBit c (!b) =
      e.afterWritten (readBitDraws false sel ++ ds) (writtenTrace [b, !b]) :=
    Engine.writeBit_pair_wellBehaved hc he (by simpa [searchDraws, writtenDraws] using hd)
  have hread := Engine.readBit_wellBehaved (b := sel) (ds := ds)
    (e := e.afterWritten (readBitDraws false sel ++ ds) (writtenTrace [b, !b])) hc he hs rfl
  rw [Engine.searchTriple, hsent, hread]
  simp [Engine.afterSlots, Engine.afterWritten, searchTrace, writtenTrace, seen_append, hs]

/-- An engine whose slot missed its deadline: the draws left are `ds`, and what led up to the miss added `tr` to the
trace. -/
def Engine.afterMiss (ds : List Bit) (tr : List TraceEntry) (e : Engine) : Engine :=
  { e with draws := ds, error := true, trace := seen tr e.trace }

/-- A written slot that misses its start or its release leaves the line released (R198). -/
theorem Engine.writeBit_missed (hc : ConfigFacts c) (he : e.error = false) (hline : e.lineDdr = false)
    (hsite : site = .wrStart ∨ site = .wrRelease) (hd : e.draws = missDraws c false site ++ ds) :
    e.writeBit c b = e.afterMiss ds (missTrace c false b site) := by
  obtain rfl | rfl := hsite
  · exact Engine.writeBit_noStart he hd
  · rw [Engine.writeBit_stuck (j := 0) he hc.wrStart hd]
    simp [Engine.afterMiss, missTrace, hline]

/-- After a miss in slot `p` of a triple (0 the bit, 1 its complement, 2 the selection) the slots after it are silent
(R192, R231). -/
theorem Engine.searchTriple_missed (hc : ConfigFacts c) (he : e.error = false) (hs : e.slotStarted = false)
    (hline : e.lineDdr = false) {p : Nat}
    (hp : p < 2 ∧ (site = .wrStart ∨ site = .wrRelease) ∨ p = 2 ∧ (site = .rdStart ∨ site = .rdRelease))
    (hd : e.draws = writtenDraws ([b, !b].take p) ++ missDraws c false site ++ ds) :
    (e.searchTriple c b).2 = e.afterMiss ds
      (writtenTrace ([b, !b].take p) ++ missTrace c false (if p = 0 then b else !b) site) := by
  obtain ⟨hlt, hsite⟩ | ⟨rfl, hsite⟩ := hp
  · obtain rfl | rfl : p = 0 ∨ p = 1 := by omega
    · rw [Engine.searchTriple, Engine.writeBit_missed hc he hline hsite hd, Engine.writeBit_of_error c _ rfl,
        Engine.readBit_of_error c rfl]
      rfl
    · have hsent : e.writeBit c b = e.afterWritten (missDraws c false site ++ ds) (writeBitTrace b) :=
        Engine.writeBit_wellBehaved hc he hd
      have hmiss : (e.writeBit c b).draws = missDraws c false site ++ ds := by rw [hsent]; rfl
      rw [Engine.searchTriple, Engine.writeBit_missed hc (by rw [hsent]; exact he) (by rw [hsent]; rfl) hsite hmiss,
        Engine.readBit_of_error c rfl, hsent]
      simp [Engine.afterMiss, Engine.afterWritten, writtenTrace, seen_append, hline]
  · have hsent : (e.writeBit c b).writeBit c (!b) =
        e.afterWritten (missDraws c false site ++ ds) (writtenTrace [b, !b]) :=
      Engine.writeBit_pair_wellBehaved hc he (by simpa using hd)
    have hread := Engine.readBit_missed (ds := ds)
      (e := e.afterWritten (missDraws c false site ++ ds) (writtenTrace [b, !b]))
      hc he hsite (fun _ => hs) (by simp [Engine.afterWritten, hs])
    have htrace : missTrace c false (!b) site = missTrace c false false site := by
      obtain rfl | rfl := hsite <;> rfl
    rw [Engine.searchTriple, hsent, hread]
    simp [Engine.afterSlots, Engine.afterMiss, Engine.afterWritten, seen_append, hs, hline, htrace]

/-! ### Triples one after another -/

/-- Identifier bits `k` to `k + n - 1`. -/
def idBitsFrom (m : Memory) (k n : Nat) : List Bit := (List.range' k n).map (idBit m)

theorem idBits_eq_idBitsFrom (m : Memory) (n : Nat) : idBits m n = idBitsFrom m 0 n := by
  rw [idBits, idBitsFrom, List.range_eq_range']

theorem idBitsFrom_succ (m : Memory) (k n : Nat) : idBitsFrom m k (n + 1) = idBit m k :: idBitsFrom m (k + 1) n := rfl

theorem idBitsFrom_append (m : Memory) (k n n' : Nat) :
    idBitsFrom m k n ++ idBitsFrom m (k + n) n' = idBitsFrom m k (n + n') := by
  rw [idBitsFrom, idBitsFrom, idBitsFrom, ← List.map_append, List.range'_append_1]

theorem searchDraws_append (sels sels' : List Bit) :
    searchDraws (sels ++ sels') = searchDraws sels ++ searchDraws sels' := List.flatMap_append

theorem searchTrace_append (ps ps' : List (Bit × Bit)) :
    searchTrace (ps ++ ps') = searchTrace ps ++ searchTrace ps' := List.flatMap_append

/-- An engine after the triples of identifier bits `k` to `k + n - 1`, the master agreeing in all: the first one that
there is releases the line. -/
def Engine.afterAgreed (k n : Nat) (ds : List Bit) (e : Engine) : Engine :=
  { e with
    lineDdr := e.lineDdr && n == 0, draws := ds
    trace := seen (searchTrace ((idBitsFrom e.store k n).zip (idBitsFrom e.store k n))) e.trace }

/-- SEARCH goes on as long as the selections agree (R231, R237). -/
theorem Engine.searchFrom_agreed (hc : ConfigFacts c) (he : e.error = false) (hs : e.slotStarted = false) (n m k : Nat)
    (hd : e.draws = searchDraws (idBitsFrom e.store k n) ++ ds) :
    e.searchFrom c (n + m) k = (e.afterAgreed k n ds).searchFrom c m (k + n) := by
  induction n generalizing e k with
  | zero =>
    obtain rfl : e.draws = ds := hd
    simp [Engine.afterAgreed, idBitsFrom, searchTrace, seen]
  | succ n ih =>
    have hfirst : e.draws = searchDraws [idBit e.store k] ++ (searchDraws (idBitsFrom e.store (k + 1) n) ++ ds) := by
      rw [hd, idBitsFrom_succ, ← List.append_assoc, ← searchDraws_append, List.singleton_append]
    have htriple := Engine.searchTriple_wellBehaved (b := idBit e.store k) hc he hs hfirst
    have hrest := ih (e := e.afterWritten (searchDraws (idBitsFrom e.store (k + 1) n) ++ ds)
      (searchTrace [(idBit e.store k, idBit e.store k)])) he hs (k + 1) rfl
    rw [Nat.add_right_comm, Engine.searchFrom_succ, htriple, if_neg (by simp [Engine.afterWritten, he]),
      if_neg (not_not_intro rfl), hrest, Nat.add_right_comm, Nat.add_assoc k]
    simp [Engine.afterAgreed, Engine.afterWritten, idBitsFrom_succ, ← seen_append, ← searchTrace_append]

/-- SEARCH that reaches the triple of identifier bit `j`, the master having agreed until then. -/
theorem Engine.search_reaches (hc : ConfigFacts c) (he : e.error = false) (hs : e.slotStarted = false) {j : Nat}
    (hj : j < 64) (hd : e.draws = searchDraws (idBits e.store j) ++ ds) :
    e.search c = (e.afterAgreed 0 j ds).searchFrom c (63 - j + 1) j := by
  rw [idBits_eq_idBitsFrom] at hd
  have hagreed := Engine.searchFrom_agreed hc he hs j (63 - j + 1) 0 hd
  rwa [Nat.zero_add, show j + (63 - j + 1) = 64 by omega] at hagreed

/-- A selection that disagrees ends the search after its triple (R231, R237). -/
theorem Engine.searchFrom_dropsOut (hc : ConfigFacts c) (he : e.error = false) (hs : e.slotStarted = false) (n k : Nat)
    (hd : e.draws = searchDraws [!idBit e.store k] ++ ds) :
    e.searchFrom c (n + 1) k = e.afterWritten ds (searchTrace [(idBit e.store k, !idBit e.store k)]) := by
  rw [Engine.searchFrom_succ, Engine.searchTriple_wellBehaved hc he hs hd,
    if_neg (by simp [Engine.afterWritten, he]), if_pos (by simp)]

/-- A deadline missed in a slot of the triple ends the search, whatever the selection would have been (R231). -/
theorem Engine.searchFrom_missed (hc : ConfigFacts c) (he : e.error = false) (hs : e.slotStarted = false)
    (hline : e.lineDdr = false) (n k : Nat) {p : Nat}
    (hp : p < 2 ∧ (site = .wrStart ∨ site = .wrRelease) ∨ p = 2 ∧ (site = .rdStart ∨ site = .rdRelease))
    (hd : e.draws = writtenDraws ([idBit e.store k, !idBit e.store k].take p) ++ missDraws c false site ++ ds) :
    e.searchFrom c (n + 1) k = e.afterMiss ds
      (writtenTrace ([idBit e.store k, !idBit e.store k].take p)
        ++ missTrace c false (if p = 0 then idBit e.store k else !idBit e.store k) site) := by
  have hmissed := Engine.searchTriple_missed hc he hs hline hp hd
  rw [Engine.searchFrom_succ, if_pos (by rw [hmissed]; rfl), hmissed]

end Triples

/-! ### The obligations on SEARCH -/

/-- Settles O28: all 64 triples agree, or those before bit `j` do and the triple of bit `j` drops out. -/
theorem searchParticipatesInAPrefix : Obligations.SearchParticipatesInAPrefix := by
  intro s sels ds hconfig he hs hsels hd
  have hc := configValid_facts hconfig
  rw [exec_search]
  obtain rfl | ⟨j, hj, rfl⟩ := hsels
  · rw [idBits_eq_idBitsFrom] at hd ⊢
    have hall : s.engine.search s.config = s.engine.afterAgreed 0 64 ds := Engine.searchFrom_agreed hc he hs 64 0 0 hd
    simp [hall, Engine.afterAgreed]
  · rw [searchDraws_append, List.append_assoc] at hd
    have hzip : (idBits s.engine.store 64).zip (idBits s.engine.store j ++ [!idBit s.engine.store j]) =
        (idBits s.engine.store j).zip (idBits s.engine.store j)
          ++ [(idBit s.engine.store j, !idBit s.engine.store j)] := by
      rw [idBits_eq_idBitsFrom, idBits_eq_idBitsFrom, show 64 = j + (63 - j + 1) by omega, ← idBitsFrom_append,
        List.zip_append rfl, Nat.zero_add, idBitsFrom_succ]
      simp
    have hout := Engine.searchFrom_dropsOut (ds := ds)
      (e := s.engine.afterAgreed 0 j (searchDraws [!idBit s.engine.store j] ++ ds)) hc he hs (63 - j) j rfl
    rw [Engine.search_reaches hc he hs hj hd, hout, hzip, idBits_eq_idBitsFrom]
    simp [Engine.afterAgreed, Engine.afterWritten, searchTrace_append, seen_append]

/-- Settles O29: the triples before bit `j` agree, and a miss in the triple of bit `j` ends the search. -/
theorem searchAbortsOnAMissedDeadline : Obligations.SearchAbortsOnAMissedDeadline := by
  intro s j p site ds hconfig he hs hline hj hp hd
  have hc := configValid_facts hconfig
  obtain ⟨rest, hrest⟩ : ∃ rest, rest =
      writtenDraws ([idBit s.engine.store j, !idBit s.engine.store j].take p) ++ missDraws s.config false site ++ ds :=
    ⟨_, rfl⟩
  have hreach : s.engine.draws = searchDraws (idBits s.engine.store j) ++ rest := by simp [hd, hrest]
  have hend := Engine.searchFrom_missed (e := s.engine.afterAgreed 0 j rest) hc he hs
    (by simp [Engine.afterAgreed, hline]) (63 - j) j hp hrest
  rw [exec_search, Engine.search_reaches hc he hs hj hreach, hend, idBits_eq_idBitsFrom]
  simp [Engine.afterAgreed, Engine.afterMiss, seen_append, hline]

end Sys2Proof.Machine
end

section
/-! Proofs for 42_rom_commands.md, part 2: READ and MATCH. -/

namespace Sys2Proof.Machine

/-! ### READ -/

theorem exec_readRom (s : State) :
    exec .readRom s = .next { s with engine := s.engine.readRom s.config } := rfl

/-- With an error pending the first round ends the loop (R192, R233). -/
theorem Engine.readRomFrom_of_error (c : Config) (n k : Nat) {e : Engine} (he : e.error = true) :
    e.readRomFrom c n k = e := by
  cases n with
  | zero => rfl
  | succ n => rw [Engine.readRomFrom_succ, Engine.writeByte, Engine.writeBits_of_error c _ 8 0 he, if_pos he]

/-- One round of the READ loop without a branch: after an error the rounds to come do nothing (R233). -/
theorem Engine.readRomFrom_writeByte (c : Config) (n k : Nat) (e : Engine) :
    e.readRomFrom c (n + 1) k = (e.writeByte c (idByte e.store k)).readRomFrom c n (k + 1) := by
  rw [Engine.readRomFrom_succ]
  split
  · rename_i he
    exact (Engine.readRomFrom_of_error c n (k + 1) he).symm
  · rfl

theorem sendBits_of_error (bs : List Bit) {s : State} (he : s.engine.error = true) : sendBits bs s = .next s := by
  cases bs with
  | nil => rfl
  | cons b bs => rw [sendBits_cons, Engine.writeBit_of_error _ _ he, if_pos he]

/-- Bits sent in two parts: after an error the second part sends nothing. -/
theorem sendBits_append {as : List Bit} (bs : List Bit) {s t : State} (h : sendBits as s = .next t) :
    sendBits (as ++ bs) s = sendBits bs t := by
  induction as generalizing s with
  | nil =>
    obtain rfl : s = t := by simpa [sendBits] using h
    rfl
  | cons a as ih =>
    rw [sendBits_cons] at h
    rw [List.cons_append, sendBits_cons]
    split at h
    · rename_i he
      obtain rfl := Host.Outcome.next.inj h
      rw [if_pos he, sendBits_of_error bs he]
    · rename_i he
      rw [if_neg he, ih h]

/-- The eight identifier bits of byte `k` are the bits of that byte, least-significant first (R77). -/
theorem idBitsFrom_byte (m : Memory) (k : Nat) :
    idBitsFrom m (8 * k) 8 = (List.range' 0 8).map (takeBit (idByte m k)) := by
  rw [idBitsFrom, List.range'_eq_map_range, List.map_map, ← List.range_eq_range']
  exact List.map_congr_left fun j hj => idBit_eq_getLsbD m (List.mem_range.mp hj)

/-- READ of the bytes from byte `k` on is sending their bits (R233, D17). -/
theorem sendBits_idBitsFrom (n k : Nat) (s : State) :
    sendBits (idBitsFrom s.engine.store (8 * k) (8 * n)) s =
      .next { s with engine := s.engine.readRomFrom s.config n k } := by
  induction n generalizing k s with
  | zero => rfl
  | succ n ih =>
    have hbyte := sendBits_takeBits (idByte s.engine.store k) 8 0 s
    rw [← idBitsFrom_byte] at hbyte
    have hstore : (s.engine.writeByte s.config (idByte s.engine.store k)).store = s.engine.store :=
      (Engine.writeByte_io (P := False) _ _ _ False.elim).store
    have hrest := ih (k + 1) { s with engine := s.engine.writeByte s.config (idByte s.engine.store k) }
    rw [hstore] at hrest
    rw [Nat.mul_succ, Nat.add_comm, ← idBitsFrom_append, sendBits_append _ hbyte, Engine.readRomFrom_writeByte]
    exact hrest

/-- READ is sending the 64 identifier bits (R233). -/
theorem sendBits_idBits (s : State) : sendBits (idBits s.engine.store 64) s = exec .readRom s := by
  rw [idBits_eq_idBitsFrom, exec_readRom]
  exact sendBits_idBitsFrom 8 0 s

/-- Settles O31: READ is sending the bits, and well-behaved slots carry them. -/
theorem readSendsTheIdentifier : Obligations.ReadSendsTheIdentifier := by
  refine ⟨fun s => ⟨_, exec_readRom s, (sendBits_idBits s).trans (exec_readRom s)⟩,
    fun s ds hconfig he hline hd => ?_⟩
  rw [← sendBits_idBits]
  exact sentBitsAppearOnTheLine s _ ds hconfig he hline hd

/-! ### MATCH -/

theorem exec_matchRom (s : State) :
    exec .matchRom s = .next { s with engine := s.engine.matchRom s.config } := rfl

theorem bytesDraws_append (vs vs' : List Byte) : bytesDraws (vs ++ vs') = bytesDraws vs ++ bytesDraws vs' :=
  List.flatMap_append

theorem bytesTrace_append (vs vs' : List Byte) : bytesTrace (vs ++ vs') = bytesTrace vs ++ bytesTrace vs' :=
  List.flatMap_append

/-- The `n` bytes of an identifier store from byte `k` on. -/
def storeBytesFrom (m : Memory) (k n : Nat) : List Byte := (List.range' k n).map (idByte m)

theorem storeBytes_eq_storeBytesFrom (m : Memory) (n : Nat) : storeBytes m n = storeBytesFrom m 0 n := by
  rw [storeBytes, storeBytesFrom, List.range_eq_range']

theorem storeBytesFrom_succ (m : Memory) (k n : Nat) :
    storeBytesFrom m k (n + 1) = idByte m k :: storeBytesFrom m (k + 1) n := rfl

section Match
variable {c : Config} {e : Engine} {ds : List Bit} {site : FaultSite}

/-- Slots that are not the first of a frame find `slot_started` = 0 and leave it so. -/
theorem Engine.afterSlots_of_not_started (hs : e.slotStarted = false) (ds : List Bit) (tr : List TraceEntry) :
    e.afterSlots ds tr = { e with draws := ds, trace := seen tr e.trace } := by
  rw [Engine.afterSlots, ← hs]

/-- MATCH goes on as long as the bytes are equal (R234). -/
theorem Engine.matchRomFrom_equal (hc : ConfigFacts c) (he : e.error = false) (hs : e.slotStarted = false) (n m k : Nat)
    (hd : e.draws = bytesDraws (storeBytesFrom e.store k n) ++ ds) :
    e.matchRomFrom c (n + m) k =
      (e.afterSlots ds (bytesTrace (storeBytesFrom e.store k n))).matchRomFrom c m (k + n) := by
  induction n generalizing e k with
  | zero =>
    obtain rfl : e.draws = ds := hd
    rw [Engine.afterSlots_of_not_started hs, Nat.zero_add]
    rfl
  | succ n ih =>
    have hbyte : e.draws = byteDraws false (idByte e.store k)
        ++ (bytesDraws (storeBytesFrom e.store (k + 1) n) ++ ds) := by
      rw [hd, storeBytesFrom_succ, ← List.append_assoc]
      rfl
    have hread := Engine.readByte_wellBehaved hc he hs hbyte
    have hrest := ih (e := e.afterSlots (bytesDraws (storeBytesFrom e.store (k + 1) n) ++ ds)
      (byteTrace false (idByte e.store k))) he rfl (k + 1) rfl
    rw [Nat.add_right_comm, Engine.matchRomFrom_succ, hread, if_neg (by simp [Engine.afterSlots, he]),
      if_neg (not_not_intro rfl), hrest, Nat.add_right_comm, Nat.add_assoc k]
    simp [Engine.afterSlots, storeBytesFrom_succ, bytesTrace, seen_append]

/-- MATCH that reaches byte `j`, the bytes before it having been equal. -/
theorem Engine.matchRom_reaches (hc : ConfigFacts c) (he : e.error = false) (hs : e.slotStarted = false) {j : Nat}
    (hj : j < 8) (hd : e.draws = bytesDraws (storeBytes e.store j) ++ ds) :
    e.matchRom c = (e.afterSlots ds (bytesTrace (storeBytes e.store j))).matchRomFrom c (7 - j + 1) j := by
  rw [storeBytes_eq_storeBytesFrom] at hd ⊢
  have hequal := Engine.matchRomFrom_equal hc he hs j (7 - j + 1) 0 hd
  rwa [Nat.zero_add, show j + (7 - j + 1) = 8 by omega] at hequal

/-- A byte that differs ends MATCH (R234). -/
theorem Engine.matchRomFrom_differs (hc : ConfigFacts c) (he : e.error = false) (hs : e.slotStarted = false)
    (n : Nat) {k : Nat} {m : Byte} (hm : m ≠ idByte e.store k) (hd : e.draws = byteDraws false m ++ ds) :
    e.matchRomFrom c (n + 1) k = e.afterSlots ds (byteTrace false m) := by
  rw [Engine.matchRomFrom_succ, Engine.readByte_wellBehaved hc he hs hd, if_neg (by simp [Engine.afterSlots, he]),
    if_pos hm]

/-- A byte after the command byte whose bit `n` misses its slot start or its release (R200 a). -/
theorem Engine.readByte_missed (hc : ConfigFacts c) (he : e.error = false) (hs : e.slotStarted = false)
    (hsite : site = .rdStart ∨ site = .rdRelease) {v : Byte} {n : Nat} (hn : n < 8)
    (hd : e.draws = bitsDraws false ((byteSlots v).take n) ++ missDraws c false site ++ ds) :
    (e.readByte c).2 = e.afterMiss ds (bitsTrace false ((byteSlots v).take n) ++ missTrace c false false site) := by
  have hlen : ((byteSlots v).take n).length = n := List.length_take_of_le hn.le
  have hread := Engine.readBits_missed (ds := ds) hc he hsite ((byteSlots v).take n) (by simp [hs])
    (by simpa [hs] using hd) (7 - n) 0 0x00#8
  rw [hlen, show n + (7 - n + 1) = 8 by omega] at hread
  rw [Engine.readByte, hread]
  simp [Engine.afterSlots, Engine.afterMiss, hs]

/-- A missed deadline ends MATCH (R234). -/
theorem Engine.matchRomFrom_missed (hc : ConfigFacts c) (he : e.error = false) (hs : e.slotStarted = false)
    (hsite : site = .rdStart ∨ site = .rdRelease) {v : Byte} {n : Nat} (hn : n < 8) (m k : Nat)
    (hd : e.draws = bitsDraws false ((byteSlots v).take n) ++ missDraws c false site ++ ds) :
    e.matchRomFrom c (m + 1) k =
      e.afterMiss ds (bitsTrace false ((byteSlots v).take n) ++ missTrace c false false site) := by
  have hread := Engine.readByte_missed hc he hs hsite hn hd
  rw [Engine.matchRomFrom_succ, if_pos (by rw [hread]; rfl), hread]

end Match

/-- Settles O32: all eight bytes are equal, or byte `j` is the first that differs, or a slot of byte `j` is missed. -/
theorem matchIsExact : Obligations.MatchIsExact := by
  refine ⟨fun s ds hconfig he hs hd => ?_, fun s j m ds hconfig he hs hj hm hd => ?_,
    fun s j n m site ds hconfig he hs hj hn hsite hd => ?_⟩
  · rw [storeBytes_eq_storeBytesFrom] at hd ⊢
    have hall := Engine.matchRomFrom_equal (configValid_facts hconfig) he hs 8 0 0 hd
    rw [Engine.afterSlots_of_not_started hs] at hall
    refine ⟨_, exec_matchRom s, ?_⟩
    rw [Engine.matchRom, hall]
    rfl
  · have hc := configValid_facts hconfig
    rw [bytesDraws_append, List.append_assoc] at hd
    have hbyte : bytesDraws [m] ++ ds = byteDraws false m ++ ds := by simp [bytesDraws]
    have hend := Engine.matchRomFrom_differs (e := s.engine.afterSlots (bytesDraws [m] ++ ds)
      (bytesTrace (storeBytes s.engine.store j))) hc he rfl (7 - j) hm hbyte
    rw [exec_matchRom, Engine.matchRom_reaches hc he hs hj hd, hend, bytesTrace_append]
    simp [Engine.afterSlots, bytesTrace, seen_append, hs]
  · have hc := configValid_facts hconfig
    obtain ⟨rest, hrest⟩ : ∃ rest, rest =
        bitsDraws false ((byteSlots m).take n) ++ missDraws s.config false site ++ ds := ⟨_, rfl⟩
    have hreach : s.engine.draws = bytesDraws (storeBytes s.engine.store j) ++ rest := by simp [hd, hrest]
    have hend := Engine.matchRomFrom_missed (e := s.engine.afterSlots rest
      (bytesTrace (storeBytes s.engine.store j))) hc he rfl hsite hn (7 - j) j hrest
    rw [exec_matchRom, Engine.matchRom_reaches hc he hs hj hreach, hend]
    simp [Engine.afterSlots, Engine.afterMiss, seen_append, hs]

end Sys2Proof.Machine
end

section
/-! Proofs for 43_crc8.md: the bit-serial update against the printed table, and the residue of a sequence. -/

namespace Sys2Proof.Machine

theorem exec_crc8Update (crc v : Byte) (s : State) :
    exec (.crc8Update crc v) s = .next { s with engine := s.engine.give (.byte (crc8Update crc v)) } := rfl

/-! ### The update and the table -/

/-- Folding `v` in bit by bit is folding it in first and then running the rounds on a zero input: after `n` rounds the
two differ by the bits of `v` not yet used. -/
theorem crcRounds_eq_xor (n : Nat) (crc v : Byte) :
    crcRounds n crc v = crcRounds n (crc ^^^ v) 0x00#8 ^^^ (v >>> n) := by
  induction n generalizing crc v with
  | zero => simp [crcRounds]
  | succ n ih =>
    have hcomm (x : Byte) : x >>> 1 ^^^ crcPoly ^^^ v >>> 1 = x >>> 1 ^^^ v >>> 1 ^^^ crcPoly := by
      rw [BitVec.xor_assoc, BitVec.xor_comm crcPoly, ← BitVec.xor_assoc]
    rw [crcRounds, ih, crcRounds, BitVec.xor_zero, BitVec.ushiftRight_xor_distrib, BitVec.zero_ushiftRight,
      ← BitVec.shiftRight_add, Nat.add_comm 1 n]
    split
    · rw [hcomm]
    · rfl

/-- The update depends on `crc ^ v` alone (R263). -/
theorem crc8Update_eq_update_zero (crc v : Byte) : crc8Update crc v = crc8Update 0x00#8 (crc ^^^ v) := by
  have hused (x : Byte) : x >>> 8 = 0x00#8 := BitVec.ushiftRight_eq_zero (Nat.le_refl 8)
  rw [crc8Update, crcRounds_eq_xor, hused, crc8Update, crcRounds_eq_xor 8 0x00#8, hused, BitVec.zero_xor]

/-- The printed table is `T[i] = crc8_update(0x00, i)` (R263), entry by entry. -/
theorem crc8Update_zero : ∀ x : Byte, crc8Update 0x00#8 x = crcTable x := by decide +kernel

theorem crc8Update_eq_crcTable (crc v : Byte) : crc8Update crc v = crcTable (crc ^^^ v) := by
  rw [crc8Update_eq_update_zero, crc8Update_zero]

/-- Settles O26: the update is the table's entry, and the row hands it back. -/
theorem crc8UpdateIsTheTable : Obligations.Crc8UpdateIsTheTable := by
  intro s crc v
  rw [exec_crc8Update, crc8Update_eq_crcTable]
  rfl

/-! ### The residue -/

/-- The printed table holds 0 at index 0 only. -/
theorem crcTable_eq_zero_iff : ∀ x : Byte, crcTable x = 0x00#8 ↔ x = 0x00#8 := by decide +kernel

theorem crc8Update_eq_zero_iff (crc v : Byte) : crc8Update crc v = 0x00#8 ↔ crc = v := by
  rw [crc8Update_eq_crcTable, crcTable_eq_zero_iff, BitVec.xor_eq_zero_iff]

theorem crc8_append_singleton (xs : List Byte) (v : Byte) : crc8 (xs ++ [v]) = crc8Update (crc8 xs) v :=
  List.foldl_concat ..

/-- The residue is 0 exactly for the sequence's own CRC (R265 and its converse). -/
theorem crc8_append_singleton_eq_zero_iff (xs : List Byte) (v : Byte) : crc8 (xs ++ [v]) = 0x00#8 ↔ crc8 xs = v := by
  rw [crc8_append_singleton, crc8Update_eq_zero_iff]

theorem storeBytes_succ (m : Memory) (n : Nat) : storeBytes m (n + 1) = storeBytes m n ++ [idByte m n] := by
  simp [storeBytes, List.range_succ]

/-- Settles O27: an identifier's last byte is the byte that follows its first seven. -/
theorem crcResidueDecidesValidity : Obligations.CrcResidueDecidesValidity := by
  refine ⟨fun xs => (crc8_append_singleton_eq_zero_iff xs _).mpr rfl, fun m => ?_⟩
  rw [storeBytes_succ m 7, crc8_append_singleton_eq_zero_iff, idValid, beq_iff_eq]

end Sys2Proof.Machine
end

section
/-! Proofs for 44_host_interface.md: the host operations, the error pending at a frame, and the callback. -/

namespace Sys2Proof.Machine

/-- Settles O11: both rows write the flag. -/
theorem setAlarmWritesOnlyAlarm : Obligations.SetAlarmWritesOnlyAlarm := fun _ => ⟨rfl, rfl⟩

/-- Settles O12: the read hands the flag back, and the other two rows write it. -/
theorem errorOperationsReadAndWriteError : Obligations.ErrorOperationsReadAndWriteError := fun _ => ⟨rfl, rfl, rfl⟩

/-! ### An error pending at the frame -/

/-- The command byte's first bit finds the error, so the frame is its start and its end (R160, R284 a). -/
theorem Engine.pinFirstSignalFrame_of_error (c : Config) {e : Engine} (he : e.error = true) :
    e.pinFirstSignalFrame c = e.frameStart.endFrame := by
  have hstart : e.frameStart.error = true := he
  have hread : e.frameStart.readByte c = (0x00#8, e.frameStart) := Engine.readBits_of_error c 8 0 0x00#8 hstart
  rw [Engine.pinFirstSignalFrame_eq, Engine.frame, hread]
  exact congrArg Engine.endFrame (if_pos hstart)

/-- Settles O13: the PIN selects the frame's row, and the frame finds the error. -/
theorem pendingErrorCostsOneFrame : Obligations.PendingErrorCostsOneFrame := by
  intro s rest hc hs hstage hignore he hi
  have hrow : rowOf .pin s.engine = .pinFirstSignalFrame := by simp [rowOf, pinRow, hstage, hignore]
  rw [step_next hc hs hi, hrow, exec_of_runs rfl, State.onEngine, rowEffect, Engine.pinFirstSignalFrame_of_error _ he]
  rfl

/-! ### The callback -/

theorem runRows_cons {i : Instr} {is : List Instr} {s t : State} (h : exec i s = .next t) :
    runRows (i :: is) s = runRows is t := by
  rw [runRows, h]

/-- The actions a callback performs: the framing ones only when `CALLBACK_IO` = true (R291). -/
def admits (c : Config) (op : CallbackOp) : Bool := c.callbackIo || !isFraming op

theorem callbackIo_of_admits {c : Config} {op : CallbackOp} (h : admits c op = true) (hop : isFraming op = true) :
    c.callbackIo = true := by
  simpa [admits, hop] using h

/-- An admitted action is its row (R290, R291). -/
theorem exec_callbackRow {s : State} {op : CallbackOp} (e : Engine) (h : admits s.config op = true) :
    exec (callbackRow op) { s with engine := e } = .next { s with engine := e.callbackOp s.config op } := by
  cases op with
  | setAlarmOn | setAlarmOff | isError | setErrorOn | setErrorOff => rfl
  | readBit | writeBit | readByte | writeByte | writeByteWithCrc8 =>
    rw [Engine.callbackOp, Engine.framing, if_pos (callbackIo_of_admits h rfl)]
    rfl

/-- An action that is not admitted does nothing (R291). -/
theorem Engine.callbackOp_of_not_admits {c : Config} {op : CallbackOp} (e : Engine) (h : ¬ admits c op = true) :
    e.callbackOp c op = e := by
  obtain ⟨hio, hop⟩ : c.callbackIo = false ∧ isFraming op = true := by simpa [admits] using h
  cases op with
  | setAlarmOn | setAlarmOff | isError | setErrorOn | setErrorOff => exact nomatch hop
  | readBit | writeBit | readByte | writeByte | writeByteWithCrc8 =>
    rw [Engine.callbackOp, Engine.framing, if_neg (by simp [hio])]

/-- The rows of the admitted actions, one after another, are the application's code (R290). -/
theorem runRows_callbackRow (s : State) (ops : List CallbackOp) (e : Engine) :
    runRows ((ops.filter (admits s.config)).map callbackRow) { s with engine := e } =
      .next { s with engine := e.runCallback s.config ops } := by
  induction ops generalizing e with
  | nil => rfl
  | cons op ops ih =>
    by_cases h : admits s.config op = true
    · rw [List.filter_cons_of_pos h, List.map_cons, runRows_cons (exec_callbackRow e h), ih, Engine.runCallback]
    · rw [List.filter_cons_of_neg h, ih, Engine.runCallback, Engine.callbackOp_of_not_admits e h]

/-- Settles O34: the callback takes its actions from the script or from the free values, and they run as rows. -/
theorem callbackRunsItsActions : Obligations.CallbackRunsItsActions := by
  refine ⟨fun s ops rest h => ⟨_, exec_callback s, ?_⟩, fun s h => ⟨_, exec_callback s, ?_⟩⟩
  · rw [Engine.callback_scripted s.config h]
    exact runRows_callbackRow s ops _
  · rw [Engine.callback_free s.config h]
    exact runRows_callbackRow s _ _

end Sys2Proof.Machine
end

section
/-! Proofs for 60_exceptions.md: a step and the engines of the other buses, and the deadlines one row can miss. -/

namespace Sys2Proof.Machine

/-! ### The engines of the other buses -/

/-- The engine in front is the one of its own bus only. -/
theorem State.engineOf_of_ne {bus : Nat} {s : State} (h : s.engine.bus ≠ bus) :
    s.engineOf bus = s.parked.find? fun e => e.bus == bus :=
  List.find?_cons_of_neg (by simpa using h)

/-- Taking the engine of one bus out leaves the first engine of every other bus. -/
theorem takeBus_find?_of_ne {bus bus' : Nat} {es es' : List Engine} {e : Engine} (h : takeBus bus es = some (e, es'))
    (hne : bus' ≠ bus) : es'.find? (fun e => e.bus == bus') = es.find? fun e => e.bus == bus' := by
  obtain ⟨rfl, l, r, rfl, rfl, -⟩ := takeBus_spec h
  rw [List.find?_append, List.find?_append, List.find?_cons_of_neg (by simpa using hne.symm)]

/-- Giving an engine the focus moves no other one out of sight (R330). -/
theorem State.focus_engineOf {bus bus' : Nat} {s f : State} (hf : s.focus bus = some f) (hne : bus' ≠ bus) :
    f.engineOf bus' = s.engineOf bus' := by
  unfold State.focus at hf
  split at hf
  · exact congrArg _ (Option.some.inj hf).symm
  · split at hf
    · rename_i e es htake
      obtain rfl := Option.some.inj hf
      have hfront : e.bus ≠ bus' := (takeBus_spec htake).1.trans_ne hne.symm
      rw [State.engineOf_of_ne hfront, State.engineOf, List.find?_cons, List.find?_cons, takeBus_find?_of_ne htake hne]
    · exact nomatch hf

/-- An operation that keeps the bus number touches the engine of no other bus. -/
theorem State.onEngine_engineOf {bus : Nat} {s : State} {f : Config → Engine → Engine}
    (hbus : (f s.config s.engine).bus = s.engine.bus) (hne : bus ≠ s.engine.bus) :
    (s.onEngine f).engineOf bus = s.engineOf bus := by
  have hfront : (s.onEngine f).engine.bus ≠ bus := hbus.trans_ne hne.symm
  rw [State.engineOf_of_ne hfront, State.engineOf_of_ne hne.symm]
  rfl

/-- Settles O53: the engine of the input gets the focus, and the selected row is an operation of that engine that keeps
its bus number. -/
theorem stepLeavesOtherEnginesAlone : Obligations.StepLeavesOtherEnginesAlone := by
  intro s t d rest hin hstep
  obtain ⟨-, ⟨hnil, -⟩ | ⟨d', rest', f, hin', hf, -, hexec⟩⟩ := step_cases hstep
  · simp [hin] at hnil
  obtain ⟨rfl, rfl⟩ := List.cons.inj (hin.symm.trans hin')
  obtain ⟨-, rfl⟩ := exec_eq_next_iff.mp hexec
  obtain ⟨hbus, hconfig, hinputs, -⟩ := State.focus_spec hf
  refine ⟨hinputs, hconfig, fun bus hne => ?_⟩
  calc (f.onEngine (rowEffect (rowOf d.input f.engine))).engineOf bus
      = f.engineOf bus := State.onEngine_engineOf (rowEffect_store_bus _ _ _).2 (hbus ▸ hne)
    _ = State.engineOf bus { s with inputs := rest } := State.focus_engineOf hf hne

/-! ### Missed deadlines -/

/-- From `e` to `e'` at most `n` missed deadlines are recorded. -/
def Engine.MissesAtMost (n : Nat) (e e' : Engine) : Prop :=
  ∃ new : List TraceEntry, e'.trace = new ++ e.trace ∧ countOf TraceEntry.isFault new ≤ n

/-- What `error` leaves room for: one deadline from 0, none from 1. -/
theorem Bool.le_toNat_not {k : Nat} {b : Bool} (h : k + b.toNat ≤ 1) : k ≤ (!b).toNat := by
  cases b
  · exact h
  · exact Nat.le_of_succ_le_succ h

section Misses
variable {P : Prop} {c : Config} {e e1 e2 : Engine} {n m : Nat}

/-- Entries that are no faults. -/
theorem Engine.MissesAtMost.entries (new : List TraceEntry) (ht : e1.trace = new ++ e.trace)
    (h0 : countOf TraceEntry.isFault new = 0) : e.MissesAtMost n e1 := ⟨new, ht, h0.trans_le (Nat.zero_le n)⟩

theorem Engine.MissesAtMost.silently (ht : e1.trace = e.trace) : e.MissesAtMost n e1 := .entries [] ht rfl

theorem Engine.MissesAtMost.mono (h : e.MissesAtMost n e1) (hnm : n ≤ m) : e.MissesAtMost m e1 :=
  let ⟨new, ht, hn⟩ := h
  ⟨new, ht, hn.trans hnm⟩

theorem Engine.MissesAtMost.trans (h1 : e.MissesAtMost n e1) (h2 : e1.MissesAtMost m e2) :
    e.MissesAtMost (n + m) e2 := by
  obtain ⟨new1, ht1, hn1⟩ := h1
  obtain ⟨new2, ht2, hn2⟩ := h2
  refine ⟨new2 ++ new1, by rw [ht2, ht1, List.append_assoc], ?_⟩
  rw [countOf_append]; omega

/-- Entries that are no faults, after a piece without one. -/
theorem Engine.MissesAtMost.then_entries (h : e.MissesAtMost 0 e1) (new : List TraceEntry)
    (ht : e2.trace = new ++ e1.trace) (h0 : countOf TraceEntry.isFault new = 0) : e.MissesAtMost n e2 :=
  (h.trans (.entries (n := 0) new ht h0)).mono (Nat.zero_le n)

/-- Bit and byte I/O records a deadline only when it sets `error` (R192, R300). -/
theorem Io.missesAtMost (h : Io P n e e1) : e.MissesAtMost (!e.error).toNat e1 :=
  let ⟨tr, a⟩ := h
  ⟨tr, a.trace, Bool.le_toNat_not (a.faults.trans_le (Bool.toNat_le_one' _))⟩

/-- I/O that leaves `error` as it was has recorded none. -/
theorem Io.missesNone (h : Io P n e e1) (herr : e1.error = e.error) : e.MissesAtMost 0 e1 :=
  let ⟨tr, a⟩ := h
  ⟨tr, a.trace, by have := a.faults; rw [herr] at this; omega⟩

/-- So does a command whose callback cannot clear `error` and miss again (R308). -/
theorem App.missesAtMost (h : App P c n e e1) (hkeep : e.CallbackKeepsError c) :
    e.MissesAtMost (!e.error).toNat e1 :=
  let ⟨tr, a⟩ := h
  ⟨tr, a.trace, Bool.le_toNat_not (a.faults hkeep)⟩

/-! ### Rows of the state machine -/

theorem Engine.pin_missesNone (e : Engine) : e.MissesAtMost 0 e.pin.2 :=
  (e.pin_io (P := False) nofun).missesNone e.pin_error

theorem Engine.pinIdle_missesNone : e.MissesAtMost n (e.pinIdle c) := by
  unfold Engine.pinIdle
  dsimp only
  split
  · exact e.pin_missesNone.then_entries [] rfl rfl
  · exact e.pin_missesNone.then_entries [.tset c.ticksResetMin] rfl rfl

theorem Engine.pinResetMin_missesNone : e.MissesAtMost n e.pinResetMin := by
  unfold Engine.pinResetMin
  dsimp only
  split
  · exact e.pin_missesNone.then_entries [.tcancel] rfl rfl
  · exact e.pin_missesNone.then_entries [] rfl rfl

theorem Engine.pinResetMax_missesNone : e.MissesAtMost n (e.pinResetMax c) := by
  unfold Engine.pinResetMax
  dsimp only
  split
  · exact e.pin_missesNone.then_entries [.tset c.ticksPresence, .drive true, .delay .presenceDelay] rfl rfl
  · exact e.pin_missesNone.then_entries [.tcancel] rfl rfl

/-- The presence-release poll may miss its deadline whatever `error` holds (R153). -/
theorem Engine.expiryPresence_missesAtMost : e.MissesAtMost 1 (e.expiryPresence c) := by
  have hdrive : e.MissesAtMost 0 (e.drive false) := .entries [.drive false] rfl rfl
  have hp := hdrive.trans ((Engine.poll_io true c.nPresenceRelease (e.drive false) fun _ : True => rfl).missesNone
    (Engine.poll_error _ _ _))
  unfold Engine.expiryPresence
  dsimp only
  split
  · exact hp.then_entries [.tset c.ticksFsRetry] rfl rfl
  · exact hp.trans (m := 1) ⟨[.fault .presenceRelease], rfl, Nat.le_refl 1⟩

theorem Engine.expiryFirstSignal_missesNone : e.MissesAtMost n (e.expiryFirstSignal c) := by
  simp only [Engine.expiryFirstSignal]
  split
  · exact .silently rfl
  · exact .entries [.tset c.ticksFsRetry] rfl rfl

/-- No expiry but the end of the presence pulse has a deadline. -/
theorem expiryRow_missesAtMost (st : Stage) :
    e.MissesAtMost (decide (st = .presencePulseOn)).toNat (rowEffect (expiryRow st) c e) := by
  cases st with
  | presencePulseOn => exact Engine.expiryPresence_missesAtMost
  | waitingResetMin => exact .entries [.tset c.ticksResetWindow] rfl rfl
  | waitingFirstSignal => exact Engine.expiryFirstSignal_missesNone
  | idle | waitingResetMax | unused5 | unused6 | unused7 => exact .silently rfl

theorem Engine.softTimerTick_missesAtMost :
    e.MissesAtMost (decide (e.stage = .presencePulseOn)).toNat (e.softTimerTick c) := by
  obtain h | ⟨k, -, h⟩ | h := e.softTimerTick_cases c <;> rw [h]
  · exact .silently rfl
  · exact .silently rfl
  · exact expiryRow_missesAtMost (e := e.expired) e.stage

/-- The frame's row misses what its frame misses: it cancels the timer before, and clears two flags after (R156). -/
theorem Engine.pinFirstSignalFrame_missesAtMost (hkeep : e.CallbackKeepsError c) :
    e.MissesAtMost (!e.error).toNat (e.pinFirstSignalFrame c) := by
  have hstart : e.MissesAtMost 0 e.frameStart := .entries [.tcancel] rfl rfl
  have hkeep' : e.frameStart.CallbackKeepsError c :=
    hkeep.imp_right (Engine.nextCallback_congr (e := e) (e' := e.frameStart) rfl rfl rfl ▸ ·)
  have hframe := hstart.trans ((Engine.frame_app (P := False) c e.frameStart nofun).missesAtMost hkeep')
  rw [Nat.zero_add] at hframe
  exact hframe

/-! ### Every row -/

/-- Whether a row may miss a deadline: with `error` = 0, and at the presence release in any case (R308, D13). -/
def mayMiss (i : Instr) (e : Engine) : Bool :=
  match i with
  | .expiryPresence => true
  | .tick => !e.error || decide (e.stage = .presencePulseOn)
  | _ => !e.error

theorem mayMiss_of_error {i : Instr} (he : e.error = true) (hi : i ≠ .expiryPresence)
    (ht : i = .tick → e.stage ≠ .presencePulseOn) : mayMiss i e = false := by
  cases i with
  | expiryPresence => exact absurd rfl hi
  | tick => simp [mayMiss, he, ht rfl]
  | _ => simp [mayMiss, he]

/-- A row that cannot run the callback. -/
theorem rowEffect_missesAtMost_of_noCallback {i : Instr} (hi : mayRunCallback i = false) :
    e.MissesAtMost (mayMiss i e).toNat (rowEffect i c e) := by
  have hP : False → e.lineDdr = false := nofun
  cases i with
  | search => exact (Engine.search_io c e hP).missesAtMost
  | alarmSearch => exact (Engine.alarmSearch_io c e hP).missesAtMost
  | readRom => exact (Engine.readRom_io c e hP).missesAtMost
  | poll level n => exact (Engine.poll_io level n e hP).missesAtMost
  | readBit => exact (Engine.readBit_io c e hP).missesAtMost
  | writeBit b => exact (Engine.writeBit_io c b e hP).missesAtMost
  | readByte => exact (Engine.readByte_io c e hP).missesAtMost
  | writeByte v => exact (Engine.writeByte_io c v e hP).missesAtMost
  | writeByteWithCrc8 v crc =>
    have hw := (Engine.writeByte_io c v e hP).missesAtMost
    rw [← Engine.writeByteWithCrc8_engine c v crc e] at hw
    exact hw
  | tick => exact Engine.softTimerTick_missesAtMost.mono (Bool.toNat_le_toNat (Bool.right_le_or _ _))
  | pinIdle => exact Engine.pinIdle_missesNone
  | pinResetMin => exact Engine.pinResetMin_missesNone
  | pinResetMax => exact Engine.pinResetMax_missesNone
  | expiryResetMin => exact .entries [.tset c.ticksResetWindow] rfl rfl
  | expiryPresence => exact Engine.expiryPresence_missesAtMost
  | expiryFirstSignal => exact Engine.expiryFirstSignal_missesNone
  | delay d => exact .entries [.delay d] rfl rfl
  | init => exact .entries [.tcancel, .drive false, .port false] rfl rfl
  | ignored _ | pinPresence | pinFirstSignalIgnored | expiryIdle | expiryResetMax | eventBadStage | crc8Update _ _
  | setAlarmOn | setAlarmOff | isError | setErrorOn | setErrorOff => exact .silently rfl
  | matchRom | skip | frame | pinFirstSignalFrame | callback => exact nomatch hi

/-- A row that may run the callback, if the callback to come cannot miss a second deadline. -/
theorem rowEffect_missesAtMost_of_callback {i : Instr} (hi : mayRunCallback i = true)
    (hkeep : e.CallbackKeepsError c) : e.MissesAtMost (mayMiss i e).toNat (rowEffect i c e) := by
  cases i with
  | pinFirstSignalFrame => exact Engine.pinFirstSignalFrame_missesAtMost hkeep
  | matchRom | skip | frame | callback =>
    exact (rowEffect_app (P := False) (by decide) (by decide) (by decide) c e nofun).missesAtMost hkeep
  | _ => exact nomatch hi

end Misses

/-- Settles O58: a row is its operation on the engine in focus, and what it records comes on top of the trace. -/
theorem atMostOneFaultPerRow : Obligations.AtMostOneFaultPerRow := by
  intro i s t hquiet h
  obtain ⟨-, rfl⟩ := exec_eq_next_iff.mp h
  have hmisses : s.engine.MissesAtMost (mayMiss i s.engine).toNat (rowEffect i s.config s.engine) := by
    cases hi : mayRunCallback i with
    | false => exact rowEffect_missesAtMost_of_noCallback hi
    | true => exact rowEffect_missesAtMost_of_callback hi (hquiet.imp_right fun h => h.resolve_left (by simp [hi]))
  obtain ⟨new, htrace, hnew⟩ := hmisses
  rw [State.onEngine_engine, htrace, countOf_append]
  refine ⟨?_, fun herr hexpiry htick => ?_⟩
  · have := Bool.toNat_le_one' (mayMiss i s.engine)
    omega
  · rw [mayMiss_of_error herr hexpiry htick, Bool.toNat_false] at hnew
    omega

end Sys2Proof.Machine
end

section
/-! Proofs for 70_reset_and_hazards.md: what `init()` writes, and how a low pulse is classified. -/

namespace Sys2Proof.Machine

/-- Settles O10: the row writes these registers and records these outputs. -/
theorem initWritesTheResetValues : Obligations.InitWritesTheResetValues := fun _ => rfl

/-! ### Edges and whole countdowns -/

section Steps
variable {s : State} {rest : List Delivery}

/-- An edge takes its input and runs the row it selects. -/
theorem step_pin {i : Instr} {e : Engine} (hc : configValid s.config = true) (hs : s.engine.started = true)
    (hrow : pinRow s.engine = i) (hruns : rowStops i s.engine.stage = false)
    (heffect : rowEffect i s.config s.engine = e) (hi : s.inputs = ⟨s.engine.bus, .pin⟩ :: rest) :
    step s = .next { s with inputs := rest, engine := e } := by
  have hpin : rowOf .pin s.engine = i := hrow
  rw [step_next hc hs hi, hpin, ← heffect]
  exact exec_of_runs hruns

/-- As many ticks as the countdown holds end in the expiry row of the stage (R143, R144). -/
theorem runSteps_countdown {n : Nat} (hc : configValid s.config = true) (hs : s.engine.started = true)
    (hu : s.engine.stage.isUnused = false) (ha : s.engine.timerArmed = true) (hn : s.engine.timerCount = n + 1)
    (hw : n + 1 < 2 ^ s.config.timerCountBits)
    (hi : s.inputs = List.replicate (n + 1) ⟨s.engine.bus, .tick⟩ ++ rest) :
    runSteps (n + 1) s = .next { s with
      inputs := rest, engine := rowEffect (expiryRow s.engine.stage) s.config s.engine.expired } := by
  rw [List.replicate_succ', List.append_assoc] at hi
  have hrun := runSteps_ticks (m := 0) hc hs hu ha (by omega) (by omega) hi
  have hlast := step_expiry (s := s.counted 1 (⟨s.engine.bus, .tick⟩ :: rest)) hc hs hu ha rfl rfl
  rw [runSteps_then_step hrun hlast, Engine.onTimerExpiry_eq]
  rfl

/-- The machine with the timer at another point of its countdown, or off. -/
def State.timed (armed : Bit) (n : Nat) (rest : List Delivery) (s : State) : State :=
  { s with inputs := rest, engine := { s.engine with timerArmed := armed, timerCount := n } }

/-- In WAITING_RESET_MAX a tick reaches nothing but the timer: its expiry is no operation (R149). -/
theorem Engine.softTimerTick_resetMax (c : Config) {e : Engine} (h : e.stage = .waitingResetMax) : ∃ armed n,
    e.softTimerTick c = { e with timerArmed := armed, timerCount := n } := by
  obtain hnone | ⟨n, -, hcount⟩ | hexpiry := Engine.softTimerTick_cases c e
  · exact ⟨e.timerArmed, e.timerCount, hnone⟩
  · exact ⟨e.timerArmed, n, hcount⟩
  · rw [h] at hexpiry
    exact ⟨false, 0, hexpiry⟩

/-- However long the line stays low in WAITING_RESET_MAX, only the timer moves. -/
theorem runSteps_resetMax {j : Nat} (hc : configValid s.config = true) (hs : s.engine.started = true)
    (hst : s.engine.stage = .waitingResetMax)
    (hi : s.inputs = List.replicate j ⟨s.engine.bus, .tick⟩ ++ rest) :
    ∃ armed n, runSteps j s = .next (s.timed armed n rest) := by
  induction j generalizing s with
  | zero =>
    obtain rfl : s.inputs = rest := hi
    exact ⟨s.engine.timerArmed, s.engine.timerCount, runSteps_zero s⟩
  | succ j ih =>
    obtain ⟨armed, n, htick⟩ := Engine.softTimerTick_resetMax s.config hst
    have hlegal : s.engine.stage.isUnused = false := by rw [hst]; rfl
    have hrow : rowOf .tick s.engine = .tick := if_neg (by simp [hlegal])
    have hstep : step s =
        .next (s.timed armed n (List.replicate j ⟨s.engine.bus, .tick⟩ ++ rest)) := by
      rw [step_next hc hs hi, hrow, State.timed, ← htick]
      exact exec_tick hlegal
    obtain ⟨armed', n', hrun⟩ := ih (s := s.timed armed n (List.replicate j ⟨s.engine.bus, .tick⟩ ++ rest)) hc hs hst
      rfl
    exact ⟨armed', n', (runSteps_next hstep).trans hrun⟩

end Steps

/-! ### Classifying a low pulse -/

/-- The machine after the falling edge in IDLE: the countdown of the RESET minimum runs (R146). -/
def State.fallen (ds : List Bit) (rest : List Delivery) (s : State) : State :=
  { s with
    inputs := rest
    engine := { s.engine with
      draws := ds, stage := .waitingResetMin, timerArmed := true, timerCount := s.config.ticksResetMin
      trace := [.tset s.config.ticksResetMin, .sample false] ++ s.engine.trace } }

/-- The machine after the RESET minimum has elapsed: the countdown of the window runs (R148). -/
def State.elapsed (rest : List Delivery) (s : State) : State :=
  { s with
    inputs := rest
    engine := { s.engine with
      stage := .waitingResetMax, timerArmed := true, timerCount := s.config.ticksResetWindow
      trace := .tset s.config.ticksResetWindow :: s.engine.trace } }

/-- A low pulse has begun: the countdown of the RESET minimum holds its whole value, and the line's next level is the
rising edge. -/
structure State.PulseBegun (ds : List Bit) (s : State) : Prop where
  config : configValid s.config = true
  started : s.engine.started = true
  stage : s.engine.stage = .waitingResetMin
  armed : s.engine.timerArmed = true
  count : s.engine.timerCount = s.config.ticksResetMin
  rises : s.engine.draws = true :: ds

section Pulse
variable {s : State} {ds : List Bit} {k : Nat} {rest : List Delivery}

/-- The falling edge of a pulse from IDLE (R146). -/
theorem step_fallen (hc : configValid s.config = true) (hs : s.engine.started = true) (hst : s.engine.stage = .idle)
    (hd : s.engine.draws = false :: ds) (hi : s.inputs = ⟨s.engine.bus, .pin⟩ :: rest) :
    step s = .next (s.fallen ds rest) := by
  have hrow : pinRow s.engine = .pinIdle := by simp only [pinRow, hst]
  exact step_pin hc hs hrow rfl (Engine.pinIdle_low (configValid_facts hc) hd) hi

theorem State.PulseBegun.legal (h : s.PulseBegun ds) : s.engine.stage.isUnused = false := by rw [h.stage]; rfl

/-- A pulse shorter than the minimum is no RESET: the rising edge returns to IDLE (R147). -/
theorem State.PulseBegun.run_short (h : s.PulseBegun ds) (hk : k < s.config.ticksResetMin)
    (hi : s.inputs = List.replicate k ⟨s.engine.bus, .tick⟩ ++ ⟨s.engine.bus, .pin⟩ :: rest) :
    ∃ n, runSteps (k + 1) s = .next { s with
      inputs := rest
      engine := { s.engine with
        timerCount := n, draws := ds, stage := .idle, timerArmed := false
        trace := [.tcancel, .sample true] ++ s.engine.trace } } := by
  have hwidth := (configValid_facts h.config).resetMin.2
  have hcount := h.count
  obtain ⟨m, hm⟩ := Nat.exists_eq_add_of_lt hk
  have hrun := runSteps_ticks (m := m) h.config h.started h.legal h.armed (by omega) (by omega) hi
  have hrow : pinRow (s.counted (m + 1) (⟨s.engine.bus, .pin⟩ :: rest)).engine = .pinResetMin := by
    simp only [State.counted, pinRow, h.stage]
  have hedge := step_pin (s := s.counted (m + 1) (⟨s.engine.bus, .pin⟩ :: rest)) h.config h.started hrow rfl
    (Engine.pinResetMin_high h.rises) rfl
  exact ⟨m + 1, runSteps_then_step hrun hedge⟩

/-- The minimum's ticks open the window (R148). -/
theorem State.PulseBegun.run_minimum (h : s.PulseBegun ds)
    (hi : s.inputs = List.replicate s.config.ticksResetMin ⟨s.engine.bus, .tick⟩ ++ rest) :
    runSteps s.config.ticksResetMin s = .next (s.elapsed rest) := by
  have hc := configValid_facts h.config
  obtain ⟨hpos, hwidth⟩ := hc.resetMin
  obtain ⟨m, hm⟩ : ∃ m, s.config.ticksResetMin = m + 1 := Nat.exists_eq_add_of_le' hpos
  rw [hm] at hwidth hi ⊢
  rw [runSteps_countdown h.config h.started h.legal h.armed (h.count.trans hm) hwidth hi, h.stage, expiryRow,
    rowEffect, Engine.expiryResetMin_eq hc]
  rfl

/-- However long the pulse lasts once the window is open, the rising edge starts the presence pulse (R149, R150). -/
theorem runSteps_window (hc : configValid s.config = true) (hs : s.engine.started = true)
    (hst : s.engine.stage = .waitingResetMax) (hd : s.engine.draws = true :: ds)
    (hi : s.inputs = List.replicate k ⟨s.engine.bus, .tick⟩ ++ ⟨s.engine.bus, .pin⟩ :: rest) :
    runSteps (k + 1) s = .next { s with
      inputs := rest
      engine := { s.engine with
        draws := ds, stage := .presencePulseOn, lineDdr := true
        timerArmed := true, timerCount := s.config.ticksPresence
        trace := [.tset s.config.ticksPresence, .drive true, .delay .presenceDelay, .sample true]
          ++ s.engine.trace } } := by
  obtain ⟨armed, n, hrun⟩ := runSteps_resetMax hc hs hst hi
  have hrow : pinRow (s.timed armed n (⟨s.engine.bus, .pin⟩ :: rest)).engine = .pinResetMax := by
    simp only [State.timed, pinRow, hst]
  have hedge := step_pin (s := s.timed armed n (⟨s.engine.bus, .pin⟩ :: rest)) hc hs hrow rfl
    (Engine.pinResetMax_high (configValid_facts hc) hd) rfl
  exact runSteps_then_step hrun hedge

/-- A pulse of at least the minimum is a RESET: the rising edge starts the presence pulse (R148 to R150). -/
theorem State.PulseBegun.run_long (h : s.PulseBegun ds) (hk : s.config.ticksResetMin ≤ k)
    (hi : s.inputs = List.replicate k ⟨s.engine.bus, .tick⟩ ++ ⟨s.engine.bus, .pin⟩ :: rest) :
    runSteps (k + 1) s = .next { s with
      inputs := rest
      engine := { s.engine with
        draws := ds, stage := .presencePulseOn, lineDdr := true
        timerArmed := true, timerCount := s.config.ticksPresence
        trace := [.tset s.config.ticksPresence, .drive true, .delay .presenceDelay, .sample true,
          .tset s.config.ticksResetWindow] ++ s.engine.trace } } := by
  obtain ⟨j, rfl⟩ := Nat.exists_eq_add_of_le hk
  rw [List.replicate_add, List.append_assoc] at hi
  refine (runSteps_add (b := j + 1) (h.run_minimum hi)).trans ?_
  exact runSteps_window h.config h.started rfl h.rises rfl

end Pulse

/-- Settles O47: after the falling edge the pulse ends before the minimum has elapsed, or after it. -/
theorem resetIsClassifiedByTicks : Obligations.ResetIsClassifiedByTicks := by
  intro s k ds rest hc hs hst hd hi
  have hpulse : (s.fallen (true :: ds)
      (List.replicate k ⟨s.engine.bus, .tick⟩ ++ ⟨s.engine.bus, .pin⟩ :: rest)).PulseBegun ds :=
    ⟨hc, hs, rfl, rfl, rfl, rfl⟩
  rw [runSteps_next (step_fallen hc hs hst hd hi)]
  obtain hk | hk := Nat.lt_or_ge k s.config.ticksResetMin
  · obtain ⟨n, hrun⟩ := hpulse.run_short hk rfl
    exact ⟨_, hrun, rfl, rfl, rfl, rfl, fun _ => ⟨rfl, rfl, rfl, rfl⟩, fun h => absurd hk h.not_gt⟩
  · exact ⟨_, hpulse.run_long hk rfl, rfl, rfl, rfl, rfl, fun h => absurd hk h.not_ge,
      fun _ => ⟨rfl, rfl, rfl, rfl, rfl⟩⟩

end Sys2Proof.Machine
end
